-- ==== Sys2Proof/Word.lean ====
section
/-! DEFINITION. The words of the block: bytes and the 4-byte magic tag (00_scope.md R7, R8). -/

namespace Sys2Proof

/-- A byte: bit 7 is the most significant (R8). -/
abbrev Byte := BitVec 8

/-- A 4-byte magic tag, `c0` the byte read first (R111, R112). -/
structure Tag where
  c0 : Byte
  c1 : Byte
  c2 : Byte
  c3 : Byte
deriving DecidableEq, Repr

end Sys2Proof
end

