-- ==== Sys2Proof/Config.lean ====
section
/-! DEFINITION. What one instance of the block fixes (00_scope.md R7, 20_memory.md R63), and the free value of the
reads to which the spec gives no value (93_implementation_defined.md, treatment "any value"). -/

namespace Sys2Proof

/-- The two OPEN parameters of R7, and whether the platform maps IN and OUT onto overlapping storage (R63).
The machine carries it in `State.cfg`; no step writes it. DESIGN CHOICE: notes/assumptions/1.md and 9.md. -/
structure Config where
  /-- `MAGIC_SET`: the tags HDR accepts (R7, R112, D4). -/
  magicSet : List Tag
  /-- `MAX_OUT`: the largest declared size the output buffer holds (R7, R117, D15). -/
  maxOut : BitVec 32
  /-- The platform maps IN and OUT onto overlapping storage, which the model refuses (R63, D21). -/
  inOutOverlap : Bool
deriving DecidableEq, Repr

/-- `MAGIC_SET` is a non-empty set (R7): at least one tag, none twice. -/
abbrev Config.wf (c : Config) : Prop := c.magicSet ≠ [] ∧ c.magicSet.Nodup

/-- "Yaz0" in ASCII: 59 61 7A 30 (30_encoding.md R92). PRESUMED: notes/assumptions/15.md. -/
def Tag.yaz0 : Tag := ⟨0x59#8, 0x61#8, 0x7A#8, 0x30#8⟩

/-- "YAZ0" in ASCII: 59 41 5A 30 (40_header.md R112). PRESUMED: notes/assumptions/15.md. -/
def Tag.yAZ0 : Tag := ⟨0x59#8, 0x41#8, 0x5A#8, 0x30#8⟩

/-- The configuration of the spec's test vectors (95_test_vectors.md): `MAGIC_SET = {"Yaz0"}`, `MAX_OUT = 2^32 − 1`.
DESIGN CHOICE as the configuration of the reset state: notes/assumptions/1.md. -/
def Config.default : Config :=
  { magicSet := [Tag.yaz0], maxOut := 0xFFFFFFFF#32, inOutOverlap := false }

/-- FREE VALUE: what the `k`-th host read of OUT answers where the spec gives no value (R61, R216; I6, I10, E1).
Nothing constrains it: notes/assumptions/10.md. -/
opaque Config.freeOutByte : Nat → Byte

end Sys2Proof
end

