-- ==== Sys2Proof/Syntax.lean ====
section
/-! DEFINITION. The items of the container as instructions: one constructor per row of spec/opcode_table.json
(30_encoding.md R80 to R88). Operands are the fields of the row's format. -/

namespace Sys2Proof

/-- The six items a decode executes. -/
inductive Instr where
  /-- HDR, format F-HDR (R81): `M` magic, `S` output_size, `R` reserved. -/
  | hdr (magic : Tag) (size : BitVec 32) (reserved : BitVec 64)
  /-- CTRL, format F-CTRL (R82): eight flag bits, bit 7 first. -/
  | ctrl (flags : Byte)
  /-- LIT, format F-LIT (R83): the literal byte. -/
  | lit (value : Byte)
  /-- BREF_LONG, format F-BR3 (R86): `D` distance, `E` extended length. -/
  | brefLong (distance : BitVec 12) (ext : Byte)
  /-- BREF_SHORT, format F-BR2 (R85): `N` length nibble (1..15), `D` distance. -/
  | brefShort (nibble : BitVec 4) (distance : BitVec 12)
  /-- END (R131): no encoding, consumes nothing. -/
  | endDecode
deriving DecidableEq, Repr

end Sys2Proof
end

