-- ==== Sys2Proof/WellFormed.lean ====
section
/-! DEFINITION. Which instruction terms stand for an item of the container. The one constraint of the opcode table
is `N != 0` for BREF_SHORT (30_encoding.md R85, R88 row 6); every other field takes every value (R90). -/

namespace Sys2Proof

/-- The instruction has an encoding. -/
def Instr.wf : Instr → Bool
  | .hdr _ _ _ => true
  | .ctrl _ => true
  | .lit _ => true
  | .brefLong _ _ => true
  | .brefShort n _ => n != 0#4
  | .endDecode => true

end Sys2Proof
end

