-- ==== Sys2Proof/Decode.lean ====
section
/-! DEFINITION. From bytes to instructions and back (30_encoding.md R80 to R89). An item is selected by context (the
phase, the loop test, the flag bit: R88), so the decoder takes the context; it is total on every byte list and
rejects a list that is too short by the site of 60_exceptions.md R212. -/

namespace Sys2Proof

/-- What the sequencer expects next: the rows of R88 before any byte is looked at. -/
inductive Context where
  /-- Row 1: phase HEADER. -/
  | header
  /-- Row 2: phase RUN and the output full. -/
  | finish
  /-- Row 3: a control byte is due. -/
  | control
  /-- Row 4: the flag bit is 1. -/
  | literal
  /-- Rows 5 and 6: the flag bit is 0. -/
  | backRef
deriving DecidableEq, Repr

/-- Why the decoder rejects a byte list: the five sites of R212 at which a byte can be missing. -/
inductive DecodeError where
  | headerTooShort
  | controlByteMissing
  | literalMissing
  | descriptorMissing
  | extendedLengthMissing
deriving DecidableEq, Repr

/-- `b[7:4]` (R8). -/
def highNibble (b : Byte) : BitVec 4 := b.extractLsb' 4 4

/-- `b[3:0]` (R8). -/
def lowNibble (b : Byte) : BitVec 4 := b.extractLsb' 0 4

/-- `distance = cat(b0[3:0], b1)` (R55, R87, R162). -/
def distanceField (b0 b1 : Byte) : BitVec 12 := lowNibble b0 ++ b1

/-- Four bytes as one big-endian 32-bit value (R53). -/
def be32 (a b c d : Byte) : BitVec 32 := a ++ b ++ c ++ d

/-- Eight bytes as one big-endian 64-bit value (R81, field `R`). -/
def be64 (a b c d e f g h : Byte) : BitVec 64 := be32 a b c d ++ be32 e f g h

/-- F-HDR (R81). -/
def decodeHeader : List Byte → Except DecodeError (Instr × List Byte)
  | m0 :: m1 :: m2 :: m3 :: s0 :: s1 :: s2 :: s3 ::
      r0 :: r1 :: r2 :: r3 :: r4 :: r5 :: r6 :: r7 :: rest =>
    .ok (.hdr ⟨m0, m1, m2, m3⟩ (be32 s0 s1 s2 s3) (be64 r0 r1 r2 r3 r4 r5 r6 r7), rest)
  | _ => .error .headerTooShort

/-- F-BR2 and F-BR3 (R85, R86): both read `b0` and `b1`; `b0[7:4] = 0` selects the long form (R88 rows 5, 6). -/
def decodeBackRef : List Byte → Except DecodeError (Instr × List Byte)
  | b0 :: b1 :: rest =>
    if highNibble b0 = 0#4 then
      match rest with
      | b2 :: rest' => .ok (.brefLong (distanceField b0 b1) b2, rest')
      | [] => .error .extendedLengthMissing
    else .ok (.brefShort (highNibble b0) (distanceField b0 b1), rest)
  | _ => .error .descriptorMissing

/-- The decoder (R88): the instruction at the head of the bytes, and the bytes after it. -/
def decode : Context → List Byte → Except DecodeError (Instr × List Byte)
  | .header, bs => decodeHeader bs
  | .finish, bs => .ok (.endDecode, bs)
  | .control, c :: rest => .ok (.ctrl c, rest)
  | .control, [] => .error .controlByteMissing
  | .literal, l :: rest => .ok (.lit l, rest)
  | .literal, [] => .error .literalMissing
  | .backRef, bs => decodeBackRef bs

/-- The context in which an instruction is selected (R88). -/
def Instr.context : Instr → Context
  | .hdr _ _ _ => .header
  | .ctrl _ => .control
  | .lit _ => .literal
  | .brefLong _ _ => .backRef
  | .brefShort _ _ => .backRef
  | .endDecode => .finish

/-- Bytes the instruction consumes (R80, R25; `length_bytes` of the opcode table). -/
def Instr.length : Instr → Nat
  | .hdr _ _ _ => 16
  | .ctrl _ => 1
  | .lit _ => 1
  | .brefLong _ _ => 3
  | .brefShort _ _ => 2
  | .endDecode => 0

/-- The four bytes of a 32-bit field, most significant first (R53). -/
def bytes32 (v : BitVec 32) : List Byte :=
  [v.extractLsb' 24 8, v.extractLsb' 16 8, v.extractLsb' 8 8, v.extractLsb' 0 8]

/-- The eight bytes of the reserved field, most significant first (R81). -/
def bytes64 (v : BitVec 64) : List Byte :=
  bytes32 (v.extractLsb' 32 32) ++ bytes32 (v.extractLsb' 0 32)

/-- The encoder (R81 to R86; the formulas of R92 for the back-references). -/
def encode : Instr → List Byte
  | .hdr m size reserved => [m.c0, m.c1, m.c2, m.c3] ++ bytes32 size ++ bytes64 reserved
  | .ctrl c => [c]
  | .lit l => [l]
  | .brefLong d e => [0#4 ++ d.extractLsb' 8 4, d.extractLsb' 0 8, e]
  | .brefShort n d => [n ++ d.extractLsb' 8 4, d.extractLsb' 0 8]
  | .endDecode => []

/-- `bs` with zero bytes after its end, `n` bytes in all. -/
def padTo : Nat → List Byte → List Byte
  | 0, _ => []
  | n + 1, [] => 0#8 :: padTo n []
  | n + 1, b :: bs => b :: padTo n bs

/-- The longest instruction, in bytes (HDR, R80). -/
def maxInstrLength : Nat := 16

/-- The `n` bytes of a table word: the table numbers a row's bytes as one big-endian word, so the byte read first
is the most significant (opcode_table.json, notes of HDR, BREF_LONG and BREF_SHORT). notes/assumptions/12.md. -/
def tableBytes : Nat → Nat → List Byte
  | 0, _ => []
  | n + 1, w => BitVec.ofNat 8 (w >>> (8 * n)) :: tableBytes n w

/-- The context that a row's number of bits stands for. CTRL and LIT have the same 8 bits and differ in context
alone (R88 rows 3, 4); 8 bits stand for LIT. DESIGN CHOICE: notes/assumptions/12.md. -/
def tableContext (nbits : Nat) : Option Context :=
  if nbits = 0 then some .finish
  else if nbits = 8 then some .literal
  else if nbits = 16 then some .backRef
  else if nbits = 24 then some .backRef
  else if nbits = 128 then some .header
  else none

/-- The instruction the decoder reads from a word numbered as the opcode table numbers it. -/
def decodeTableWord (nbits w : Nat) : Option Instr :=
  match tableContext nbits with
  | none => none
  | some c =>
    match decode c (padTo maxInstrLength (tableBytes (nbits / 8) w)) with
    | .ok (i, _) => some i
    | .error _ => none

end Sys2Proof
end

