-- ==== Sys2Proof/Machine/State.lean ====
section
/-! DEFINITION. The state of the block (10_state.md R20 to R34), the reasons a step can stop, and the state after
reset (R33). State is plain data. -/

namespace Sys2Proof.Machine

/-- The sequencer phase (R21). -/
inductive Phase where
  | idle
  | header
  | run
  | done
  | error
deriving DecidableEq, Repr

/-- The three architected error kinds (60_exceptions.md R210). -/
inductive ErrorKind where
  | formatMismatch
  | truncatedInput
  | invalidBackReference
deriving DecidableEq, Repr

/-- Everything the machine holds. The first eight fields are the table of R20; `inp` and `cfg` are the IN space and
the configuration that the step needs (R51, R7); `draws` is the model's own. -/
structure State where
  /-- R21. -/
  phase : Phase
  /-- R22: the kind of the error that ended the decode; `none` is code 0, NONE. -/
  err : Option ErrorKind
  /-- `declared_size`, R23. -/
  declaredSize : BitVec 32
  /-- The output buffer, R24: (address, byte) pairs, addresses strictly rising; an unlisted address holds no value. -/
  out : List Host.Cell
  /-- `out_len`, R24. -/
  outLen : BitVec 32
  /-- `in_pos`, the program counter, R25. -/
  inPos : BitVec 64
  /-- `control_byte`, R26. -/
  controlByte : Byte
  /-- `bits_remaining`, R27. -/
  bitsRemaining : BitVec 4
  /-- `inp`, the container bytes of the IN space (20_memory.md R51). notes/assumptions/2.md. -/
  inp : List Byte
  /-- `MAGIC_SET`, `MAX_OUT` and the storage map (R7, R63). notes/assumptions/1.md. -/
  cfg : Config
  /-- The model's own: how many free values host reads of OUT have drawn. notes/assumptions/10.md. -/
  draws : Nat
deriving DecidableEq, Repr

/-- Where a run stops because the spec gives the access no meaning. None is raised from a state that meets
`Sys2Proof.Safety.Inv`. All are safe: the model stops where the spec says nothing. -/
inductive Fault where
  /-- `OutRead(a)` with `a ≥ out_len` or no byte written there: R10 defines it only for `a < out_len`. Raised by the
  copy engine. Safe (notes/assumptions/6.md). -/
  | readUnwritten (a : Nat)
  /-- `OutAppend` at an address outside 0 .. declared_size − 1 (R24). Raised by LIT. Safe (notes/assumptions/7.md). -/
  | appendOutsideBuffer (a : Nat)
  /-- `bits_remaining` is 9..15 at the bit select, or 0 at the decrement: values R27 and R133 never give. Raised by
  the bit select, LIT, BREF_SHORT and BREF_LONG. Safe (notes/assumptions/8.md). -/
  | bitCountOutOfRange
  /-- The decoder rejected the fetch window. Raised by the fetch alone, and never, since the window holds the longest
  instruction. Safe (notes/assumptions/5.md). -/
  | decodeRejected (e : DecodeError)
deriving DecidableEq, Repr

/-- Runs outside the modelled envelope (00_scope.md R11). -/
inductive Refusal where
  /-- Raised by an arm of `exec` that has no meaning yet; no arm is left so. Safe. -/
  | notModelled (mnemonic : String)
  /-- Raised by HDR: `declared_size > MAX_OUT` (40_header.md R117, `refuse(OutputTooLarge)`). Safe. -/
  | outputTooLarge
  /-- Raised by every step that runs an item: the platform maps IN and OUT onto overlapping storage (R63, D21). Safe. -/
  | inOutOverlap
  /-- Raised by a host move: IN altered during HEADER or RUN (R66, R246; E2). Safe. -/
  | hostAlteredIn
  /-- Raised by a host move: OUT written by the host (R66, R246; E2). Safe (notes/assumptions/13.md). -/
  | hostWroteOut
  /-- Raised by a host move: configuration changed during HEADER or RUN (R66; E4). Safe. -/
  | hostConfiguredDuringRun
  /-- Raised by a host move: the tags configured are empty or repeat, so they are no non-empty set (R7). Safe. -/
  | magicSetNotASet
deriving DecidableEq, Repr

/-- The state after reset: the column "value after reset" of R33. `inp`, `cfg` and `draws` are no part of that table
(notes/assumptions/1.md, 2.md, 9.md, 10.md). -/
def State.reset : State where
  phase := .idle
  err := none
  declaredSize := 0#32
  out := []
  outLen := 0#32
  inPos := 0#64
  controlByte := 0x00#8
  bitsRemaining := 0#4
  inp := []
  cfg := Config.default
  draws := 0

end Sys2Proof.Machine
end

