-- ==== Sys2Proof/Machine/Ops.lean ====
section
/-! DEFINITION. The primitives of 00_scope.md R10 over State, the output memory, error entry (60_exceptions.md R215)
and what leaves ERROR (70_reset_and_hazards.md R240, R241). -/

namespace Sys2Proof.Machine

/-! ### Memory: the OUT space -/

/-- The canonical form: addresses strictly rising. Every listed byte differs from an unlisted address, which holds no
value, so no entry is redundant. -/
def Memory.wf : List Host.Cell → Bool
  | [] => true
  | [_] => true
  | (a, _) :: (b, w) :: rest => decide (a < b) && Memory.wf ((b, w) :: rest)

/-- The byte at an address; an unlisted address holds no value (R24). -/
def Memory.read : List Host.Cell → Nat → Option Byte
  | [], _ => none
  | (b, v) :: rest, a => if a = b then some v else Memory.read rest a

/-- `out[a] <- v`, keeping the canonical form. -/
def Memory.write : List Host.Cell → Nat → Byte → List Host.Cell
  | [], a, v => [(a, v)]
  | (b, w) :: rest, a, v =>
    if a < b then (a, v) :: (b, w) :: rest
    else if a = b then (a, v) :: rest
    else (b, w) :: Memory.write rest a v

/-! ### Register writes -/

/-- `phase <- p` (R10). -/
def State.setPhase (s : State) (p : Phase) : State := { s with phase := p }

/-- `in_pos <- p`. -/
def State.setInPos (s : State) (p : BitVec 64) : State := { s with inPos := p }

/-- `declared_size <- n` (R113). -/
def State.setDeclaredSize (s : State) (n : BitVec 32) : State := { s with declaredSize := n }

/-- `control_byte <- c; bits_remaining <- 8` (R132). -/
def State.loadControl (s : State) (c : Byte) : State := { s with controlByte := c, bitsRemaining := 8#4 }

/-- `bits_remaining <- n`. -/
def State.setBits (s : State) (n : BitVec 4) : State := { s with bitsRemaining := n }

/-- `out[out_len] <- v; out_len <- out_len + 1`, the effect of OutAppend (R10). -/
def State.append (s : State) (v : Byte) : State :=
  { s with out := Memory.write s.out s.outLen.toNat v, outLen := s.outLen + 1#32 }

/-- TAKING AN ERROR (R215), the block's only exception: `err <- code(K); phase <- ERROR`, and nothing else. Bytes
consumed stay consumed, and nothing saves a program counter (R218). -/
def State.errorEntry (s : State) (k : ErrorKind) : State := { s with err := some k, phase := .error }

/-- START (R241): what begins a decode from IDLE, DONE or ERROR. There is no return from an error (R218): this and
reset are all that leaves ERROR. -/
def State.start (s : State) : State :=
  { s with
    inPos := 0#64, out := [], outLen := 0#32, declaredSize := 0#32,
    controlByte := 0x00#8, bitsRemaining := 0#4, err := none, phase := .header }

/-- The reset event (R240): every piece of state at its reset value. The configuration (R33), IN and the model's
counter of free values are not touched. notes/assumptions/14.md. -/
def State.resetEvent (s : State) : State :=
  { State.reset with inp := s.inp, cfg := s.cfg, draws := s.draws }

/-- BUSY (R29): phase HEADER or RUN. -/
def State.busy (s : State) : Bool := s.phase == .header || s.phase == .run

/-- The output so far as a byte sequence, in address order (R24). -/
def State.outBytes (s : State) : List Byte := s.out.map Prod.snd

/-- Bytes of IN not yet consumed. -/
def State.avail (s : State) : Nat := s.inp.length - s.inPos.toNat

/-! ### Results inside an operation -/

/-- What a piece of an operation ends in: it goes on, or it raised an error (R10 `raise`), or it has no meaning. -/
inductive Res where
  | ok (s : State)
  | raised (k : ErrorKind) (s : State)
  | fault (f : Fault)
  | refused (r : Refusal)

/-- Sequencing: "no later statement of the operation executes" after a raise (R10, R215). -/
def Res.andThen (r : Res) (f : State → Res) : Res :=
  match r with
  | .ok s => f s
  | .raised k s => .raised k s
  | .fault e => .fault e
  | .refused e => .refused e

/-- The operation's outcome as one step (R11): a raised error is a next state, that of error entry (R215). -/
def Res.outcome : Res → Host.Outcome State Fault Refusal
  | .ok s => .next s
  | .raised k s => .next (s.errorEntry k)
  | .fault e => .fault e
  | .refused e => .refused e

/-! ### IN -/

/-- `InRead1()` (R10): consume one byte, or set `in_pos <- |inp|` and raise TruncatedInput. The byte itself is the
operand the fetch decoded at the same place (`fetchWindow`). -/
def takeByte (s : State) : Res :=
  if s.inPos.toNat < s.inp.length then .ok (s.setInPos (s.inPos + 1#64))
  else .raised .truncatedInput (s.setInPos (BitVec.ofNat 64 s.inp.length))

/-- `InReadN(n)` (R10): `n` successive `InRead1()`. -/
def takeBytes : Nat → State → Res
  | 0, s => .ok s
  | n + 1, s => (takeByte s).andThen (takeBytes n)

/-- The bytes at the input cursor that the decoder looks at: as many as the longest instruction has. A byte past the
end of IN reads here as 0; the operation that needs it raises TruncatedInput before it is used.
DEDUCED: notes/assumptions/5.md. -/
def fetchWindow (s : State) : List Byte := padTo maxInstrLength (s.inp.drop s.inPos.toNat)

/-! ### OUT -/

/-- `OutRead(a)` (R10), defined only for `a < out_len`. -/
def outRead (a : Nat) (s : State) : Option Byte :=
  if a < s.outLen.toNat then Memory.read s.out a else none

/-- `OutAppend(v)` (R10): the address `out_len` must lie in the buffer, 0 .. declared_size − 1 (R24). -/
def outAppend (v : Byte) (s : State) : Res :=
  if s.outLen.toNat < s.declaredSize.toNat then .ok (s.append v)
  else .fault (.appendOutsideBuffer s.outLen.toNat)

/-- The copy engine (R166): `n` appends, one byte at a time in increasing address order, each read seeing the buffer
as the appends before it left it. -/
def copyBytes : Nat → Nat → State → Res
  | 0, _, s => .ok s
  | n + 1, a, s =>
    match outRead a s with
    | none => .fault (.readUnwritten a)
    | some v => (outAppend v s).andThen (copyBytes n (a + 1))

end Sys2Proof.Machine
end

