-- ==== Sys2Proof/Machine/Flags.lean ====
section
/-! DEFINITION. The block's one condition, the flag bit (10_state.md R28; 41_control_bit_iterator.md R133), and the
count of bits (R135). There are no other flags. -/

namespace Sys2Proof.Machine

/-- `cbit = control_byte[bits_remaining − 1]` (R28, R133); none where no bit has that number. -/
def flagBit (s : State) : Option Bool :=
  if 1 ≤ s.bitsRemaining.toNat ∧ s.bitsRemaining.toNat ≤ 8 then
    some (s.controlByte.getLsbD (s.bitsRemaining.toNat - 1))
  else none

/-- The end of a LIT or BREF that completes: `bits_remaining <- bits_remaining − 1` (R135, R27). -/
def completeOp (s : State) : Res :=
  if s.bitsRemaining = 0#4 then .fault .bitCountOutOfRange
  else .ok (s.setBits (s.bitsRemaining - 1#4))

end Sys2Proof.Machine
end

