-- ==== Sys2Proof/Machine/Operands.lean ====
section
/-! DEFINITION. The operand values of the payload (30_encoding.md R87; 43_back_reference.md R162 to R166, R174),
computed on unbounded numbers as 00_scope.md R9 says. -/

namespace Sys2Proof.Machine

/-- The backward offset `distance + 1`, 1..4096 (R87; 90_conflicts.md C1). -/
def backwardOffset (d : BitVec 12) : Nat := d.toNat + 1

/-- `copy_length` of BREF_SHORT, `N + 2` (R164). -/
def shortCopyLength (n : BitVec 4) : Nat := n.toNat + 2

/-- `copy_length` of BREF_LONG, `E + 0x12` (R165). -/
def longCopyLength (e : Byte) : Nat := e.toNat + 0x12

/-- `source_start = out_len − (distance + 1)`; none when it would be negative (R163). -/
def sourceStart (d : BitVec 12) (s : State) : Option Nat :=
  if s.outLen.toNat < backwardOffset d then none else some (s.outLen.toNat - backwardOffset d)

/-- `n = min(copy_length, declared_size − out_len)` (R166). -/
def copyCount (len : Nat) (s : State) : Nat := min len (s.declaredSize.toNat - s.outLen.toNat)

/-- The unpacker as a pure function (R174): distance, copy_length and bytes used, total on every byte triple; `b2`
takes no part in the short form. -/
def unpack (b0 b1 b2 : Byte) : BitVec 12 × Nat × Nat :=
  if highNibble b0 = 0#4 then (distanceField b0 b1, longCopyLength b2, 3)
  else (distanceField b0 b1, shortCopyLength (highNibble b0), 2)

/-- LIT and the two back-references: what a flag bit governs (R84, `op`). -/
def isPayloadOp : Instr → Bool
  | .hdr _ _ _ => false
  | .ctrl _ => false
  | .lit _ => true
  | .brefLong _ _ => true
  | .brefShort _ _ => true
  | .endDecode => false

/-- Distance and copy length of a back-reference (R87); none for another item. -/
def copyOperands : Instr → Option (BitVec 12 × Nat)
  | .hdr _ _ _ => none
  | .ctrl _ => none
  | .lit _ => none
  | .brefLong d e => some (d, longCopyLength e)
  | .brefShort n d => some (d, shortCopyLength n)
  | .endDecode => none

end Sys2Proof.Machine
end

