-- ==== Sys2Proof/Machine/BackReference.lean ====
section
/-! DEFINITION. BREF_SHORT and BREF_LONG, the back-reference unpacker (43_back_reference.md R160 to R168). -/

namespace Sys2Proof.Machine

/-- The shared steps (R160): two descriptor bytes (R161), the range check (R163), the `extra` bytes of the length
(none for the short form, `b2` for the long: R164, R165), the copy (R166), and the count of bits (R135). -/
def backReference (d : BitVec 12) (extra len : Nat) (s : State) : Res :=
  (takeBytes 2 s).andThen fun s1 =>
    match sourceStart d s1 with
    | none => .raised .invalidBackReference s1
    | some src =>
      (takeBytes extra s1).andThen fun s2 =>
        (copyBytes (copyCount len s2) src s2).andThen completeOp

/-- BREF_SHORT (R167): copy `N + 2` bytes. -/
def execBrefShort (nibble : BitVec 4) (distance : BitVec 12) (s : State) : Host.Outcome State Fault Refusal :=
  (backReference distance 0 (shortCopyLength nibble) s).outcome

/-- BREF_LONG (R168): copy `E + 18` bytes; `E` is read after the range check (D16). -/
def execBrefLong (distance : BitVec 12) (ext : Byte) (s : State) : Host.Outcome State Fault Refusal :=
  (backReference distance 1 (longCopyLength ext) s).outcome

end Sys2Proof.Machine
end

