-- ==== Sys2Proof/Machine/ControlBits.lean ====
section
/-! DEFINITION. CTRL and END (41_control_bit_iterator.md R131, R132). -/

namespace Sys2Proof.Machine

/-- CTRL (R132): one byte into `control_byte`, and `bits_remaining <- 8`; a missing byte writes neither. -/
def execCtrl (flags : Byte) (s : State) : Host.Outcome State Fault Refusal :=
  ((takeByte s).andThen fun s1 => .ok (s1.loadControl flags)).outcome

/-- END (R131): `phase <- DONE`; nothing is read. -/
def execEndDecode (s : State) : Host.Outcome State Fault Refusal := (Res.ok (s.setPhase .done)).outcome

end Sys2Proof.Machine
end

