-- ==== Sys2Proof/Machine/Header.lean ====
section
/-! DEFINITION. HDR, the header validator (40_header.md R110 to R117). -/

namespace Sys2Proof.Machine

/-- The tag must equal a member of `MAGIC_SET` byte for byte (R112). -/
def checkMagic (m : Tag) (s : State) : Res :=
  if m ∈ s.cfg.magicSet then .ok s else .raised .formatMismatch s

/-- A declared size above `MAX_OUT` is refused (R117). -/
def checkCapacity (s : State) : Res :=
  if s.cfg.maxOut < s.declaredSize then .refused .outputTooLarge else .ok s

/-- HDR (R110): tag read then compared (R111, R112), size captured (R113), reserved bytes read and discarded (R114),
capacity checked (R117), phase RUN (R115). `declared_size` is written before the reserved bytes are read: DEDUCED,
notes/assumptions/17.md. -/
def execHdr (magic : Tag) (size : BitVec 32) (_reserved : BitVec 64) (s : State) :
    Host.Outcome State Fault Refusal :=
  ((takeBytes 4 s).andThen fun s1 =>
    (checkMagic magic s1).andThen fun s2 =>
      (takeBytes 4 s2).andThen fun s3 =>
        (takeBytes 8 (s3.setDeclaredSize size)).andThen fun s4 =>
          (checkCapacity s4).andThen fun s5 => .ok (s5.setPhase .run)).outcome

end Sys2Proof.Machine
end

