-- ==== Sys2Proof/Machine/Literal.lean ====
section
/-! DEFINITION. LIT, the literal path (42_literal.md R150). -/

namespace Sys2Proof.Machine

/-- LIT (R150): read one byte, append it; then the count of bits goes down (R135). -/
def execLit (value : Byte) (s : State) : Host.Outcome State Fault Refusal :=
  ((takeByte s).andThen fun s1 => (outAppend value s1).andThen completeOp).outcome

end Sys2Proof.Machine
end

