-- ==== Sys2Proof/Machine/Dispatch.lean ====
section
/-! DEFINITION. One meaning per instruction. Which instruction runs is the sequencer's choice (30_encoding.md R88,
Machine/Iteration.lean); a meaning does not test the context again (notes/assumptions/21.md). -/

namespace Sys2Proof.Machine

def exec (i : Instr) (s : State) : Host.Outcome State Fault Refusal :=
  match i with
  | .hdr magic size reserved => Sys2Proof.Machine.execHdr magic size reserved s
  | .ctrl flags => Sys2Proof.Machine.execCtrl flags s
  | .lit value => Sys2Proof.Machine.execLit value s
  | .brefLong distance ext => Sys2Proof.Machine.execBrefLong distance ext s
  | .brefShort nibble distance => Sys2Proof.Machine.execBrefShort nibble distance s
  | .endDecode => Sys2Proof.Machine.execEndDecode s

end Sys2Proof.Machine
end

