-- ==== Sys2Proof/Machine/Iteration.lean ====
section
/-! DEFINITION. The sequencer: which item is next (30_encoding.md R88), fetching it, and one whole loop iteration as
one step (41_control_bit_iterator.md R130 to R137; 92_eei_decisions.md D25). -/

namespace Sys2Proof.Machine

/-- What the sequencer finds to do. -/
inductive Selection where
  /-- Phase IDLE, DONE or ERROR: nothing (R136). -/
  | nothing
  /-- An item of the container. -/
  | item (c : Context)
  /-- `bits_remaining` numbers no bit of the control byte (never in a run, R27). -/
  | noFlagBit
deriving DecidableEq, Repr

/-- Rows 4 to 6 of R88: the flag bit selects the operation (R134). -/
def selectOp (s : State) : Selection :=
  match flagBit s with
  | some true => .item .literal
  | some false => .item .backRef
  | none => .noFlagBit

/-- The rows of R88 in their order; the loop test (R130) comes before anything is read. -/
def select (s : State) : Selection :=
  match s.phase with
  | .idle => .nothing
  | .header => .item .header
  | .run =>
    if s.outLen = s.declaredSize then .item .finish
    else if s.bitsRemaining = 0#4 then .item .control
    else selectOp s
  | .done => .nothing
  | .error => .nothing

/-- Decode the bytes at the input cursor in a context and run the instruction. -/
def execFetched (c : Context) (s : State) : Host.Outcome State Fault Refusal :=
  match decode c (fetchWindow s) with
  | .ok (i, _) => exec i s
  | .error e => .fault (.decodeRejected e)

/-- Rows 4 to 6 of R88 in the iteration of R137. -/
def runOp (s : State) : Host.Outcome State Fault Refusal :=
  match selectOp s with
  | .item c => execFetched c s
  | .nothing => .next s
  | .noFlagBit => .fault .bitCountOutOfRange

/-- After CTRL the same iteration goes on with its operation (R88 row 3, R137), unless CTRL raised an error (R215). -/
def continueIteration : Host.Outcome State Fault Refusal → Host.Outcome State Fault Refusal
  | .next t => if t.phase = .error then .next t else runOp t
  | .fault f => .fault f
  | .refused r => .refused r

/-- Run the selected item: HDR, END or an operation is the whole step; CTRL is followed by its operation (D25). -/
def runItem (c : Context) (s : State) : Host.Outcome State Fault Refusal :=
  match c with
  | .control => continueIteration (execFetched .control s)
  | .header => execFetched .header s
  | .finish => execFetched .finish s
  | .literal => execFetched .literal s
  | .backRef => execFetched .backRef s

/-- One step of the block. In IDLE, DONE and ERROR the state is kept as it is (R136, R225; DEDUCED,
notes/assumptions/3.md). A platform whose IN and OUT overlap is refused (R63, notes/assumptions/9.md). -/
def blockStep (s : State) : Host.Outcome State Fault Refusal :=
  match select s with
  | .nothing => .next s
  | .noFlagBit => .fault .bitCountOutOfRange
  | .item c => if s.cfg.inOutOverlap then .refused .inOutOverlap else runItem c s

/-- `bs` written over IN from offset `p` on; IN is lengthened with zero bytes where it is shorter. -/
def overwriteIn (inp : List Byte) (p : Nat) (bs : List Byte) : List Byte :=
  padTo p inp ++ bs ++ inp.drop (p + bs.length)

/-- Make the sequencer select a context, changing no more than that takes (R88). -/
def selecting (c : Context) (s : State) : State :=
  let room : BitVec 32 := if s.outLen < s.declaredSize then s.declaredSize else 0xFFFFFFFF#32
  match c with
  | .header => { s with phase := .header }
  | .finish => { s with phase := .run, declaredSize := s.outLen }
  | .control => { s with phase := .run, declaredSize := room, bitsRemaining := 0#4 }
  | .literal => { s with phase := .run, declaredSize := room, bitsRemaining := 8#4, controlByte := 0x80#8 }
  | .backRef => { s with phase := .run, declaredSize := room, bitsRemaining := 8#4, controlByte := 0x00#8 }

/-- The word of an opcode-table row placed at the input cursor, in the context its number of bits stands for. It
stands for a host that presents a container and starts a decode (notes/assumptions/11.md, 12.md). -/
def placeWord (s : State) (nbits w : Nat) : State :=
  match tableContext nbits with
  | none => s
  | some c =>
    { selecting c s with
      inp := overwriteIn s.inp s.inPos.toNat (padTo maxInstrLength (tableBytes (nbits / 8) w)),
      cfg := { s.cfg with inOutOverlap := false } }

end Sys2Proof.Machine
end

