-- ==== Sys2Proof/Machine/Step.lean ====
section
/-! DEFINITION. The step of the machine (00_scope.md R11; 92_eei_decisions.md D25). -/

namespace Sys2Proof.Machine

/-- One step: HDR whole, or END, or one whole loop iteration. -/
def step (s : State) : Host.Outcome State Fault Refusal := blockStep s

/-- `s` with an instruction placed so that the very next step fetches and runs it. -/
def State.withFetchWord (s : State) (nbits w : Nat) : State := placeWord s nbits w

end Sys2Proof.Machine
end

