-- ==== Sys2Proof/Machine/Reference.lean ====
section
/-! DEFINITION. The whole-decode reference function of 44_reference_decoder.md R200, over lists and numbers, written
from its own pseudocode and apart from the step machine. R203 says that the two agree. -/

namespace Sys2Proof.Machine

/-- What a decode returns (R200). -/
inductive DecodeResult where
  | ok (out : List Byte) (inPos : Nat)
  | err (k : ErrorKind) (inPos : Nat)
  | refused
deriving DecidableEq, Repr

/-- `for i in 0 .. n-1: OutAppend(OutRead(src + i))` (R166, R200). -/
def refCopy : Nat → Nat → List Byte → List Byte
  | 0, _, out => out
  | n + 1, src, out =>
    match out[src]? with
    | some v => refCopy n (src + 1) (out ++ [v])
    | none => out

/-- The two branches of the loop body (R200): the cursor and the output they leave, or the error. -/
def refOp (inp : List Byte) (size pos : Nat) (out : List Byte) (flag : Bool) :
    Except (ErrorKind × Nat) (Nat × List Byte) :=
  if flag then
    match inp[pos]? with
    | some l => .ok (pos + 1, out ++ [l])
    | none => .error (.truncatedInput, inp.length)
  else
    match inp[pos]?, inp[pos + 1]? with
    | some b0, some b1 =>
      let distance := ((b0.toNat &&& 0x0F) <<< 8) ||| b1.toNat
      if out.length < distance + 1 then .error (.invalidBackReference, pos + 2)
      else if b0.toNat >>> 4 ≠ 0 then
        let copyLength := (b0.toNat >>> 4) + 2
        .ok (pos + 2, refCopy (min copyLength (size - out.length)) (out.length - (distance + 1)) out)
      else
        match inp[pos + 2]? with
        | some b2 =>
          let copyLength := b2.toNat + 0x12
          .ok (pos + 3, refCopy (min copyLength (size - out.length)) (out.length - (distance + 1)) out)
        | none => .error (.truncatedInput, inp.length)
    | _, _ => .error (.truncatedInput, inp.length)

/-- `while out_len != declared_size` (R200). The first argument bounds the iterations (R138): each appends a byte. -/
def refLoop (inp : List Byte) (size : Nat) : Nat → Nat → List Byte → Byte → Nat → DecodeResult
  | 0, pos, out, _, _ => .ok out pos
  | fuel + 1, pos, out, cb, br =>
    if out.length = size then .ok out pos
    else if br = 0 then
      match inp[pos]? with
      | none => .err .truncatedInput inp.length
      | some c =>
        match refOp inp size (pos + 1) out (c.getLsbD 7) with
        | .ok (pos', out') => refLoop inp size fuel pos' out' c 7
        | .error (k, p) => .err k p
    else
      match refOp inp size pos out (cb.getLsbD (br - 1)) with
      | .ok (pos', out') => refLoop inp size fuel pos' out' cb (br - 1)
      | .error (k, p) => .err k p

/-- `decode(inp, MAGIC_SET, MAX_OUT)` (R200). -/
def refDecode (magicSet : List Tag) (maxOut : Nat) (inp : List Byte) : DecodeResult :=
  match inp with
  | m0 :: m1 :: m2 :: m3 :: rest =>
    if (⟨m0, m1, m2, m3⟩ : Tag) ∈ magicSet then
      match rest with
      | s0 :: s1 :: s2 :: s3 :: _ :: _ :: _ :: _ :: _ :: _ :: _ :: _ :: _ =>
        let size := (s0.toNat <<< 24) ||| (s1.toNat <<< 16) ||| (s2.toNat <<< 8) ||| s3.toNat
        if size > maxOut then .refused else refLoop inp size size 16 [] 0x00#8 0
      | _ => .err .truncatedInput inp.length
    else .err .formatMismatch 4
  | _ => .err .truncatedInput inp.length

end Sys2Proof.Machine
end

