-- ==== Sys2Proof/Machine/Assembler.lean ====
section
/-! DEFINITION. The assembler of 30_encoding.md R92 and R93 over lines as data, the payload grammar of R84, and the
plaintext a list of operations stands for. The spelling of the lines is not modelled (notes/assumptions/23.md). -/

namespace Sys2Proof.Machine

/-- `HDR "<4 chars>", <size>`: reserved bytes 0 (R92). -/
def asmHdr (tag : Tag) (size : BitVec 32) : Instr := .hdr tag size 0#64

/-- `BREF d=<d>, n=<n>` (R93): BREF.S for 3 ≤ n ≤ 17, BREF.L for 18 ≤ n ≤ 273, else an assembly error. -/
def asmBref (d n : Nat) : Option Instr :=
  if 4095 < d then none
  else if 3 ≤ n ∧ n ≤ 17 then some (.brefShort (BitVec.ofNat 4 (n - 2)) (BitVec.ofNat 12 d))
  else if 18 ≤ n ∧ n ≤ 273 then some (.brefLong (BitVec.ofNat 12 d) (BitVec.ofNat 8 (n - 18)))
  else none

/-- `COPY back=<k>, n=<n>` with k in 1..4096 is `BREF d=k−1, n=n` (R93). -/
def asmCopy (k n : Nat) : Option Instr := if 1 ≤ k ∧ k ≤ 4096 then asmBref (k - 1) n else none

/-- LIT, whose flag bit is 1 (R82). -/
def isLit : Instr → Bool
  | .hdr _ _ _ => false
  | .ctrl _ => false
  | .lit _ => true
  | .brefLong _ _ => false
  | .brefShort _ _ => false
  | .endDecode => false

/-- Flag bits `k − 1` down to 0 for a run of operations, the first highest; bits past the last operation are 0. -/
def flagsFrom : Nat → List Instr → Byte
  | 0, _ => 0#8
  | _ + 1, [] => 0#8
  | k + 1, op :: ops => (if isLit op then BitVec.ofNat 8 (2 ^ k) else 0#8) ||| flagsFrom k ops

/-- The control byte of a run of up to 8 operations (R82, R93). -/
def controlFor (ops : List Instr) : Byte := flagsFrom 8 ops

/-- Groups of up to 8 operations, each after its control byte (R84); `fuel` bounds the number of groups. -/
def asmGroups : Nat → List Instr → List Byte
  | 0, _ => []
  | _ + 1, [] => []
  | fuel + 1, op :: ops =>
    let group := (op :: ops).take 8
    controlFor group :: (group.flatMap encode ++ asmGroups fuel ((op :: ops).drop 8))

/-- `.ops` (R93): the payload bytes of a list of operations. -/
def asmOps (ops : List Instr) : List Byte := asmGroups ops.length ops

/-- A line of the assembler (R92, R93). -/
inductive AsmLine where
  /-- `HDR "<4 chars>", <size>`. -/
  | hdr (tag : Tag) (size : BitVec 32)
  /-- `HDR "<4 chars>", <size>, R=<16 hex digits>`. -/
  | hdrReserved (tag : Tag) (size : BitVec 32) (reserved : BitVec 64)
  /-- `CTRL 0b<8 bits>`. -/
  | ctrl (flags : Byte)
  /-- `LIT 0x<hh>`. -/
  | lit (value : Byte)
  /-- `BREF.S d=<d>, n=<n>`. -/
  | brefS (d n : Nat)
  /-- `BREF.L d=<d>, n=<n>`. -/
  | brefL (d n : Nat)
  /-- `.byte 0x<hh> ...`. -/
  | bytes (bs : List Byte)
  /-- `BREF d=<d>, n=<n>`. -/
  | bref (d n : Nat)
  /-- `COPY back=<k>, n=<n>`. -/
  | copy (back n : Nat)
  /-- `.ops`. -/
  | ops
deriving DecidableEq, Repr

/-- LIT and the lines that stand for a back-reference: those a `.ops` region is made of. -/
def AsmLine.isOp : AsmLine → Bool
  | .hdr _ _ => false
  | .hdrReserved _ _ _ => false
  | .ctrl _ => false
  | .lit _ => true
  | .brefS _ _ => true
  | .brefL _ _ => true
  | .bytes _ => false
  | .bref _ _ => true
  | .copy _ _ => true
  | .ops => false

/-- The item a line stands for; none for an operand out of its range (an assembly error), `.byte` and `.ops`. -/
def AsmLine.item : AsmLine → Option Instr
  | .hdr tag size => some (asmHdr tag size)
  | .hdrReserved tag size reserved => some (.hdr tag size reserved)
  | .ctrl flags => some (.ctrl flags)
  | .lit value => some (.lit value)
  | .brefS d n => if n ≤ 17 then asmBref d n else none
  | .brefL d n => if 18 ≤ n then asmBref d n else none
  | .bytes _ => none
  | .bref d n => asmBref d n
  | .copy back n => asmCopy back n
  | .ops => none

/-- The bytes of a line outside a `.ops` region. -/
def AsmLine.code : AsmLine → Option (List Byte)
  | .bytes bs => some bs
  | .ops => some []
  | .hdr tag size => (AsmLine.hdr tag size).item.map encode
  | .hdrReserved tag size reserved => (AsmLine.hdrReserved tag size reserved).item.map encode
  | .ctrl flags => (AsmLine.ctrl flags).item.map encode
  | .lit value => (AsmLine.lit value).item.map encode
  | .brefS d n => (AsmLine.brefS d n).item.map encode
  | .brefL d n => (AsmLine.brefL d n).item.map encode
  | .bref d n => (AsmLine.bref d n).item.map encode
  | .copy back n => (AsmLine.copy back n).item.map encode

/-- One list of bytes after another, an assembly error in either one of the whole. -/
def joinCode (a b : Option (List Byte)) : Option (List Byte) :=
  match a, b with
  | some x, some y => some (x ++ y)
  | _, _ => none

/-- The bytes of a listing. `region` holds the operations of the `.ops` region read so far, none outside one. A region
goes up to the first line that is no operation. -/
def assemble : Option (List Instr) → List AsmLine → Option (List Byte)
  | none, [] => some []
  | some ops, [] => some (asmOps ops)
  | none, line :: lines =>
    joinCode line.code (assemble (if line = .ops then some [] else none) lines)
  | some ops, line :: lines =>
    if line.isOp then
      match line.item with
      | some op => assemble (some (ops ++ [op])) lines
      | none => none
    else joinCode (some (asmOps ops)) (joinCode line.code (assemble (if line = .ops then some [] else none) lines))

/-- The plaintext after one operation, none where a back-reference starts before the output (R150, R160). -/
def expandOp (out : List Byte) (op : Instr) : Option (List Byte) :=
  match op with
  | .lit v => some (out ++ [v])
  | .brefLong d e =>
    if out.length < backwardOffset d then none
    else some (refCopy (longCopyLength e) (out.length - backwardOffset d) out)
  | .brefShort n d =>
    if out.length < backwardOffset d then none
    else some (refCopy (shortCopyLength n) (out.length - backwardOffset d) out)
  | .hdr _ _ _ => none
  | .ctrl _ => none
  | .endDecode => none

/-- The plaintext a list of operations stands for. -/
def expandOps : List Byte → List Instr → Option (List Byte)
  | out, [] => some out
  | out, op :: ops =>
    match expandOp out op with
    | some out' => expandOps out' ops
    | none => none

end Sys2Proof.Machine
end

