-- ==== Sys2Proof/Machine/RegPort.lean ====
section
/-! DEFINITION. The host's side of the block (20_memory.md R65, R66): the six registers of 10_state.md R29, START
(70_reset_and_hazards.md R241, R242), reset (R240), presenting IN, configuring, and reading OUT. These are moves of
the host between steps, not instructions (notes/assumptions/11.md). -/

namespace Sys2Proof.Machine

/-- STATUS.PHASE (R21). -/
def Phase.code : Phase → BitVec 3
  | .idle => 0#3
  | .header => 1#3
  | .run => 2#3
  | .done => 3#3
  | .error => 4#3

/-- The error codes (R210, D8). -/
def ErrorKind.code : ErrorKind → BitVec 2
  | .formatMismatch => 1#2
  | .truncatedInput => 2#2
  | .invalidBackReference => 3#2

/-- STATUS.ERR (R22). -/
def errCode : Option ErrorKind → BitVec 2
  | none => 0#2
  | some k => k.code

/-- STATUS (R29): reserved 31:6, ERR 5:4, BUSY 3, PHASE 2:0. -/
def statusWord (s : State) : BitVec 32 :=
  0#26 ++ errCode s.err ++ BitVec.ofBool s.busy ++ s.phase.code

/-- A register read by index (R29); no side effect (R57). -/
def readReg (idx : BitVec 3) (s : State) : BitVec 32 :=
  match idx.toNat with
  | 0 => 0#32
  | 1 => statusWord s
  | 2 => s.declaredSize
  | 3 => s.outLen
  | 4 => s.inPos.extractLsb' 0 32
  | 5 => s.inPos.extractLsb' 32 32
  | _ => 0#32

/-- A register write by index (R29): only CTRL.START is writable, and it starts a decode unless the block is busy
(R241, R242). -/
def writeReg (idx : BitVec 3) (v : BitVec 32) (s : State) : State :=
  if idx = 0#3 ∧ v.getLsbD 0 = true ∧ s.busy = false then s.start else s

/-- The host presents a container in IN; refused during HEADER and RUN (R66, R246; E2). -/
def presentInput (bs : List Byte) (s : State) : Host.Outcome State Fault Refusal :=
  if s.busy then .refused .hostAlteredIn else .next { s with inp := bs }

/-- The host sets `MAGIC_SET` and `MAX_OUT`; refused during HEADER and RUN (R66; E4), and where the tags are no
non-empty set (R7). The storage map is the platform's and stays. -/
def configure (tags : List Tag) (maxOut : BitVec 32) (s : State) : Host.Outcome State Fault Refusal :=
  let c : Config := { s.cfg with magicSet := tags, maxOut := maxOut }
  if s.busy then .refused .hostConfiguredDuringRun
  else if c.wf then .next { s with cfg := c }
  else .refused .magicSetNotASet

/-- The host reads OUT: the result byte in DONE (R61); anywhere else a free value (R61, R216; I6, I10, E1), a fresh
one at every read. notes/assumptions/10.md. -/
def hostReadOut (a : BitVec 32) (s : State) : Byte × State :=
  match s.phase, outRead a.toNat s with
  | .done, some v => (v, s)
  | _, _ => (Config.freeOutByte s.draws, { s with draws := s.draws + 1 })

/-- What the host can do between two steps (R66). -/
inductive HostMove where
  /-- Asserting `reset` (R240). -/
  | resetPin
  /-- A register write (R29). -/
  | regWrite (idx : BitVec 3) (v : BitVec 32)
  /-- A register read (R29). -/
  | regRead (idx : BitVec 3)
  /-- Presenting a container (R66, row "start"). -/
  | present (bs : List Byte)
  /-- Setting `MAGIC_SET` and `MAX_OUT` (R66, row "configure"). -/
  | config (tags : List Tag) (maxOut : BitVec 32)
  /-- Reading OUT (R61). -/
  | outRead (a : BitVec 32)
  /-- Writing OUT, which R66 gives the host no right to (E2). -/
  | outWrite (a : BitVec 32) (v : Byte)
deriving DecidableEq, Repr

/-- The state a host move leaves, or its refusal. -/
def hostMove (m : HostMove) (s : State) : Host.Outcome State Fault Refusal :=
  match m with
  | .resetPin => .next s.resetEvent
  | .regWrite idx v => .next (writeReg idx v s)
  | .regRead _ => .next s
  | .present bs => presentInput bs s
  | .config tags maxOut => configure tags maxOut s
  | .outRead a => .next (hostReadOut a s).2
  | .outWrite _ _ => .refused .hostWroteOut

end Sys2Proof.Machine
end

