-- ==== Sys2Proof/Safety.lean ====
section
/-! DEFINITION. What a safe state is: the invariants the spec gives (10_state.md R22, R24, R25, R27, R34;
41_control_bit_iterator.md R131), and the shapes the statements use. -/

namespace Sys2Proof.Safety

open Sys2Proof.Machine

/-- Exactly the addresses 0 .. out_len − 1 hold a byte (R24). -/
def OutDense (s : State) : Prop := s.out.map Prod.fst = List.range s.outLen.toNat

/-- The state is that after reset in the fields of R33. -/
def AtReset (s : State) : Prop :=
  s.declaredSize = 0#32 ∧ s.out = [] ∧ s.outLen = 0#32 ∧ s.inPos = 0#64 ∧ s.controlByte = 0#8 ∧ s.bitsRemaining = 0#4

/-- The invariant. It holds at reset, and every step and every host move keeps it. -/
structure Inv (s : State) : Prop where
  /-- R24, R34: the bytes below `out_len` are written, and no others. -/
  outDense : OutDense s
  /-- R24: `out_len ≤ declared_size`. -/
  outLenLe : s.outLen.toNat ≤ s.declaredSize.toNat
  /-- R22: `err` is nonzero exactly in ERROR. -/
  errIff : s.err.isSome = true ↔ s.phase = .error
  /-- R33: IDLE has the reset values, and HEADER the values START leaves. -/
  atStart : s.phase = .idle ∨ s.phase = .header → AtReset s
  /-- R27, R34: `bits_remaining` is 0..8. -/
  bitsLe : s.bitsRemaining.toNat ≤ 8
  /-- R131: between iterations, and in DONE, it is 0..7. -/
  bitsLt : s.phase = .run ∨ s.phase = .done → s.bitsRemaining.toNat ≤ 7
  /-- R34: `in_pos ≥ 16` in RUN. -/
  pastHeader : s.phase = .run → 16 ≤ s.inPos.toNat
  /-- R51: in RUN no more bytes are consumed than IN has. -/
  inPosLe : s.phase = .run → s.inPos.toNat ≤ s.inp.length
  /-- R25: at most 3 bytes per appended byte, and one control byte per 8 operations. -/
  consumed : s.phase = .run → 8 * s.inPos.toNat ≤ 128 + 25 * s.outLen.toNat + s.bitsRemaining.toNat
  /-- R25: `in_pos < 2^34`. -/
  inPosBound : s.inPos.toNat < 2 ^ 34
  /-- R117: a decode that runs has a size the buffer holds. -/
  fits : s.phase = .run → s.declaredSize.toNat ≤ s.cfg.maxOut.toNat
  /-- R21: DONE means the output is full. -/
  full : s.phase = .done → s.outLen = s.declaredSize
  /-- R7: `MAGIC_SET` is a non-empty set. -/
  cfgWf : s.cfg.wf

/-- What a back-reference that completes leaves (43_back_reference.md R166, R170): `used` descriptor bytes consumed, one
flag bit used, `n = min(copy_length, declared_size − out_len)` bytes appended, byte `i` of them the old byte at
`out_len − p + (i mod p)` with `p = distance + 1`; every other byte and every other register as before. -/
structure CopyResult (d : BitVec 12) (len used : Nat) (s t : State) : Prop where
  phase : t.phase = s.phase
  err : t.err = s.err
  declaredSize : t.declaredSize = s.declaredSize
  controlByte : t.controlByte = s.controlByte
  inp : t.inp = s.inp
  cfg : t.cfg = s.cfg
  draws : t.draws = s.draws
  inPos : t.inPos = s.inPos + BitVec.ofNat 64 used
  bits : t.bitsRemaining = s.bitsRemaining - 1#4
  outLen : t.outLen.toNat = s.outLen.toNat + copyCount len s
  copied : ∀ i < copyCount len s, Memory.read t.out (s.outLen.toNat + i) =
    Memory.read s.out (s.outLen.toNat - backwardOffset d + i % backwardOffset d)
  kept : ∀ a, a < s.outLen.toNat ∨ s.outLen.toNat + copyCount len s ≤ a → Memory.read t.out a = Memory.read s.out a

/-- The bytes at the input cursor, as many as IN still has. -/
def rest (s : State) : List Byte := s.inp.drop s.inPos.toNat

/-- What a LIT or a back-reference may change (R215, R135, R166): one that completes appends `n` bytes at `out_len` and
uses a flag bit; one that raises an error appends nothing and uses none. The cursor may move. -/
def OpFrame (n : Nat) (s t : State) : Prop :=
  t.declaredSize = s.declaredSize ∧ t.controlByte = s.controlByte ∧ t.inp = s.inp ∧ t.cfg = s.cfg ∧ t.draws = s.draws ∧
    ((t.phase = s.phase ∧ t.err = s.err ∧ t.bitsRemaining = s.bitsRemaining - 1#4 ∧
        t.outLen.toNat = s.outLen.toNat + n ∧
        ∀ a, a < s.outLen.toNat ∨ s.outLen.toNat + n ≤ a → Memory.read t.out a = Memory.read s.out a) ∨
      (t.phase = .error ∧ t.err.isSome = true ∧ t.bitsRemaining = s.bitsRemaining ∧ t.outLen = s.outLen ∧
        ∀ a, Memory.read t.out a = Memory.read s.out a))

/-- What HDR, CTRL and END leave alone: nothing is stored (R50, R110, R131, R132). -/
def NoStore (s t : State) : Prop :=
  t.outLen = s.outLen ∧ t.inp = s.inp ∧ t.cfg = s.cfg ∧ t.draws = s.draws ∧
    ∀ a, Memory.read t.out a = Memory.read s.out a

/-- Two outcomes that differ in the model's own counter of free values at most. -/
def SameUpToDraws : Host.Outcome State Fault Refusal → Host.Outcome State Fault Refusal → Prop
  | .next t1, .next t2 => { t1 with draws := 0 } = { t2 with draws := 0 }
  | .fault f1, .fault f2 => f1 = f2
  | .refused r1, .refused r2 => r1 = r2
  | .next _, .fault _ => False
  | .next _, .refused _ => False
  | .fault _, .next _ => False
  | .fault _, .refused _ => False
  | .refused _, .next _ => False
  | .refused _, .fault _ => False

/-- How many of the next `k` steps begin with CTRL (R138). -/
def controlReads : Nat → State → Nat
  | 0, _ => 0
  | k + 1, s =>
    match step s with
    | .next t => (if select s = .item .control then 1 else 0) + controlReads k t
    | .fault _ => 0
    | .refused _ => 0

end Sys2Proof.Safety
end

