-- ==== Sys2Proof/Certificates/Slice0/Obligations.lean ====
section
/-! DEFINITION. The statements for the provers, from the numbered rules of spec/. Premises are on states and operands
alone; `s.avail` is the number of bytes of IN not yet consumed, `rest s` those bytes. -/

open Sys2Proof Sys2Proof.Machine Sys2Proof.Safety

/-! ### Reset, START and the host's side -/

/-- R33: the values after reset and after START; the configuration is not changed; CTRL.START reads 0. -/
def Obligations.ResetAndStartValues : Prop :=
  ∀ s : State,
    (s.resetEvent.phase = .idle ∧ s.resetEvent.err = none ∧ s.resetEvent.declaredSize = 0#32 ∧ s.resetEvent.out = [] ∧
      s.resetEvent.outLen = 0#32 ∧ s.resetEvent.inPos = 0#64 ∧ s.resetEvent.controlByte = 0x00#8 ∧
      s.resetEvent.bitsRemaining = 0#4 ∧ s.resetEvent.cfg = s.cfg ∧ readReg 0#3 s.resetEvent = 0#32) ∧
    (s.start.phase = .header ∧ s.start.err = none ∧ s.start.declaredSize = 0#32 ∧ s.start.out = [] ∧
      s.start.outLen = 0#32 ∧ s.start.inPos = 0#64 ∧ s.start.controlByte = 0x00#8 ∧
      s.start.bitsRemaining = 0#4 ∧ s.start.cfg = s.cfg ∧ readReg 0#3 s.start = 0#32) ∧
    (State.reset.phase = .idle ∧ State.reset.err = none ∧ AtReset State.reset)

/-- R240, D10: reset abandons a decode in any phase with no error recorded; the block then does nothing (the model's
reading of "takes no step" as keeping the state is notes/assumptions/3.md); reset then START is START alone. -/
def Obligations.ResetAbandonsDecode : Prop :=
  ∀ s : State, hostMove .resetPin s = .next s.resetEvent ∧ s.resetEvent.err = none ∧
    step s.resetEvent = .next s.resetEvent ∧ s.resetEvent.start = s.start

/-- R241: a write of 1 to CTRL.START in IDLE, DONE or ERROR begins a decode, and the next step is HDR. -/
def Obligations.StartWriteBeginsDecode : Prop :=
  ∀ (s : State) (v : BitVec 32), v.getLsbD 0 = true → (s.phase = .idle ∨ s.phase = .done ∨ s.phase = .error) →
    writeReg 0#3 v s =
      { s with inPos := 0#64, out := [], outLen := 0#32, declaredSize := 0#32, controlByte := 0x00#8,
               bitsRemaining := 0#4, err := none, phase := .header } ∧
    select (writeReg 0#3 v s) = .item .header

/-- R242: a write of 1 to CTRL.START in HEADER or RUN, and a write of 0 in any phase, changes nothing. -/
def Obligations.StartIgnoredWhileBusyOrZero : Prop :=
  ∀ (s : State) (v : BitVec 32), (s.phase = .header ∨ s.phase = .run) ∨ v.getLsbD 0 = false → writeReg 0#3 v s = s

/-- R29: the six registers field by field, what is reserved, what a write does, and every reset value. -/
def Obligations.RegisterMap : Prop :=
  (∀ s : State,
    readReg 0#3 s = 0#32 ∧
    (readReg 1#3 s).extractLsb' 0 3 = s.phase.code ∧
    ((readReg 1#3 s).getLsbD 3 = true ↔ s.phase = .header ∨ s.phase = .run) ∧
    (readReg 1#3 s).extractLsb' 4 2 = errCode s.err ∧
    (readReg 1#3 s).extractLsb' 6 26 = 0#26 ∧
    readReg 2#3 s = s.declaredSize ∧ readReg 3#3 s = s.outLen ∧
    readReg 4#3 s = s.inPos.extractLsb' 0 32 ∧ readReg 5#3 s = s.inPos.extractLsb' 32 32 ∧
    readReg 6#3 s = 0#32 ∧ readReg 7#3 s = 0#32 ∧
    (∀ idx v, idx ≠ 0#3 → writeReg idx v s = s) ∧
    (∀ v, v.getLsbD 0 = true → s.busy = false → writeReg 0#3 v s = s.start) ∧
    (∀ v, v.getLsbD 0 = true → s.busy = true → writeReg 0#3 v s = s) ∧
    (∀ v, v.getLsbD 0 = false → writeReg 0#3 v s = s) ∧
    (∀ idx c b, readReg idx { s with controlByte := c, bitsRemaining := b } = readReg idx s)) ∧
  (∀ idx, readReg idx State.reset = 0#32) ∧
  Phase.idle.code = 0#3 ∧ Phase.header.code = 1#3 ∧ Phase.run.code = 2#3 ∧ Phase.done.code = 3#3 ∧
  Phase.error.code = 4#3

/-- R136, R225: in IDLE, DONE and ERROR all state is retained. That a step there answers the same state is the model's
reading (notes/assumptions/3.md). -/
def Obligations.IdlePhasesRetainState : Prop :=
  ∀ s : State, s.phase = .idle ∨ s.phase = .done ∨ s.phase = .error → step s = .next s

/-- R66, R246 (E2, E4): during HEADER and RUN the host can neither alter IN, nor configure, nor write OUT; register
reads and writes leave the decode as it is. The refusals' names are the model's (notes/assumptions/13.md). -/
def Obligations.HostCannotDisturbDecode : Prop :=
  ∀ s : State, s.phase = .header ∨ s.phase = .run →
    (∀ bs, hostMove (.present bs) s = .refused .hostAlteredIn) ∧
    (∀ tags n, hostMove (.config tags n) s = .refused .hostConfiguredDuringRun) ∧
    (∀ a v, hostMove (.outWrite a v) s = .refused .hostWroteOut) ∧
    (∀ idx v, hostMove (.regWrite idx v) s = .next s) ∧
    (∀ idx, hostMove (.regRead idx) s = .next s)

/-- R61: a step that reaches DONE leaves every byte 0 .. declared_size − 1 written, and the host reads those bytes. -/
def Obligations.ResultCompleteAtDone : Prop :=
  ∀ s t : State, Inv s → step s = .next t → t.phase = .done →
    ∀ a : BitVec 32, a.toNat < t.declaredSize.toNat →
      ∃ v, Memory.read t.out a.toNat = some v ∧ hostReadOut a t = (v, t)

/-- R216, D11: in ERROR nothing the host can read depends on the contents of OUT. -/
def Obligations.ErrorOutputUnobservable : Prop :=
  ∀ (s : State) (out : List Host.Cell), s.phase = .error →
    (∀ a, (hostReadOut a { s with out := out }).1 = (hostReadOut a s).1) ∧
    (∀ idx, readReg idx { s with out := out } = readReg idx s)

/-! ### Encoding -/

/-- R81 to R86: decoding an encoded well-formed instruction, in its context and with any bytes after it, gives it back
and leaves those bytes. -/
def Obligations.DecodeOfEncode : Prop :=
  ∀ (i : Instr) (more : List Byte), i.wf = true → decode i.context (encode i ++ more) = .ok (i, more)

/-- R88, R89: what the decoder accepts is a well-formed instruction of the context asked for, and its encoding is
exactly the bytes consumed. -/
def Obligations.EncodeOfDecode : Prop :=
  ∀ (c : Context) (bs more : List Byte) (i : Instr), decode c bs = .ok (i, more) →
    i.wf = true ∧ i.context = c ∧ bs = encode i ++ more ∧ (encode i).length = i.length

/-- R81 to R86, R92: words written out from the formats decode to the instructions they stand for. -/
def Obligations.WordsDecode : Prop :=
  decode .header [0x59#8, 0x61#8, 0x7A#8, 0x30#8, 0x00#8, 0x00#8, 0x01#8, 0x2D#8, 0#8, 0#8, 0#8, 0#8, 0#8, 0#8, 0#8, 0#8] =
    .ok (.hdr Tag.yaz0 301#32 0#64, []) ∧
  decode .control [0xA5#8] = .ok (.ctrl 0b10100101#8, []) ∧
  decode .literal [0x41#8] = .ok (.lit 0x41#8, []) ∧
  decode .backRef [0xAB#8, 0xCD#8] = .ok (.brefShort 0xA#4 0xBCD#12, []) ∧
  decode .backRef [0x0F#8, 0xFE#8, 0x08#8] = .ok (.brefLong 0xFFE#12 0x08#8, []) ∧
  decode .finish [] = .ok (.endDecode, [])

/-- R89, R90: the decoder rejects a byte list only for being too short, and how short is known after the first byte;
no payload byte pattern is illegal. -/
def Obligations.OnlyShortInputIsRejected : Prop :=
  ∀ (c : Context) (bs : List Byte), (∃ e, decode c bs = .error e) ↔
    (match c with
      | .header => bs.length < 16
      | .finish => False
      | .control => bs.length < 1
      | .literal => bs.length < 1
      | .backRef => bs.length < 2 ∨ (bs.length < 3 ∧ ∀ b0 ∈ bs.head?, b0 &&& 0xF0#8 = 0#8))

/-- R174: the unpacker is a total function of the three bytes, its distance is the 12-bit field of R162, its length
that of R164 and R165, and the decoder reads exactly what it says and as many bytes. -/
def Obligations.UnpackAgreesWithDecoder : Prop :=
  ∀ (b0 b1 b2 : Byte) (more : List Byte),
    (unpack b0 b1 b2).1.toNat = ((b0.toNat &&& 0x0F) <<< 8) ||| b1.toNat ∧
    (b0.toNat >>> 4 ≠ 0 → (unpack b0 b1 b2).2 = ((b0.toNat >>> 4) + 2, 2)) ∧
    (b0.toNat >>> 4 = 0 → (unpack b0 b1 b2).2 = (b2.toNat + 18, 3)) ∧
    ∃ i, decode .backRef (b0 :: b1 :: b2 :: more) = .ok (i, (b0 :: b1 :: b2 :: more).drop (unpack b0 b1 b2).2.2) ∧
      i.length = (unpack b0 b1 b2).2.2 ∧
      copyOperands i = some ((unpack b0 b1 b2).1, (unpack b0 b1 b2).2.1)

/-- R91: for every distance, each copy length 3..273 has exactly one encoding, 3..17 a BREF_SHORT and 18..273 a
BREF_LONG; no other length has one; each backward offset 1..4096 has exactly one distance; and a final copy appends
fewer bytes when less room is left. -/
def Obligations.CopyLengthHasOneEncoding : Prop :=
  (∀ (d : BitVec 12) (n : Nat), 3 ≤ n → n ≤ 273 →
    ∃! i : Instr, i.wf = true ∧ copyOperands i = some (d, n)) ∧
  (∀ (i : Instr) (d : BitVec 12) (n : Nat), i.wf = true → copyOperands i = some (d, n) →
    (3 ≤ n ∧ n ≤ 17 ∧ i.length = 2) ∨ (18 ≤ n ∧ n ≤ 273 ∧ i.length = 3)) ∧
  (∀ k : Nat, 1 ≤ k → k ≤ 4096 → ∃! d : BitVec 12, backwardOffset d = k) ∧
  (∀ (s : State) (n : Nat), s.declaredSize.toNat - s.outLen.toNat < n →
    copyCount n s = s.declaredSize.toNat - s.outLen.toNat)

/-- R172: no value of the back-reference family outgrows its width, and the one subtraction that can go negative is
tested before use. -/
def Obligations.OperandWidths : Prop :=
  (∀ d : BitVec 12, 1 ≤ backwardOffset d ∧ backwardOffset d ≤ 4096) ∧
  (∀ (i : Instr) (d : BitVec 12) (n : Nat), copyOperands i = some (d, n) → n < 512) ∧
  (∀ (d : BitVec 12) (s : State) (a : Nat), sourceStart d s = some a →
    a + backwardOffset d = s.outLen.toNat ∧ a ≤ 2 ^ 32 - 2) ∧
  (∀ (d : BitVec 12) (s : State), sourceStart d s = none ↔ s.outLen.toNat ≤ d.toNat) ∧
  (∀ (s : State) (n : Nat), s.outLen.toNat ≤ s.declaredSize.toNat →
    s.outLen.toNat + copyCount n s ≤ s.declaredSize.toNat ∧ copyCount n s ≤ n)

/-! ### Selection and the step -/

/-- R88: the rows in their order; the table is complete, so with a bit count of 0..8 exactly one row holds. -/
def Obligations.SelectionFollowsTable : Prop :=
  ∀ s : State,
    (s.phase = .header → select s = .item .header) ∧
    (s.phase = .run → s.outLen = s.declaredSize → select s = .item .finish) ∧
    (s.phase = .run → s.outLen ≠ s.declaredSize → s.bitsRemaining = 0#4 → select s = .item .control) ∧
    (s.phase = .run → s.outLen ≠ s.declaredSize → 1 ≤ s.bitsRemaining.toNat → s.bitsRemaining.toNat ≤ 8 →
      select s = if s.controlByte.getLsbD (s.bitsRemaining.toNat - 1) then .item .literal else .item .backRef) ∧
    (s.phase = .idle ∨ s.phase = .done ∨ s.phase = .error → select s = .nothing) ∧
    (∀ (b0 b1 b2 : Byte) (more : List Byte), decode .backRef (b0 :: b1 :: b2 :: more) =
      if b0 &&& 0xF0#8 = 0#8 then .ok (.brefLong (distanceField b0 b1) b2, more)
      else .ok (.brefShort (highNibble b0) (distanceField b0 b1), b2 :: more))

/-- R88, R137, D25: where the bytes at the input cursor decode in the selected context, the step is `exec` of that
instruction; after a control byte the same step goes on with the operation its first flag bit selects. -/
def Obligations.StepRunsDecodedInstruction : Prop :=
  ∀ (s : State) (c : Context) (i : Instr) (more : List Byte), s.cfg.inOutOverlap = false →
    select s = .item c → decode c (rest s) = .ok (i, more) →
    (c ≠ .control → step s = exec i s) ∧
    (c = .control → ∃ t, exec i s = .next t ∧ ∀ (c' : Context) (j : Instr) (more' : List Byte),
      selectOp t = .item c' → decode c' (rest t) = .ok (j, more') → step s = exec j t)

/-- R133: the flag bit is `control_byte[bits_remaining − 1]`; CTRL starts the count at 8 and every operation that
completes lowers it by one and keeps the control byte, so the operations of one control byte read bits 7, 6, …, 0. -/
def Obligations.FlagBitsMsbFirst : Prop :=
  (∀ s : State, 1 ≤ s.bitsRemaining.toNat → s.bitsRemaining.toNat ≤ 8 →
    flagBit s = some (s.controlByte.getLsbD (s.bitsRemaining.toNat - 1))) ∧
  (∀ (c : Byte) (s : State), 1 ≤ s.avail → ∃ t, exec (.ctrl c) s = .next t ∧ flagBit t = some (c.getLsbD 7)) ∧
  (∀ (i : Instr) (s t : State) (j : Nat), isPayloadOp i = true → exec i s = .next t → t.phase ≠ .error →
    j < 7 → s.bitsRemaining.toNat = 8 - j → flagBit s = some (s.controlByte.getLsbD (7 - j)) ∧
      flagBit t = some (s.controlByte.getLsbD (7 - (j + 1))))

/-- R26: where a control byte is about to be fetched, the old one takes no part in the step. -/
def Obligations.StaleControlByteNeverRead : Prop :=
  ∀ (s : State) (c : Byte), s.phase = .run → s.outLen ≠ s.declaredSize → s.bitsRemaining = 0#4 → 1 ≤ s.avail →
    step { s with controlByte := c } = step s

/-! ### HDR, CTRL, END, LIT -/

/-- R110, R115: HDR completes where 16 bytes are there, the tag is accepted and the size fits. -/
def Obligations.HdrCompletes : Prop :=
  ∀ (m : Tag) (n : BitVec 32) (r : BitVec 64) (s : State), 16 ≤ s.avail → m ∈ s.cfg.magicSet → n ≤ s.cfg.maxOut →
    exec (.hdr m n r) s = .next { s with declaredSize := n, inPos := s.inPos + 16#64, phase := .run }

/-- R110 to R114, R117: the step in HEADER, on every container: short tag, wrong tag, short size, short reserved bytes,
too large, and success with the size big-endian, whatever the reserved bytes hold. One clause is the model's choice,
DEDUCED in notes/assumptions/17.md (unsafe in part) from the order of R110's pseudocode: that `declared_size` holds the
size read after an error in the reserved bytes. R215 does not settle it. -/
def Obligations.HeaderStep : Prop :=
  ∀ s : State, s.phase = .header → s.inPos = 0#64 → s.cfg.inOutOverlap = false →
    (s.inp.length < 4 →
      step s = .next { s with inPos := BitVec.ofNat 64 s.inp.length, err := some .truncatedInput, phase := .error }) ∧
    ∀ (m0 m1 m2 m3 : Byte) (tl : List Byte), s.inp = m0 :: m1 :: m2 :: m3 :: tl →
      ((⟨m0, m1, m2, m3⟩ : Tag) ∉ s.cfg.magicSet →
        step s = .next { s with inPos := 4#64, err := some .formatMismatch, phase := .error }) ∧
      ((⟨m0, m1, m2, m3⟩ : Tag) ∈ s.cfg.magicSet →
        (tl.length < 4 →
          step s = .next { s with inPos := BitVec.ofNat 64 s.inp.length, err := some .truncatedInput, phase := .error }) ∧
        ∀ (s0 s1 s2 s3 : Byte) (reserved : List Byte), tl = s0 :: s1 :: s2 :: s3 :: reserved →
          ∃ n : BitVec 32,
            n.toNat = (s0.toNat <<< 24) ||| (s1.toNat <<< 16) ||| (s2.toNat <<< 8) ||| s3.toNat ∧
            (reserved.length < 8 →
              step s = .next { s with declaredSize := n, inPos := BitVec.ofNat 64 s.inp.length,
                                      err := some .truncatedInput, phase := .error }) ∧
            (8 ≤ reserved.length → s.cfg.maxOut < n → step s = .refused .outputTooLarge) ∧
            (8 ≤ reserved.length → n ≤ s.cfg.maxOut →
              step s = .next { s with declaredSize := n, inPos := 16#64, phase := .run }))

/-- R116: a declared size of 0 reads the 16 header bytes, then END, and nothing more: DONE, empty output, in_pos 16. -/
def Obligations.EmptyOutputDecode : Prop :=
  ∀ (s : State) (m : Tag) (reserved : BitVec 64) (more : List Byte), Inv s → s.phase = .header →
    s.cfg.inOutOverlap = false → m ∈ s.cfg.magicSet → s.inp = encode (.hdr m 0#32 reserved) ++ more →
    ∃ t1 t2, step s = .next t1 ∧ t1.inPos = 16#64 ∧ select t1 = .item .finish ∧ step t1 = .next t2 ∧
      t2.phase = .done ∧ t2.out = [] ∧ t2.outLen = 0#32 ∧ t2.inPos = 16#64

/-- R132: CTRL is fetched exactly when the output is not full and no bit is left; it loads the byte and the count 8,
and with no byte it raises TruncatedInput and writes neither. -/
def Obligations.CtrlLoadsControlByte : Prop :=
  (∀ (c : Byte) (s : State), 1 ≤ s.avail →
    exec (.ctrl c) s = .next { s with controlByte := c, bitsRemaining := 8#4, inPos := s.inPos + 1#64 }) ∧
  (∀ (c : Byte) (s : State), s.avail = 0 →
    exec (.ctrl c) s =
      .next { s with inPos := BitVec.ofNat 64 s.inp.length, err := some .truncatedInput, phase := .error }) ∧
  (∀ s : State, select s = .item .control ↔
    s.phase = .run ∧ s.outLen ≠ s.declaredSize ∧ s.bitsRemaining = 0#4) ∧
  (∀ (s : State) (c : Byte) (more : List Byte), rest s = c :: more → decode .control (rest s) = .ok (.ctrl c, more))

/-- R130, R131: END sets DONE and nothing else; it is the step exactly when RUN finds the output full, and then at most
7 bits of the control byte are left unread. -/
def Obligations.EndFinishesDecode : Prop :=
  (∀ s : State, exec .endDecode s = .next { s with phase := .done }) ∧
  (∀ s : State, select s = .item .finish ↔ s.phase = .run ∧ s.outLen = s.declaredSize) ∧
  (∀ s : State, Inv s → s.phase = .run → s.outLen = s.declaredSize → s.cfg.inOutOverlap = false →
    step s = .next { s with phase := .done } ∧ s.bitsRemaining.toNat ≤ 7)

/-- R150: LIT appends the byte it reads; with no byte it raises TruncatedInput and appends nothing. The count of flag
bits goes down as R135 says. -/
def Obligations.LitAppendsByte : Prop :=
  (∀ (v : Byte) (s : State), 1 ≤ s.avail → s.outLen < s.declaredSize → s.bitsRemaining ≠ 0#4 →
    ∃ t, exec (.lit v) s = .next t ∧ Memory.read t.out s.outLen.toNat = some v ∧
      (∀ a, a ≠ s.outLen.toNat → Memory.read t.out a = Memory.read s.out a) ∧
      t = { s with out := t.out, outLen := s.outLen + 1#32, inPos := s.inPos + 1#64,
                   bitsRemaining := s.bitsRemaining - 1#4 }) ∧
  (∀ (v : Byte) (s : State), s.avail = 0 →
    exec (.lit v) s =
      .next { s with inPos := BitVec.ofNat 64 s.inp.length, err := some .truncatedInput, phase := .error })

/-! ### Back-references -/

/-- R167: BREF_SHORT, whole: short descriptor, bad distance, and the copy of `N + 2` bytes (fewer at the declared
size) with byte `i` as R170 gives it. -/
def Obligations.BrefShortCopies : Prop :=
  ∀ (n : BitVec 4) (d : BitVec 12) (s : State), s.inPos.toNat + 2 < 2 ^ 64 →
    (s.avail < 2 → exec (.brefShort n d) s =
      .next { s with inPos := BitVec.ofNat 64 s.inp.length, err := some .truncatedInput, phase := .error }) ∧
    (2 ≤ s.avail → s.outLen.toNat ≤ d.toNat → exec (.brefShort n d) s =
      .next { s with inPos := s.inPos + 2#64, err := some .invalidBackReference, phase := .error }) ∧
    (2 ≤ s.avail → d.toNat < s.outLen.toNat → OutDense s → s.bitsRemaining ≠ 0#4 →
      ∃ t, exec (.brefShort n d) s = .next t ∧ CopyResult d (n.toNat + 2) 2 s t)

/-- R168: BREF_LONG, whole: short descriptor, bad distance before `E` is read, missing `E`, and the copy of `E + 18`
bytes (fewer at the declared size). -/
def Obligations.BrefLongCopies : Prop :=
  ∀ (d : BitVec 12) (e : Byte) (s : State), s.inPos.toNat + 3 < 2 ^ 64 →
    (s.avail < 2 → exec (.brefLong d e) s =
      .next { s with inPos := BitVec.ofNat 64 s.inp.length, err := some .truncatedInput, phase := .error }) ∧
    (2 ≤ s.avail → s.outLen.toNat ≤ d.toNat → exec (.brefLong d e) s =
      .next { s with inPos := s.inPos + 2#64, err := some .invalidBackReference, phase := .error }) ∧
    (s.avail = 2 → d.toNat < s.outLen.toNat → exec (.brefLong d e) s =
      .next { s with inPos := BitVec.ofNat 64 s.inp.length, err := some .truncatedInput, phase := .error }) ∧
    (3 ≤ s.avail → d.toNat < s.outLen.toNat → OutDense s → s.bitsRemaining ≠ 0#4 →
      ∃ t, exec (.brefLong d e) s = .next t ∧ CopyResult d (e.toNat + 18) 3 s t)

/-- R213: a back-reference with `distance ≥ out_len` raises InvalidBackReference, before the extended length is read;
as the first operation it always does when both descriptor bytes are there. -/
def Obligations.FirstBackReferenceIsInvalid : Prop :=
  ∀ (b0 b1 : Byte) (more : List Byte) (s : State), rest s = b0 :: b1 :: more → s.inPos.toNat + 3 < 2 ^ 64 →
    (s.outLen.toNat ≤ (distanceField b0 b1).toNat → execFetched .backRef s =
      .next { s with inPos := s.inPos + 2#64, err := some .invalidBackReference, phase := .error }) ∧
    (s.outLen = 0#32 → execFetched .backRef s =
      .next { s with inPos := s.inPos + 2#64, err := some .invalidBackReference, phase := .error })

/-- R170 (R166, R169): the byte-serial copy engine from any written address completes, and byte `i` of the copy is the
old byte at `source_start + (i mod p)`, `p = len0 − source_start`; it reads a byte of its own exactly when it is longer
than `p`. -/
def Obligations.CopyEngineClosedForm : Prop :=
  ∀ (n a : Nat) (s : State), OutDense s → a < s.outLen.toNat → n ≤ s.declaredSize.toNat - s.outLen.toNat →
    (∃ t, copyBytes n a s = .ok t ∧ OutDense t ∧ t.outLen.toNat = s.outLen.toNat + n ∧
      (∀ b < s.outLen.toNat, Memory.read t.out b = Memory.read s.out b) ∧
      ∀ i < n, Memory.read t.out (s.outLen.toNat + i) = Memory.read s.out (a + i % (s.outLen.toNat - a))) ∧
    ((∃ i < n, s.outLen.toNat ≤ a + i) ↔ s.outLen.toNat - a < n)

/-- R173: distance 0 repeats the last byte; a copy no longer than its backward offset is the old bytes in order. -/
def Obligations.DistanceZeroIsRunLength : Prop :=
  ∀ (i : Instr) (d : BitVec 12) (len : Nat) (s t : State), i.wf = true → copyOperands i = some (d, len) →
    OutDense s → exec i s = .next t → t.phase ≠ .error →
    (d = 0#12 → ∀ k < copyCount len s,
      Memory.read t.out (s.outLen.toNat + k) = Memory.read s.out (s.outLen.toNat - 1)) ∧
    (len ≤ backwardOffset d → ∀ k < copyCount len s,
      Memory.read t.out (s.outLen.toNat + k) = Memory.read s.out (s.outLen.toNat - backwardOffset d + k))

/-- R171: every read of a copy is at most 4096 bytes back from the write position of that read (the `i`-th read is at
`source_start + i`, with `out_len + i` bytes written), so the last 4096 bytes of the output suffice: two states that agree in all but the contents of OUT, and there on
the last 4096 bytes, append the same bytes. -/
def Obligations.HistoryWindowSuffices : Prop :=
  (∀ (d : BitVec 12) (s : State) (a i : Nat), sourceStart d s = some a → s.outLen.toNat + i ≤ a + i + 4096) ∧
  ∀ (i : Instr) (s t : State) (out2 : List Host.Cell), isPayloadOp i = true → OutDense s →
    OutDense { s with out := out2 } →
    (∀ a, s.outLen.toNat ≤ a + 4096 → Memory.read out2 a = Memory.read s.out a) →
    exec i s = .next t →
    ∃ t2, exec i { s with out := out2 } = .next t2 ∧ t2 = { t with out := t2.out } ∧
      ∀ a, s.outLen.toNat ≤ a + 4096 → Memory.read t2.out a = Memory.read t.out a

/-! ### Frames, errors, refusals -/

/-- R50, R110, R131, R132: what HDR, CTRL and END leave unchanged; none stores a byte. -/
def Obligations.NonStoringFrame : Prop :=
  (∀ (m : Tag) (n : BitVec 32) (r : BitVec 64) (s t : State), exec (.hdr m n r) s = .next t →
    NoStore s t ∧ t.controlByte = s.controlByte ∧ t.bitsRemaining = s.bitsRemaining ∧
      (t.declaredSize = n ∨ t.declaredSize = s.declaredSize) ∧
      ((t.phase = .run ∧ t.err = s.err) ∨ (t.phase = .error ∧ t.err.isSome = true))) ∧
  (∀ (c : Byte) (s t : State), exec (.ctrl c) s = .next t →
    NoStore s t ∧ t.declaredSize = s.declaredSize ∧
      ((t.phase = s.phase ∧ t.err = s.err) ∨
        (t.phase = .error ∧ t.err.isSome = true ∧ t.controlByte = s.controlByte ∧ t.bitsRemaining = s.bitsRemaining))) ∧
  (∀ s t : State, exec .endDecode s = .next t →
    NoStore s t ∧ t.declaredSize = s.declaredSize ∧ t.controlByte = s.controlByte ∧
      t.bitsRemaining = s.bitsRemaining ∧ t.inPos = s.inPos ∧ t.err = s.err)

/-- R135, R150, R166, R215: what LIT and the back-references leave unchanged: the bytes stored are the
`n` bytes from `out_len` on, `n` = 1 for LIT and `min(copy_length, declared_size − out_len)` for a back-reference. -/
def Obligations.StoringFrame : Prop :=
  (∀ (v : Byte) (s t : State), exec (.lit v) s = .next t → OpFrame 1 s t) ∧
  (∀ (n : BitVec 4) (d : BitVec 12) (s t : State), exec (.brefShort n d) s = .next t →
    OpFrame (copyCount (n.toNat + 2) s) s t) ∧
  (∀ (d : BitVec 12) (e : Byte) (s t : State), exec (.brefLong d e) s = .next t →
    OpFrame (copyCount (e.toNat + 18) s) s t)

/-- R215: an error of a step sets `err` and `phase`, keeps every appended byte and appends none, and keeps what was
consumed consumed, with the cursor where R210 says. Where the iteration began with a control byte that was there, the
state holds what that CTRL wrote, the byte and a count of 8; everywhere else both are as before; in neither case is the
count decremented. No later step reads or writes. -/
def Obligations.ErrorEntryIsPrecise : Prop :=
  ∀ s t : State, Inv s → s.phase = .header ∨ s.phase = .run → step s = .next t → t.phase = .error →
    t.err.isSome = true ∧ t.outLen = s.outLen ∧ (∀ a, Memory.read t.out a = Memory.read s.out a) ∧
    t.inp = s.inp ∧ t.cfg = s.cfg ∧ t.draws = s.draws ∧
    s.inPos.toNat ≤ t.inPos.toNat ∧ t.inPos.toNat ≤ s.inp.length ∧
    (t.err = some .formatMismatch → t.inPos = 4#64) ∧ (t.err = some .truncatedInput → t.inPos.toNat = s.inp.length) ∧
    (s.phase = .run → t.declaredSize = s.declaredSize) ∧
    (s.phase = .run ∧ s.bitsRemaining = 0#4 ∧ 1 ≤ s.avail →
      s.inp[s.inPos.toNat]? = some t.controlByte ∧ t.bitsRemaining = 8#4 ∧
      (t.err = some .invalidBackReference → t.inPos.toNat = s.inPos.toNat + 3)) ∧
    (¬(s.phase = .run ∧ s.bitsRemaining = 0#4 ∧ 1 ≤ s.avail) →
      t.controlByte = s.controlByte ∧ t.bitsRemaining = s.bitsRemaining ∧
      (t.err = some .invalidBackReference → t.inPos.toNat = s.inPos.toNat + 2)) ∧
    ∀ t', step t = .next t' → t'.inPos = t.inPos ∧ t'.outLen = t.outLen ∧ t'.out = t.out

/-- R210: the three kinds, their codes, who raises each, and where the cursor is; no other condition raises an error. -/
def Obligations.ErrorKindsAndSites : Prop :=
  (∀ s t : State, Inv s → step s = .next t → s.phase ≠ .error → t.phase = .error →
    (t.err = some .formatMismatch ∧ s.phase = .header ∧ t.inPos = 4#64 ∧
      ∃ m0 m1 m2 m3 tl, s.inp = m0 :: m1 :: m2 :: m3 :: tl ∧ (⟨m0, m1, m2, m3⟩ : Tag) ∉ s.cfg.magicSet) ∨
    (t.err = some .truncatedInput ∧ (s.phase = .header ∨ s.phase = .run) ∧ t.inPos.toNat = s.inp.length) ∨
    (t.err = some .invalidBackReference ∧ s.phase = .run ∧ t.outLen = s.outLen ∧ 2 ≤ t.inPos.toNat ∧
      ∃ b0 b1, s.inp[t.inPos.toNat - 2]? = some b0 ∧ s.inp[t.inPos.toNat - 1]? = some b1 ∧
        s.outLen.toNat ≤ (distanceField b0 b1).toNat)) ∧
  errCode none = 0#2 ∧ errCode (some .formatMismatch) = 1#2 ∧ errCode (some .truncatedInput) = 2#2 ∧
  errCode (some .invalidBackReference) = 3#2

/-- R212: the five sites at which a missing byte raises TruncatedInput. -/
def Obligations.MissingByteRaisesTruncated : Prop :=
  ∀ s : State, s.inPos.toNat + 16 < 2 ^ 64 →
    let truncated : Host.Outcome State Fault Refusal :=
      .next { s with inPos := BitVec.ofNat 64 s.inp.length, err := some .truncatedInput, phase := .error }
    (s.avail < 4 → execFetched .header s = truncated) ∧
    (∀ m0 m1 m2 m3 tl, rest s = m0 :: m1 :: m2 :: m3 :: tl → (⟨m0, m1, m2, m3⟩ : Tag) ∈ s.cfg.magicSet →
      tl.length < 12 → ∃ t, execFetched .header s = .next t ∧ t.phase = .error ∧ t.err = some .truncatedInput ∧
        t.inPos = BitVec.ofNat 64 s.inp.length) ∧
    (s.avail = 0 → execFetched .control s = truncated) ∧
    (s.avail = 0 → execFetched .literal s = truncated) ∧
    (s.avail < 2 → execFetched .backRef s = truncated) ∧
    (∀ b0 b1, rest s = [b0, b1] → b0.toNat >>> 4 = 0 → (distanceField b0 b1).toNat < s.outLen.toNat →
      execFetched .backRef s = truncated)

/-- R63: a platform whose IN and OUT overlap is refused at every item (that the platform's map is a field of the
configuration is notes/assumptions/9.md); and no step changes IN, so the stream does not modify itself. -/
def Obligations.OverlapRefusedAndInFixed : Prop :=
  (∀ s : State, Inv s → (s.phase = .header ∨ s.phase = .run) → s.cfg.inOutOverlap = true →
    step s = .refused .inOutOverlap) ∧
  (∀ s t : State, step s = .next t → t.inp = s.inp)

/-- R11: the two uses of a refusal: a declared size above MAX_OUT in HDR, and an overlap of IN and OUT. -/
def Obligations.OnlyTwoRefusals : Prop :=
  ∀ (s : State) (r : Refusal), step s = .refused r →
    (r = .inOutOverlap ∧ s.cfg.inOutOverlap = true) ∨ (r = .outputTooLarge ∧ s.phase = .header)

/-! ### Whole-machine rules -/

/-- R33: the state after reset meets the invariant. -/
def Obligations.ResetMeetsInvariant : Prop := Inv State.reset

/-- R22, R24, R25, R27, R34: every step keeps the invariant, from every state that meets it. -/
def Obligations.StepKeepsInvariant : Prop := ∀ s t : State, Inv s → step s = .next t → Inv t

/-- R240, R241, R66: every move of the host keeps the invariant. -/
def Obligations.HostMovesKeepInvariant : Prop :=
  ∀ (m : HostMove) (s t : State), Inv s → hostMove m s = .next t → Inv t

/-- R169, R24, R27: from a state that meets the invariant no step faults: no read of an unwritten byte, no append
outside the buffer, no bit number out of range. -/
def Obligations.StepNeverFaults : Prop := ∀ (s : State) (f : Fault), Inv s → step s ≠ .fault f

/-- R23, R24, R51, R57: over any step OUT is append only, the configuration stays, the cursor does not move back, and
`declared_size` changes in HEADER alone. -/
def Obligations.StepIsAppendOnly : Prop :=
  ∀ s t : State, Inv s → step s = .next t →
    t.cfg = s.cfg ∧ t.draws = s.draws ∧ s.inPos.toNat ≤ t.inPos.toNat ∧ s.outLen.toNat ≤ t.outLen.toNat ∧
    (s.phase ≠ .header → t.declaredSize = s.declaredSize) ∧
    ∀ a < s.outLen.toNat, Memory.read t.out a = Memory.read s.out a

/-- R138: an iteration that completes appends at least one byte, and the block goes on in RUN. -/
def Obligations.IterationAppends : Prop :=
  ∀ s t : State, Inv s → s.phase = .run → s.outLen ≠ s.declaredSize → step s = .next t → t.phase ≠ .error →
    t.phase = .run ∧ s.outLen.toNat < t.outLen.toNat ∧ t.outLen.toNat ≤ s.declaredSize.toNat

/-- R138: a decode that performs `k` iterations from its first on, all of which complete, reads `ceil(k / 8)` control
bytes (`controlReads` counts the steps of a run that begin with CTRL). -/
def Obligations.ControlByteCount : Prop :=
  ∀ (k : Nat) (s t : State), Inv s → s.phase = .run → s.bitsRemaining = 0#4 →
    Sys2Proof.core.run k s = .next t → t.phase = .run → controlReads k s = (k + 7) / 8

/-- R138, R202: from RUN the block ends in DONE or ERROR within as many steps as bytes are missing, and END. -/
def Obligations.DecodeTerminates : Prop :=
  ∀ s : State, Inv s → s.phase = .run → s.cfg.inOutOverlap = false →
    ∃ t : State, Sys2Proof.core.run (s.declaredSize.toNat - s.outLen.toNat + 1) s = .next t ∧
      (t.phase = .done ∨ t.phase = .error)

/-- R203 (R200, R201, R138): the run from START ends as the reference decode says, within `declared_size + 2` steps. -/
def Obligations.MachineAgreesWithReference : Prop :=
  ∀ s : State, s.busy = false → s.cfg.wf → s.cfg.inOutOverlap = false →
    match refDecode s.cfg.magicSet s.cfg.maxOut.toNat s.inp with
    | .ok out p => ∃ (n : Nat) (t : State), Sys2Proof.core.run n s.start = .next t ∧ t.phase = .done ∧
        n ≤ t.declaredSize.toNat + 2 ∧ OutDense t ∧ t.outBytes = out ∧ out.length = t.declaredSize.toNat ∧
        t.inPos.toNat = p
    | .err k p => ∃ (n : Nat) (t : State), Sys2Proof.core.run n s.start = .next t ∧ t.phase = .error ∧
        n ≤ t.declaredSize.toNat + 2 ∧ t.err = some k ∧ t.inPos.toNat = p
    | .refused => ∃ n : Nat, Sys2Proof.core.run n s.start = .refused .outputTooLarge

/-- R202: the run from START depends on the container and the configuration alone. -/
def Obligations.ResultDependsOnInputAndConfig : Prop :=
  ∀ (n : Nat) (s1 s2 : State), s1.inp = s2.inp → s1.cfg = s2.cfg →
    SameUpToDraws (Sys2Proof.core.run n s1.start) (Sys2Proof.core.run n s2.start)

/-- R204: the bytes after the last one a decode consumes never matter, and a container cut before it is truncated. -/
def Obligations.TrailingInputNeverMatters : Prop :=
  ∀ (tags : List Tag) (maxOut : Nat) (inp out : List Byte) (k : Nat), refDecode tags maxOut inp = .ok out k →
    (∀ inp' : List Byte, k ≤ inp'.length → inp'.take k = inp.take k → refDecode tags maxOut inp' = .ok out k) ∧
    (∀ j < k, refDecode tags maxOut (inp.take j) = .err .truncatedInput j)

/-- R151: where every flag bit read is 1, the output is the payload bytes that are not control bytes, the control bytes
being every ninth; a payload too short for it is truncated, never padded. -/
def Obligations.AllLiteralStream : Prop :=
  ∀ (tags : List Tag) (maxOut : Nat) (m : Tag) (n : BitVec 32) (reserved : BitVec 64) (payload : List Byte),
    m ∈ tags → n.toNat ≤ maxOut →
    (∀ j < n.toNat, ∀ c, payload[9 * (j / 8)]? = some c → c.getLsbD (7 - j % 8) = true) →
    (n.toNat + (n.toNat + 7) / 8 ≤ payload.length →
      ∃ out, refDecode tags maxOut (encode (.hdr m n reserved) ++ payload) =
          .ok out (16 + n.toNat + (n.toNat + 7) / 8) ∧
        out.length = n.toNat ∧ ∀ j < n.toNat, out[j]? = payload[9 * (j / 8) + 1 + j % 8]?) ∧
    (payload.length < n.toNat + (n.toNat + 7) / 8 →
      refDecode tags maxOut (encode (.hdr m n reserved) ++ payload) = .err .truncatedInput (16 + payload.length))

/-- R84, R93: the payload that `.ops` assembles from a list of operations decodes to the plaintext the operations stand
for, whatever bytes follow (an encoder's half of R205 for any choice of operations). -/
def Obligations.AssembledPayloadDecodes : Prop :=
  ∀ (tags : List Tag) (maxOut : Nat) (m : Tag) (reserved : BitVec 64) (ops : List Instr) (out more : List Byte),
    m ∈ tags → (∀ op ∈ ops, isPayloadOp op = true ∧ op.wf = true) → expandOps [] ops = some out →
    out.length ≤ maxOut → out.length < 2 ^ 32 →
    refDecode tags maxOut (encode (.hdr m (BitVec.ofNat 32 out.length) reserved) ++ asmOps ops ++ more) =
      .ok out (16 + (asmOps ops).length)

/-- R92, R93: the bytes of the assembler's back-reference lines by its formulas, the operand ranges it takes and no
others, and the two pseudo-instructions. -/
def Obligations.AssemblerFormulas : Prop :=
  ∀ d n : Nat,
    (d ≤ 4095 → 3 ≤ n → n ≤ 17 → (AsmLine.brefS d n).code =
      some [BitVec.ofNat 8 (((n - 2) <<< 4) ||| (d >>> 8)), BitVec.ofNat 8 (d &&& 0xFF)]) ∧
    (d ≤ 4095 → 18 ≤ n → n ≤ 273 → (AsmLine.brefL d n).code =
      some [BitVec.ofNat 8 (d >>> 8), BitVec.ofNat 8 (d &&& 0xFF), BitVec.ofNat 8 (n - 18)]) ∧
    ((AsmLine.brefS d n).code = none ↔ ¬(d ≤ 4095 ∧ 3 ≤ n ∧ n ≤ 17)) ∧
    ((AsmLine.brefL d n).code = none ↔ ¬(d ≤ 4095 ∧ 18 ≤ n ∧ n ≤ 273)) ∧
    (d ≤ 4095 → 3 ≤ n → n ≤ 17 → (AsmLine.bref d n).code = (AsmLine.brefS d n).code) ∧
    (d ≤ 4095 → 18 ≤ n → n ≤ 273 → (AsmLine.bref d n).code = (AsmLine.brefL d n).code) ∧
    ((n < 3 ∨ 273 < n) → (AsmLine.bref d n).code = none) ∧
    (1 ≤ d → d ≤ 4096 → (AsmLine.copy d n).code = (AsmLine.bref (d - 1) n).code)
end

