-- ==== Sys2Proof/Laws/Decode.lean ====
section
/-! SUPPORT. The decoder's and the encoder's small lemmas, and what a longer byte list decodes to. -/

namespace Sys2Proof.Laws

open Sys2Proof

theorem append_extract (a b : Nat) (v : BitVec (a + b)) : v.extractLsb' b a ++ v.extractLsb' 0 b = v := by
  ext i hi
  simp

theorem extract_high {m n : Nat} (a : BitVec m) (b : BitVec n) : (a ++ b).extractLsb' n m = a := by
  ext i hi
  simp [BitVec.getLsbD_append, BitVec.getLsbD_eq_getElem, hi]

theorem extract_low {m n : Nat} (a : BitVec m) (b : BitVec n) : (a ++ b).extractLsb' 0 n = b := by
  ext i hi
  simp [BitVec.getLsbD_append, hi]

@[simp] theorem highNibble_append (n : BitVec 4) (l : BitVec 4) : highNibble (n ++ l) = n := extract_high n l

@[simp] theorem lowNibble_append (n : BitVec 4) (l : BitVec 4) : lowNibble (n ++ l) = l := extract_low n l

theorem append_nibbles (b : Byte) : highNibble b ++ lowNibble b = b := append_extract 4 4 b

theorem distance_bytes (n : BitVec 4) (d : BitVec 12) :
    distanceField (n ++ d.extractLsb' 8 4) (d.extractLsb' 0 8) = d := by
  rw [distanceField, lowNibble_append]
  exact append_extract 4 8 d

theorem distanceField_high (b0 b1 : Byte) : (distanceField b0 b1).extractLsb' 8 4 = lowNibble b0 :=
  extract_high (lowNibble b0) b1

theorem distanceField_low (b0 b1 : Byte) : (distanceField b0 b1).extractLsb' 0 8 = b1 :=
  extract_low (lowNibble b0) b1

theorem bytes32_be32 (a b c d : Byte) : bytes32 (be32 a b c d) = [a, b, c, d] := by
  simp only [bytes32, be32, List.cons.injEq, and_true]
  refine ⟨?_, ?_, ?_, ?_⟩ <;>
  · ext i hi
    simp only [BitVec.getElem_extractLsb', BitVec.getLsbD_append]
    repeat' split
    all_goals first
      | omega
      | (rw [← BitVec.getLsbD_eq_getElem]; congr 1; omega)

theorem be32_bytes32 (v : BitVec 32) :
    be32 (v.extractLsb' 24 8) (v.extractLsb' 16 8) (v.extractLsb' 8 8) (v.extractLsb' 0 8) = v := by
  unfold be32
  ext i hi
  simp only [BitVec.getElem_append, BitVec.getElem_extractLsb']
  repeat' split
  all_goals (rw [← BitVec.getLsbD_eq_getElem]; congr 1; omega)

theorem be64_halves (a b : BitVec 32) :
    (a ++ b : BitVec 64).extractLsb' 32 32 = a ∧ (a ++ b : BitVec 64).extractLsb' 0 32 = b :=
  ⟨extract_high a b, extract_low a b⟩

theorem bytes64_be64 (a b c d e f g h : Byte) : bytes64 (be64 a b c d e f g h) = [a, b, c, d, e, f, g, h] := by
  simp [bytes64, be64, be64_halves, bytes32_be32]

/-- The decoder reads an encoded header back. -/
theorem decodeHeader_encode (m : Tag) (size : BitVec 32) (r : BitVec 64) (rest : List Byte) :
    decodeHeader (encode (.hdr m size r) ++ rest) = .ok (.hdr m size r, rest) := by
  have h := be32_bytes32 (r.extractLsb' 32 32)
  have l := be32_bytes32 (r.extractLsb' 0 32)
  simp only [encode, bytes64, bytes32, List.cons_append, List.nil_append, decodeHeader, be32_bytes32, be64, h, l]
  rw [append_extract 32 32 r]

/-- A list the decoder accepts is accepted with any bytes after it, which are left over. -/
theorem decode_append {c : Context} {bs rest more : List Byte} {i : Instr} (h : decode c bs = .ok (i, rest)) :
    decode c (bs ++ more) = .ok (i, rest ++ more) := by
  cases c with
  | header =>
    revert h
    simp only [decode]
    unfold decodeHeader
    split
    · intro h
      simp only [Except.ok.injEq, Prod.mk.injEq] at h
      obtain ⟨rfl, rfl⟩ := h
      simp
    · intro h; cases h
  | finish => simp only [decode, Except.ok.injEq, Prod.mk.injEq] at *; simp [h]
  | control =>
    cases bs with
    | nil => cases h
    | cons b bs => simp only [decode, List.cons_append, Except.ok.injEq, Prod.mk.injEq] at *; simp [h]
  | literal =>
    cases bs with
    | nil => cases h
    | cons b bs => simp only [decode, List.cons_append, Except.ok.injEq, Prod.mk.injEq] at *; simp [h]
  | backRef =>
    match bs, h with
    | [], h => cases h
    | [_], h => cases h
    | b0 :: b1 :: bs, h =>
      simp only [decode, decodeBackRef, List.cons_append] at *
      by_cases hn : highNibble b0 = 0#4
      · simp only [hn, if_true] at *
        cases bs with
        | nil => cases h
        | cons b2 bs => simp only [List.cons_append, Except.ok.injEq, Prod.mk.injEq] at *; simp [h]
      · simp only [hn, if_false] at *
        simp only [Except.ok.injEq, Prod.mk.injEq] at *; simp [h]

theorem padTo_length (n : Nat) (bs : List Byte) : (padTo n bs).length = n := by
  induction n generalizing bs with
  | zero => rfl
  | succ n ih => cases bs <;> simp [padTo, ih]

theorem padTo_getElem? {n k : Nat} {bs : List Byte} (hk : k < n) (hb : k < bs.length) : (padTo n bs)[k]? = bs[k]? := by
  induction n generalizing bs k with
  | zero => omega
  | succ n ih =>
    cases bs with
    | nil => simp at hb
    | cons b bs =>
      cases k with
      | zero => simp [padTo]
      | succ k => simpa [padTo] using ih (bs := bs) (by omega) (by simpa using hb)

theorem padTo_eq_take {n : Nat} {bs : List Byte} (h : n ≤ bs.length) : padTo n bs = bs.take n := by
  induction n generalizing bs with
  | zero => simp [padTo]
  | succ n ih =>
    cases bs with
    | nil => simp at h
    | cons b bs => simp [padTo, ih (bs := bs) (by simpa using h)]

theorem padTo_short {n : Nat} {bs : List Byte} (h : bs.length ≤ n) :
    padTo n bs = bs ++ List.replicate (n - bs.length) 0#8 := by
  induction n generalizing bs with
  | zero => cases bs with
    | nil => simp [padTo]
    | cons b bs => simp at h
  | succ n ih =>
    cases bs with
    | nil => have := ih (bs := []) (by simp); simp [padTo, List.replicate_succ] at *; exact this
    | cons b bs => simp [padTo, ih (bs := bs) (by simpa using h)]

/-- What the decoder reads from a byte list, it reads from the fetch window over it. -/
theorem decode_padTo {c : Context} {bs rest : List Byte} {i : Instr} (h : decode c bs = .ok (i, rest)) :
    ∃ rest', decode c (padTo maxInstrLength bs) = .ok (i, rest') := by
  by_cases hs : bs.length ≤ maxInstrLength
  · exact ⟨_, by rw [padTo_short hs]; exact decode_append h⟩
  · rw [padTo_eq_take (by omega)]
    have hl : (bs.take maxInstrLength).length = 16 := by simp [maxInstrLength] at *; omega
    have hsplit := List.take_append_drop maxInstrLength bs
    generalize bs.take maxInstrLength = w at *
    generalize bs.drop maxInstrLength = d at *
    obtain ⟨j, r, hj⟩ : ∃ j r, decode c w = .ok (j, r) := by
      match w, hl with
      | [w0, w1, w2, w3, w4, w5, w6, w7, w8, w9, w10, w11, w12, w13, w14, w15], _ =>
        cases c
        · exact ⟨_, _, rfl⟩
        · exact ⟨_, _, rfl⟩
        · exact ⟨_, _, rfl⟩
        · exact ⟨_, _, rfl⟩
        · simp only [decode, decodeBackRef]; split <;> exact ⟨_, _, rfl⟩
    have := decode_append (more := d) hj
    rw [hsplit, h] at this
    simp only [Except.ok.injEq, Prod.mk.injEq] at this
    exact ⟨r, by rw [hj, this.1]⟩

/-- The mask of R88 is a test of `b[7:4]`. -/
theorem and_F0_eq_zero (b : Byte) : b &&& 0xF0#8 = 0#8 ↔ highNibble b = 0#4 := by
  revert b; decide

/-- `b >> 4` is `b[7:4]` (R8). -/
theorem shiftRight_eq_highNibble (b : Byte) : b.toNat >>> 4 = (highNibble b).toNat := by
  revert b; decide

/-- The distance formula of R162. -/
theorem distanceField_toNat (b0 b1 : Byte) : (distanceField b0 b1).toNat = ((b0.toNat &&& 0x0F) <<< 8) ||| b1.toNat := by
  unfold distanceField lowNibble
  rw [BitVec.toNat_append]
  congr 2
  revert b0; decide

/-- The size formula of R53. -/
theorem be32_toNat (a b c d : Byte) :
    (be32 a b c d).toNat = (a.toNat <<< 24) ||| (b.toNat <<< 16) ||| (c.toNat <<< 8) ||| d.toNat := by
  unfold be32
  rw [BitVec.toNat_append, BitVec.toNat_append, BitVec.toNat_append]
  simp only [Nat.shiftLeft_or_distrib, ← Nat.shiftLeft_add]

end Sys2Proof.Laws
end

