-- ==== Sys2Proof/Laws/Memory.lean ====
section
/-! SUPPORT. The laws of the output memory: read after write, the canonical form is kept, and what an append at the
end of a dense memory does. -/

namespace Sys2Proof.Laws

open Sys2Proof Sys2Proof.Machine

theorem read_write_same (m : List Host.Cell) (a : Nat) (v : Byte) :
    Memory.read (Memory.write m a v) a = some v := by
  induction m with
  | nil => simp [Memory.write, Memory.read]
  | cons c m ih =>
    simp only [Memory.write]
    split
    · simp [Memory.read]
    · split
      · simp [Memory.read]
      · rename_i h
        simp [Memory.read, h, ih]

theorem read_write_other (m : List Host.Cell) (a b : Nat) (v : Byte) (h : b ≠ a) :
    Memory.read (Memory.write m a v) b = Memory.read m b := by
  induction m with
  | nil => simp [Memory.write, Memory.read, h]
  | cons c m ih =>
    simp only [Memory.write]
    split
    · simp [Memory.read, h]
    · split
      · rename_i hc
        subst hc
        simp [Memory.read, h]
      · simp [Memory.read, ih]

theorem wf_cons_tail {c : Host.Cell} {m : List Host.Cell} (h : Memory.wf (c :: m) = true) : Memory.wf m = true := by
  cases m with
  | nil => rfl
  | cons d m => simp [Memory.wf] at h; exact h.2

theorem wf_cons {a : Nat} {w : Byte} {m : List Host.Cell} (hm : Memory.wf m = true)
    (h : ∀ c ∈ m.head?, a < c.1) : Memory.wf ((a, w) :: m) = true := by
  cases m with
  | nil => rfl
  | cons d m => simp [Memory.wf, hm]; exact h d (by simp)

/-- Every write keeps the canonical form. -/
theorem write_wf (m : List Host.Cell) (a : Nat) (v : Byte) (h : Memory.wf m = true) :
    Memory.wf (Memory.write m a v) = true := by
  induction m with
  | nil => rfl
  | cons c m ih =>
    obtain ⟨b, w⟩ := c
    have ht := wf_cons_tail h
    simp only [Memory.write]
    split
    · exact wf_cons h (by simpa using ‹a < b›)
    · split
      · rename_i hab
        subst hab
        exact wf_cons ht (by cases m with
          | nil => simp
          | cons d m => simp [Memory.wf] at h; simpa using h.1)
      · refine wf_cons (ih ht) ?_
        cases m with
        | nil => simp [Memory.write]; omega
        | cons d m =>
          obtain ⟨e, x⟩ := d
          simp [Memory.wf] at h
          simp only [Memory.write]
          split
          · simp; omega
          · split
            · simp; omega
            · simpa using h.1

theorem reset_memory_wf : Memory.wf State.reset.out = true := rfl

/-- A memory whose addresses rise by the list order is canonical. -/
theorem wf_of_pairwise {m : List Host.Cell} (h : (m.map Prod.fst).Pairwise (· < ·)) : Memory.wf m = true := by
  induction m with
  | nil => rfl
  | cons c m ih =>
    obtain ⟨a, w⟩ := c
    simp only [List.map_cons, List.pairwise_cons] at h
    refine wf_cons (ih h.2) ?_
    cases m with
    | nil => simp
    | cons d m => simpa using h.1 d.1 (by simp)

/-- A dense memory (addresses 0, 1, …, n − 1) is canonical. -/
theorem wf_of_dense {m : List Host.Cell} {n : Nat} (h : m.map Prod.fst = List.range n) : Memory.wf m = true :=
  wf_of_pairwise (h ▸ List.pairwise_lt_range)

/-- Reading a memory whose addresses count up from `k`. -/
theorem read_range' {m : List Host.Cell} {k : Nat} (h : m.map Prod.fst = List.range' k m.length) (a : Nat) :
    Memory.read m (k + a) = (m.map Prod.snd)[a]? := by
  induction m generalizing k a with
  | nil => simp [Memory.read]
  | cons c m ih =>
    obtain ⟨b, w⟩ := c
    simp only [List.map_cons, List.length_cons, List.range'_succ, List.cons.injEq] at h
    obtain ⟨rfl, h⟩ := h
    cases a with
    | zero => simp [Memory.read]
    | succ a =>
      have := ih h a
      simp only [Memory.read]
      rw [if_neg (by omega), show b + (a + 1) = b + 1 + a by omega, this]
      simp

theorem read_below {m : List Host.Cell} {k : Nat} (h : m.map Prod.fst = List.range' k m.length) (a : Nat) (ha : a < k) :
    Memory.read m a = none := by
  induction m generalizing k with
  | nil => simp [Memory.read]
  | cons c m ih =>
    obtain ⟨b, w⟩ := c
    simp only [List.map_cons, List.length_cons, List.range'_succ, List.cons.injEq] at h
    obtain ⟨rfl, h⟩ := h
    simp only [Memory.read]
    rw [if_neg (by omega)]
    exact ih h (by omega)

theorem dense_length {m : List Host.Cell} {n : Nat} (h : m.map Prod.fst = List.range n) : m.length = n := by
  simpa using congrArg List.length h

/-- Reading a dense memory is indexing its bytes. -/
theorem read_dense {m : List Host.Cell} {n : Nat} (h : m.map Prod.fst = List.range n) (a : Nat) :
    Memory.read m a = (m.map Prod.snd)[a]? := by
  have := read_range' (m := m) (k := 0) (by rw [dense_length h, h, List.range_eq_range']) a
  simpa using this

theorem write_end {m : List Host.Cell} {k : Nat} (h : m.map Prod.fst = List.range' k m.length) (v : Byte) :
    Memory.write m (k + m.length) v = m ++ [(k + m.length, v)] := by
  induction m generalizing k with
  | nil => simp [Memory.write]
  | cons c m ih =>
    obtain ⟨b, w⟩ := c
    simp only [List.map_cons, List.length_cons, List.range'_succ, List.cons.injEq] at h
    obtain ⟨rfl, h⟩ := h
    have := ih h
    simp only [Memory.write, List.length_cons]
    rw [if_neg (by omega), if_neg (by omega), show b + (m.length + 1) = b + 1 + m.length by omega, this]
    simp

/-- A write at the end of a dense memory appends. -/
theorem write_dense {m : List Host.Cell} {n : Nat} (h : m.map Prod.fst = List.range n) (v : Byte) :
    Memory.write m n v = m ++ [(n, v)] := by
  have := write_end (m := m) (k := 0) (by rw [dense_length h, h, List.range_eq_range']) v
  simpa [dense_length h] using this

end Sys2Proof.Laws
end

