-- ==== Sys2Proof/Laws/State.lean ====
section
/-! SUPPORT. One lemma per field per register update, so that no later proof unfolds a record update. -/

namespace Sys2Proof.Laws

open Sys2Proof.Machine

variable (s : State)

@[simp] theorem setPhase_phase (p : Phase) : (s.setPhase p).phase = p := rfl
@[simp] theorem setPhase_err (p : Phase) : (s.setPhase p).err = s.err := rfl
@[simp] theorem setPhase_declaredSize (p : Phase) : (s.setPhase p).declaredSize = s.declaredSize := rfl
@[simp] theorem setPhase_out (p : Phase) : (s.setPhase p).out = s.out := rfl
@[simp] theorem setPhase_outLen (p : Phase) : (s.setPhase p).outLen = s.outLen := rfl
@[simp] theorem setPhase_inPos (p : Phase) : (s.setPhase p).inPos = s.inPos := rfl
@[simp] theorem setPhase_controlByte (p : Phase) : (s.setPhase p).controlByte = s.controlByte := rfl
@[simp] theorem setPhase_bitsRemaining (p : Phase) : (s.setPhase p).bitsRemaining = s.bitsRemaining := rfl
@[simp] theorem setPhase_inp (p : Phase) : (s.setPhase p).inp = s.inp := rfl
@[simp] theorem setPhase_cfg (p : Phase) : (s.setPhase p).cfg = s.cfg := rfl
@[simp] theorem setPhase_draws (p : Phase) : (s.setPhase p).draws = s.draws := rfl

@[simp] theorem setInPos_phase (p : BitVec 64) : (s.setInPos p).phase = s.phase := rfl
@[simp] theorem setInPos_err (p : BitVec 64) : (s.setInPos p).err = s.err := rfl
@[simp] theorem setInPos_declaredSize (p : BitVec 64) : (s.setInPos p).declaredSize = s.declaredSize := rfl
@[simp] theorem setInPos_out (p : BitVec 64) : (s.setInPos p).out = s.out := rfl
@[simp] theorem setInPos_outLen (p : BitVec 64) : (s.setInPos p).outLen = s.outLen := rfl
@[simp] theorem setInPos_inPos (p : BitVec 64) : (s.setInPos p).inPos = p := rfl
@[simp] theorem setInPos_controlByte (p : BitVec 64) : (s.setInPos p).controlByte = s.controlByte := rfl
@[simp] theorem setInPos_bitsRemaining (p : BitVec 64) : (s.setInPos p).bitsRemaining = s.bitsRemaining := rfl
@[simp] theorem setInPos_inp (p : BitVec 64) : (s.setInPos p).inp = s.inp := rfl
@[simp] theorem setInPos_cfg (p : BitVec 64) : (s.setInPos p).cfg = s.cfg := rfl
@[simp] theorem setInPos_draws (p : BitVec 64) : (s.setInPos p).draws = s.draws := rfl

@[simp] theorem setDeclaredSize_phase (n : BitVec 32) : (s.setDeclaredSize n).phase = s.phase := rfl
@[simp] theorem setDeclaredSize_err (n : BitVec 32) : (s.setDeclaredSize n).err = s.err := rfl
@[simp] theorem setDeclaredSize_declaredSize (n : BitVec 32) : (s.setDeclaredSize n).declaredSize = n := rfl
@[simp] theorem setDeclaredSize_out (n : BitVec 32) : (s.setDeclaredSize n).out = s.out := rfl
@[simp] theorem setDeclaredSize_outLen (n : BitVec 32) : (s.setDeclaredSize n).outLen = s.outLen := rfl
@[simp] theorem setDeclaredSize_inPos (n : BitVec 32) : (s.setDeclaredSize n).inPos = s.inPos := rfl
@[simp] theorem setDeclaredSize_controlByte (n : BitVec 32) : (s.setDeclaredSize n).controlByte = s.controlByte := rfl
@[simp] theorem setDeclaredSize_bitsRemaining (n : BitVec 32) : (s.setDeclaredSize n).bitsRemaining = s.bitsRemaining := rfl
@[simp] theorem setDeclaredSize_inp (n : BitVec 32) : (s.setDeclaredSize n).inp = s.inp := rfl
@[simp] theorem setDeclaredSize_cfg (n : BitVec 32) : (s.setDeclaredSize n).cfg = s.cfg := rfl
@[simp] theorem setDeclaredSize_draws (n : BitVec 32) : (s.setDeclaredSize n).draws = s.draws := rfl

@[simp] theorem loadControl_phase (c : Byte) : (s.loadControl c).phase = s.phase := rfl
@[simp] theorem loadControl_err (c : Byte) : (s.loadControl c).err = s.err := rfl
@[simp] theorem loadControl_declaredSize (c : Byte) : (s.loadControl c).declaredSize = s.declaredSize := rfl
@[simp] theorem loadControl_out (c : Byte) : (s.loadControl c).out = s.out := rfl
@[simp] theorem loadControl_outLen (c : Byte) : (s.loadControl c).outLen = s.outLen := rfl
@[simp] theorem loadControl_inPos (c : Byte) : (s.loadControl c).inPos = s.inPos := rfl
@[simp] theorem loadControl_controlByte (c : Byte) : (s.loadControl c).controlByte = c := rfl
@[simp] theorem loadControl_bitsRemaining (c : Byte) : (s.loadControl c).bitsRemaining = 8#4 := rfl
@[simp] theorem loadControl_inp (c : Byte) : (s.loadControl c).inp = s.inp := rfl
@[simp] theorem loadControl_cfg (c : Byte) : (s.loadControl c).cfg = s.cfg := rfl
@[simp] theorem loadControl_draws (c : Byte) : (s.loadControl c).draws = s.draws := rfl

@[simp] theorem setBits_phase (n : BitVec 4) : (s.setBits n).phase = s.phase := rfl
@[simp] theorem setBits_err (n : BitVec 4) : (s.setBits n).err = s.err := rfl
@[simp] theorem setBits_declaredSize (n : BitVec 4) : (s.setBits n).declaredSize = s.declaredSize := rfl
@[simp] theorem setBits_out (n : BitVec 4) : (s.setBits n).out = s.out := rfl
@[simp] theorem setBits_outLen (n : BitVec 4) : (s.setBits n).outLen = s.outLen := rfl
@[simp] theorem setBits_inPos (n : BitVec 4) : (s.setBits n).inPos = s.inPos := rfl
@[simp] theorem setBits_controlByte (n : BitVec 4) : (s.setBits n).controlByte = s.controlByte := rfl
@[simp] theorem setBits_bitsRemaining (n : BitVec 4) : (s.setBits n).bitsRemaining = n := rfl
@[simp] theorem setBits_inp (n : BitVec 4) : (s.setBits n).inp = s.inp := rfl
@[simp] theorem setBits_cfg (n : BitVec 4) : (s.setBits n).cfg = s.cfg := rfl
@[simp] theorem setBits_draws (n : BitVec 4) : (s.setBits n).draws = s.draws := rfl

@[simp] theorem append_phase (v : Byte) : (s.append v).phase = s.phase := rfl
@[simp] theorem append_err (v : Byte) : (s.append v).err = s.err := rfl
@[simp] theorem append_declaredSize (v : Byte) : (s.append v).declaredSize = s.declaredSize := rfl
@[simp] theorem append_out (v : Byte) : (s.append v).out = Memory.write s.out s.outLen.toNat v := rfl
@[simp] theorem append_outLen (v : Byte) : (s.append v).outLen = s.outLen + 1#32 := rfl
@[simp] theorem append_inPos (v : Byte) : (s.append v).inPos = s.inPos := rfl
@[simp] theorem append_controlByte (v : Byte) : (s.append v).controlByte = s.controlByte := rfl
@[simp] theorem append_bitsRemaining (v : Byte) : (s.append v).bitsRemaining = s.bitsRemaining := rfl
@[simp] theorem append_inp (v : Byte) : (s.append v).inp = s.inp := rfl
@[simp] theorem append_cfg (v : Byte) : (s.append v).cfg = s.cfg := rfl
@[simp] theorem append_draws (v : Byte) : (s.append v).draws = s.draws := rfl

@[simp] theorem errorEntry_phase (k : ErrorKind) : (s.errorEntry k).phase = .error := rfl
@[simp] theorem errorEntry_err (k : ErrorKind) : (s.errorEntry k).err = some k := rfl
@[simp] theorem errorEntry_declaredSize (k : ErrorKind) : (s.errorEntry k).declaredSize = s.declaredSize := rfl
@[simp] theorem errorEntry_out (k : ErrorKind) : (s.errorEntry k).out = s.out := rfl
@[simp] theorem errorEntry_outLen (k : ErrorKind) : (s.errorEntry k).outLen = s.outLen := rfl
@[simp] theorem errorEntry_inPos (k : ErrorKind) : (s.errorEntry k).inPos = s.inPos := rfl
@[simp] theorem errorEntry_controlByte (k : ErrorKind) : (s.errorEntry k).controlByte = s.controlByte := rfl
@[simp] theorem errorEntry_bitsRemaining (k : ErrorKind) : (s.errorEntry k).bitsRemaining = s.bitsRemaining := rfl
@[simp] theorem errorEntry_inp (k : ErrorKind) : (s.errorEntry k).inp = s.inp := rfl
@[simp] theorem errorEntry_cfg (k : ErrorKind) : (s.errorEntry k).cfg = s.cfg := rfl
@[simp] theorem errorEntry_draws (k : ErrorKind) : (s.errorEntry k).draws = s.draws := rfl

@[simp] theorem start_phase : s.start.phase = .header := rfl
@[simp] theorem start_err : s.start.err = none := rfl
@[simp] theorem start_declaredSize : s.start.declaredSize = 0#32 := rfl
@[simp] theorem start_out : s.start.out = [] := rfl
@[simp] theorem start_outLen : s.start.outLen = 0#32 := rfl
@[simp] theorem start_inPos : s.start.inPos = 0#64 := rfl
@[simp] theorem start_controlByte : s.start.controlByte = 0#8 := rfl
@[simp] theorem start_bitsRemaining : s.start.bitsRemaining = 0#4 := rfl
@[simp] theorem start_inp : s.start.inp = s.inp := rfl
@[simp] theorem start_cfg : s.start.cfg = s.cfg := rfl
@[simp] theorem start_draws : s.start.draws = s.draws := rfl

@[simp] theorem resetEvent_phase : s.resetEvent.phase = .idle := rfl
@[simp] theorem resetEvent_err : s.resetEvent.err = none := rfl
@[simp] theorem resetEvent_declaredSize : s.resetEvent.declaredSize = 0#32 := rfl
@[simp] theorem resetEvent_out : s.resetEvent.out = [] := rfl
@[simp] theorem resetEvent_outLen : s.resetEvent.outLen = 0#32 := rfl
@[simp] theorem resetEvent_inPos : s.resetEvent.inPos = 0#64 := rfl
@[simp] theorem resetEvent_controlByte : s.resetEvent.controlByte = 0#8 := rfl
@[simp] theorem resetEvent_bitsRemaining : s.resetEvent.bitsRemaining = 0#4 := rfl
@[simp] theorem resetEvent_inp : s.resetEvent.inp = s.inp := rfl
@[simp] theorem resetEvent_cfg : s.resetEvent.cfg = s.cfg := rfl
@[simp] theorem resetEvent_draws : s.resetEvent.draws = s.draws := rfl

end Sys2Proof.Laws
end

