-- ==== Sys2Proof/Laws/Ops.lean ====
section
/-! SUPPORT. One lemma per shared operation that says what it can do: reading IN, appending, the copy engine, the
count of bits. -/

namespace Sys2Proof.Laws

open Sys2Proof Sys2Proof.Machine Sys2Proof.Safety

@[simp] theorem andThen_ok (s : State) (f : State → Res) : (Res.ok s).andThen f = f s := rfl
@[simp] theorem andThen_raised (k : ErrorKind) (s : State) (f : State → Res) :
    (Res.raised k s).andThen f = .raised k s := rfl
@[simp] theorem andThen_fault (e : Fault) (f : State → Res) : (Res.fault e).andThen f = .fault e := rfl
@[simp] theorem andThen_refused (e : Refusal) (f : State → Res) : (Res.refused e).andThen f = .refused e := rfl
@[simp] theorem outcome_ok (s : State) : (Res.ok s).outcome = .next s := rfl
@[simp] theorem outcome_raised (k : ErrorKind) (s : State) : (Res.raised k s).outcome = .next (s.errorEntry k) := rfl
@[simp] theorem outcome_fault (e : Fault) : (Res.fault e).outcome = .fault e := rfl
@[simp] theorem outcome_refused (e : Refusal) : (Res.refused e).outcome = .refused e := rfl

/-- The state in which TruncatedInput is raised: every byte of IN consumed (60_exceptions.md R210). -/
def atEnd (s : State) : State := s.setInPos (BitVec.ofNat 64 s.inp.length)

theorem takeByte_ok {s : State} (h : 1 ≤ s.avail) : takeByte s = .ok (s.setInPos (s.inPos + 1#64)) :=
  if_pos (by unfold State.avail at h; omega)

theorem takeByte_end {s : State} (h : s.avail = 0) : takeByte s = .raised .truncatedInput (atEnd s) :=
  if_neg (by unfold State.avail at h; omega)

theorem avail_advance {s : State} {n : Nat} (h : n + 1 ≤ s.avail) : n ≤ (s.setInPos (s.inPos + 1#64)).avail := by
  simp only [State.avail, setInPos_inp, setInPos_inPos] at *
  have : (s.inPos + 1#64).toNat ≤ s.inPos.toNat + 1 := by
    rw [BitVec.toNat_add]; exact Nat.mod_le _ _
  omega

/-- `InReadN(n)` where IN has the bytes. -/
theorem takeBytes_ok {n : Nat} {s : State} (h : n ≤ s.avail) :
    takeBytes n s = .ok (s.setInPos (s.inPos + BitVec.ofNat 64 n)) := by
  induction n generalizing s with
  | zero => simp [takeBytes, State.setInPos]
  | succ n ih =>
    rw [takeBytes, takeByte_ok (by omega), andThen_ok, ih (avail_advance h)]
    have : s.inPos + 1#64 + BitVec.ofNat 64 n = s.inPos + BitVec.ofNat 64 (n + 1) := by
      apply BitVec.eq_of_toNat_eq; simp [BitVec.toNat_add]; omega
    simp [State.setInPos, this]

/-- `InReadN(n)` where IN ends first. -/
theorem takeBytes_end {n : Nat} {s : State} (h : s.avail < n) (hb : s.inPos.toNat + n < 2 ^ 64) :
    takeBytes n s = .raised .truncatedInput (atEnd s) := by
  induction n generalizing s with
  | zero => omega
  | succ n ih =>
    rw [takeBytes]
    by_cases h0 : s.avail = 0
    · rw [takeByte_end h0, andThen_raised]
    · rw [takeByte_ok (by omega), andThen_ok]
      have ht : (s.inPos + 1#64).toNat = s.inPos.toNat + 1 := by
        rw [BitVec.toNat_add]; simp; omega
      rw [ih (by simp only [State.avail, setInPos_inp, setInPos_inPos, ht] at *; omega)
        (by simp only [setInPos_inPos, ht]; omega)]
      rfl

/-- Everything `InReadN(n)` can do: it moves the cursor, or raises TruncatedInput at the end of IN. -/
theorem takeBytes_cases (n : Nat) (s : State) :
    takeBytes n s = .ok (s.setInPos (s.inPos + BitVec.ofNat 64 n)) ∨
      takeBytes n s = .raised .truncatedInput (atEnd s) := by
  induction n generalizing s with
  | zero => left; simp [takeBytes, State.setInPos]
  | succ n ih =>
    rw [takeBytes]
    by_cases h0 : s.avail = 0
    · right; rw [takeByte_end h0, andThen_raised]
    · rw [takeByte_ok (by omega), andThen_ok]
      rcases ih (s.setInPos (s.inPos + 1#64)) with h | h
      · left
        have : s.inPos + 1#64 + BitVec.ofNat 64 n = s.inPos + BitVec.ofNat 64 (n + 1) := by
          apply BitVec.eq_of_toNat_eq; simp [BitVec.toNat_add]; omega
        rw [h]; simp [State.setInPos, this]
      · right; rw [h]; rfl

theorem inPos_toNat_add {p : BitVec 64} {n : Nat} (h : p.toNat + n < 2 ^ 64) :
    (p + BitVec.ofNat 64 n).toNat = p.toNat + n := by
  rw [BitVec.toNat_add, BitVec.toNat_ofNat]; omega

theorem outAppend_ok {s : State} {v : Byte} (h : s.outLen.toNat < s.declaredSize.toNat) :
    outAppend v s = .ok (s.append v) := if_pos h

theorem append_outLen_toNat {s : State} {v : Byte} (h : s.outLen.toNat < s.declaredSize.toNat) :
    (s.append v).outLen.toNat = s.outLen.toNat + 1 := by
  have := s.declaredSize.isLt
  simp only [append_outLen, BitVec.toNat_add, BitVec.toNat_ofNat]; omega

theorem append_dense {s : State} {v : Byte} (hd : OutDense s) (h : s.outLen.toNat < s.declaredSize.toNat) :
    OutDense (s.append v) := by
  unfold OutDense at *
  rw [append_outLen_toNat h, append_out, write_dense hd, List.map_append, hd, List.range_succ]
  simp

theorem append_outBytes {s : State} {v : Byte} (hd : OutDense s) : (s.append v).outBytes = s.outBytes ++ [v] := by
  simp [State.outBytes, write_dense hd]

theorem outBytes_length {s : State} (hd : OutDense s) : s.outBytes.length = s.outLen.toNat := by
  simp [State.outBytes, dense_length hd]

theorem read_outBytes {s : State} (hd : OutDense s) (a : Nat) : Memory.read s.out a = s.outBytes[a]? :=
  read_dense hd a

theorem outRead_dense {s : State} (hd : OutDense s) (a : Nat) : outRead a s = s.outBytes[a]? := by
  unfold outRead
  split
  · exact read_outBytes hd a
  · rw [List.getElem?_eq_none]; rw [outBytes_length hd]; omega

/-- Everything the copy engine can leave when it completes: `n` more bytes, all below `declared_size`, and no other
register or byte changed. -/
theorem copyBytes_ok {n a : Nat} {s t : State} (h : copyBytes n a s = .ok t) :
    t = { s with out := t.out, outLen := t.outLen } ∧ t.outLen.toNat = s.outLen.toNat + n ∧
      (0 < n → s.outLen.toNat + n ≤ s.declaredSize.toNat) ∧
      ∀ b, b < s.outLen.toNat ∨ s.outLen.toNat + n ≤ b → Memory.read t.out b = Memory.read s.out b := by
  induction n generalizing a s with
  | zero => simp only [copyBytes, Res.ok.injEq] at h; subst h; simp
  | succ n ih =>
    simp only [copyBytes] at h
    split at h
    · cases h
    · by_cases hroom : s.outLen.toNat < s.declaredSize.toNat
      · rw [outAppend_ok hroom, andThen_ok] at h
        obtain ⟨h1, h2, h3, h4⟩ := ih h
        rw [append_outLen_toNat hroom] at h2 h3 h4
        refine ⟨by rw [h1]; rfl, by omega, ?_, ?_⟩
        · intro _
          rcases Nat.eq_zero_or_pos n with hn | hn
          · omega
          · have := h3 hn; simp at this; omega
        · intro b hb
          rw [h4 b (by omega), append_out, read_write_other _ _ _ _ (by omega)]
      · rw [outAppend, if_neg hroom] at h; cases h

/-- The copy engine never raises an error and never refuses. -/
theorem copyBytes_not_raised (n a : Nat) (s : State) :
    (∃ t, copyBytes n a s = .ok t) ∨ ∃ f, copyBytes n a s = .fault f := by
  induction n generalizing a s with
  | zero => exact .inl ⟨s, rfl⟩
  | succ n ih =>
    simp only [copyBytes]
    split
    · exact .inr ⟨_, rfl⟩
    · simp only [outAppend]
      split
      · exact ih _ _
      · exact .inr ⟨_, rfl⟩

/-- From a dense output the copy engine completes, and appends what the reference copy appends (R166, R169). -/
theorem copyBytes_dense {n a : Nat} {s : State} (hd : OutDense s) (ha : a < s.outLen.toNat)
    (hn : n ≤ s.declaredSize.toNat - s.outLen.toNat) :
    ∃ t, copyBytes n a s = .ok t ∧ OutDense t ∧ t.outBytes = refCopy n a s.outBytes := by
  induction n generalizing a s with
  | zero => exact ⟨s, rfl, hd, rfl⟩
  | succ n ih =>
    have hroom : s.outLen.toNat < s.declaredSize.toNat := by omega
    have hl := outBytes_length hd
    have hv : outRead a s = some (s.outBytes[a]'(by omega)) := by
      rw [outRead_dense hd, List.getElem?_eq_getElem]
    obtain ⟨t, h1, h2, h3⟩ := ih (a := a + 1) (append_dense (v := s.outBytes[a]'(by omega)) hd hroom)
      (by rw [append_outLen_toNat hroom]; omega) (by rw [append_outLen_toNat hroom, append_declaredSize]; omega)
    refine ⟨t, ?_, h2, ?_⟩
    · simp only [copyBytes, hv]
      rw [outAppend_ok hroom, andThen_ok, h1]
    · rw [h3, append_outBytes hd, refCopy, List.getElem?_eq_getElem (by omega)]

theorem mod_succ_eq {i p : Nat} (hp : 0 < p) : (i + 1) % p = if i % p = p - 1 then 0 else i % p + 1 := by
  have hlt := Nat.mod_lt i hp
  rw [Nat.add_mod]
  rcases Nat.lt_or_ge 1 p with h | h
  · rw [Nat.mod_eq_of_lt h]
    split
    · rw [show i % p + 1 = p by omega, Nat.mod_self]
    · exact Nat.mod_eq_of_lt (by omega)
  · obtain rfl : p = 1 := by omega
    simp [Nat.mod_one]

/-- The closed form of a copy (R170): byte `i` of it is the old byte at `src + i mod p`, `p = len − src`. -/
theorem refCopy_spec {n src : Nat} {out : List Byte} (h : src < out.length) :
    (refCopy n src out).length = out.length + n ∧
      (∀ a < out.length, (refCopy n src out)[a]? = out[a]?) ∧
      ∀ i < n, (refCopy n src out)[out.length + i]? = out[src + i % (out.length - src)]? := by
  induction n generalizing src out with
  | zero => simp [refCopy]
  | succ n ih =>
    have hv : out[src]? = some (out[src]) := List.getElem?_eq_getElem h
    have hs : src + 1 < (out ++ [out[src]]).length := by simp; omega
    obtain ⟨h1, h2, h3⟩ := ih hs
    simp only [refCopy, hv]
    refine ⟨by rw [h1]; simp; omega, ?_, ?_⟩
    · intro a ha
      rw [h2 a (by simp; omega), List.getElem?_append_left ha]
    · intro i hi
      cases i with
      | zero =>
        rw [h2 _ (by simp)]
        simp [hv]
      | succ i =>
        have hp : 0 < out.length - src := by omega
        have hm := Nat.mod_lt i hp
        have := h3 i (by omega)
        rw [List.length_append, List.length_singleton,
          show out.length + 1 - (src + 1) = out.length - src by omega,
          show out.length + 1 + i = out.length + (i + 1) by omega] at this
        rw [this, mod_succ_eq hp]
        split
        · rw [show src + 1 + i % (out.length - src) = out.length by omega,
            List.getElem?_append_right (Nat.le_refl _)]
          simp [hv]
        · rw [List.getElem?_append_left (by omega)]
          congr 1; omega

end Sys2Proof.Laws
end

