-- ==== Sys2Proof/Laws/Exec.lean ====
section
/-! SUPPORT. One lemma per meaning that says everything it can do, and what each leaves unchanged. -/

namespace Sys2Proof.Laws

open Sys2Proof Sys2Proof.Machine Sys2Proof.Safety

/-- The cursor moved by `n`. -/
def advance (n : Nat) (s : State) : State := s.setInPos (s.inPos + BitVec.ofNat 64 n)

theorem takeBytes_eq (n : Nat) (s : State) (hb : s.inPos.toNat + n < 2 ^ 64) :
    takeBytes n s = if s.avail < n then .raised .truncatedInput (atEnd s) else .ok (advance n s) := by
  split
  · exact takeBytes_end ‹_› hb
  · exact takeBytes_ok (by omega)

theorem advance_avail {s : State} {n : Nat} (hb : s.inPos.toNat + n < 2 ^ 64) :
    (advance n s).avail = s.avail - n := by
  simp only [State.avail, advance, setInPos_inp, setInPos_inPos, inPos_toNat_add hb]; omega

theorem advance_toNat {s : State} {n : Nat} (hb : s.inPos.toNat + n < 2 ^ 64) :
    (advance n s).inPos.toNat = s.inPos.toNat + n := inPos_toNat_add hb

theorem advance_advance (m n : Nat) (s : State) : advance n (advance m s) = advance (m + n) s := by
  simp only [advance, State.setInPos]
  have : s.inPos + BitVec.ofNat 64 m + BitVec.ofNat 64 n = s.inPos + BitVec.ofNat 64 (m + n) := by
    apply BitVec.eq_of_toNat_eq; simp [BitVec.toNat_add, Nat.add_assoc]
  simp [this]

theorem atEnd_advance (n : Nat) (s : State) : atEnd (advance n s) = atEnd s := rfl

@[simp] theorem sourceStart_advance (d : BitVec 12) (n : Nat) (s : State) : sourceStart d (advance n s) = sourceStart d s :=
  rfl
@[simp] theorem copyCount_advance (len n : Nat) (s : State) : copyCount len (advance n s) = copyCount len s := rfl

/-! ### CTRL, END -/

theorem execCtrl_eq (c : Byte) (s : State) :
    execCtrl c s = if s.avail = 0 then .next ((atEnd s).errorEntry .truncatedInput)
      else .next ((advance 1 s).loadControl c) := by
  unfold execCtrl
  split
  · rw [takeByte_end ‹_›]; rfl
  · rw [takeByte_ok (by omega)]; rfl

theorem execEndDecode_eq (s : State) : execEndDecode s = .next (s.setPhase .done) := rfl

/-! ### LIT -/

theorem completeOp_eq (s : State) : completeOp s =
    if s.bitsRemaining = 0#4 then .fault .bitCountOutOfRange else .ok (s.setBits (s.bitsRemaining - 1#4)) := rfl

theorem execLit_eq (v : Byte) (s : State) :
    execLit v s = if s.avail = 0 then .next ((atEnd s).errorEntry .truncatedInput)
      else if s.outLen.toNat < s.declaredSize.toNat then
        if s.bitsRemaining = 0#4 then .fault .bitCountOutOfRange
        else .next (((advance 1 s).append v).setBits (s.bitsRemaining - 1#4))
      else .fault (.appendOutsideBuffer s.outLen.toNat) := by
  unfold execLit
  split
  · rw [takeByte_end ‹_›]; rfl
  · rw [takeByte_ok (by omega), andThen_ok]
    by_cases hroom : s.outLen.toNat < s.declaredSize.toNat
    · rw [outAppend_ok (s := s.setInPos (s.inPos + 1#64)) hroom, andThen_ok, completeOp_eq, if_pos hroom]
      by_cases hz : s.bitsRemaining = 0#4
      · rw [if_pos hz, if_pos (show ((s.setInPos (s.inPos + 1#64)).append v).bitsRemaining = 0#4 from hz)]; rfl
      · rw [if_neg hz, if_neg (show ¬((s.setInPos (s.inPos + 1#64)).append v).bitsRemaining = 0#4 from hz)]; rfl
    · rw [outAppend, if_neg (show ¬(s.setInPos (s.inPos + 1#64)).outLen.toNat < (s.setInPos (s.inPos + 1#64)).declaredSize.toNat from hroom),
        if_neg hroom]
      rfl

/-! ### Back-references -/

theorem sourceStart_none {d : BitVec 12} {s : State} : sourceStart d s = none ↔ s.outLen.toNat < backwardOffset d := by
  unfold sourceStart; split <;> simp [*]

theorem sourceStart_some {d : BitVec 12} {s : State} (h : backwardOffset d ≤ s.outLen.toNat) :
    sourceStart d s = some (s.outLen.toNat - backwardOffset d) := if_neg (by omega)

/-- Everything the shared back-reference can do, in the order of R160. -/
theorem backReference_eq (d : BitVec 12) (x len : Nat) (s : State) (hb : s.inPos.toNat + (2 + x) < 2 ^ 64) :
    backReference d x len s =
      if s.avail < 2 then .raised .truncatedInput (atEnd s)
      else if s.outLen.toNat < backwardOffset d then .raised .invalidBackReference (advance 2 s)
      else if s.avail < 2 + x then .raised .truncatedInput (atEnd s)
      else (copyBytes (copyCount len s) (s.outLen.toNat - backwardOffset d) (advance (2 + x) s)).andThen completeOp := by
  unfold backReference
  rw [takeBytes_eq 2 s (by omega)]
  split
  · rfl
  · rw [andThen_ok, sourceStart_advance]
    by_cases hs : s.outLen.toNat < backwardOffset d
    · rw [sourceStart_none.2 hs, if_pos hs]
    · rw [sourceStart_some (by omega), if_neg hs]
      simp only []
      rw [takeBytes_eq x _ (by rw [advance_toNat (by omega)]; omega), advance_avail (by omega)]
      by_cases ha : s.avail < 2 + x
      · rw [if_pos (by omega), if_pos ha, andThen_raised, atEnd_advance]
      · rw [if_neg (by omega), if_neg ha, andThen_ok, advance_advance, copyCount_advance]

/-- What a back-reference can leave: an error with nothing appended, or a completed copy. -/
theorem backReference_next {d : BitVec 12} {x len : Nat} {s t : State}
    (h : (backReference d x len s).outcome = .next t) :
    t = (atEnd s).errorEntry .truncatedInput ∨
      (s.outLen.toNat < backwardOffset d ∧ t = (advance 2 s).errorEntry .invalidBackReference) ∨
      ∃ u, backwardOffset d ≤ s.outLen.toNat ∧
        copyBytes (copyCount len s) (s.outLen.toNat - backwardOffset d) (advance (2 + x) s) = .ok u ∧
        s.bitsRemaining ≠ 0#4 ∧ t = u.setBits (s.bitsRemaining - 1#4) := by
  unfold backReference at h
  rcases takeBytes_cases 2 s with h2 | h2
  · rw [h2, andThen_ok, show s.setInPos (s.inPos + BitVec.ofNat 64 2) = advance 2 s from rfl, sourceStart_advance] at h
    by_cases hs : s.outLen.toNat < backwardOffset d
    · rw [sourceStart_none.2 hs] at h
      simp only [outcome_raised, Host.Outcome.next.injEq] at h
      exact .inr (.inl ⟨hs, h.symm⟩)
    · rw [sourceStart_some (by omega)] at h
      simp only [] at h
      rcases takeBytes_cases x (advance 2 s) with hx | hx
      · change takeBytes x (advance 2 s) = .ok (advance x (advance 2 s)) at hx
        rw [hx, andThen_ok, advance_advance, copyCount_advance] at h
        rcases copyBytes_not_raised (copyCount len s) (s.outLen.toNat - backwardOffset d) (advance (2 + x) s) with
          ⟨u, hu⟩ | ⟨f, hf⟩
        · have hbits : u.bitsRemaining = s.bitsRemaining := by
            rw [(copyBytes_ok hu).1]; rfl
          rw [hu, andThen_ok, completeOp_eq, hbits] at h
          split at h
          · cases h
          · simp only [outcome_ok, Host.Outcome.next.injEq] at h
            exact .inr (.inr ⟨u, by omega, hu, ‹_›, h.symm⟩)
        · rw [hf] at h; cases h
      · rw [hx, atEnd_advance] at h
        simp only [andThen_raised, outcome_raised, Host.Outcome.next.injEq] at h
        exact .inl h.symm
  · rw [h2] at h
    simp only [andThen_raised, outcome_raised, Host.Outcome.next.injEq] at h
    exact .inl h.symm

/-- A completed copy from a dense output, in the terms of R166 and R170. -/
theorem copyResult_of_dense {d : BitVec 12} {used len : Nat} {s : State} (hd : OutDense s)
    (hr : backwardOffset d ≤ s.outLen.toNat) :
    ∃ u, copyBytes (copyCount len s) (s.outLen.toNat - backwardOffset d) (advance used s) = .ok u ∧ OutDense u ∧
      u.outBytes = refCopy (copyCount len s) (s.outLen.toNat - backwardOffset d) s.outBytes ∧
      CopyResult d len used s (u.setBits (s.bitsRemaining - 1#4)) := by
  have hp : 0 < backwardOffset d := by unfold backwardOffset; omega
  obtain ⟨u, h1, h2, h3⟩ := copyBytes_dense (n := copyCount len s) (a := s.outLen.toNat - backwardOffset d)
    (s := advance used s) hd (by change _ < s.outLen.toNat; omega) (by
      change _ ≤ s.declaredSize.toNat - s.outLen.toNat; unfold copyCount; omega)
  change u.outBytes = refCopy (copyCount len s) _ s.outBytes at h3
  refine ⟨u, h1, h2, h3, ?_⟩
  obtain ⟨e1, e2, -, e4⟩ := copyBytes_ok h1
  have hl := outBytes_length hd
  obtain ⟨-, r2, r3⟩ := refCopy_spec (n := copyCount len s) (src := s.outLen.toNat - backwardOffset d)
    (out := s.outBytes) (by omega)
  refine ⟨?_, ?_, ?_, ?_, ?_, ?_, ?_, ?_, rfl, ?_, ?_, ?_⟩
  iterate 8 (rw [e1]; rfl)
  · exact e2
  · intro i hi
    change Memory.read u.out _ = _
    have := r3 i hi
    rw [hl, show s.outLen.toNat - (s.outLen.toNat - backwardOffset d) = backwardOffset d by omega] at this
    rw [read_outBytes h2, read_outBytes hd, h3, this]
  · intro a ha
    exact e4 a ha

/-! ### HDR -/

theorem execHdr_eq (m : Tag) (n : BitVec 32) (r : BitVec 64) (s : State) (hb : s.inPos.toNat + 16 < 2 ^ 64) :
    execHdr m n r s =
      if s.avail < 4 then .next ((atEnd s).errorEntry .truncatedInput)
      else if m ∉ s.cfg.magicSet then .next ((advance 4 s).errorEntry .formatMismatch)
      else if s.avail < 8 then .next ((atEnd s).errorEntry .truncatedInput)
      else if s.avail < 16 then .next (((atEnd s).setDeclaredSize n).errorEntry .truncatedInput)
      else if s.cfg.maxOut < n then .refused .outputTooLarge
      else .next (((advance 16 s).setDeclaredSize n).setPhase .run) := by
  unfold execHdr
  rw [takeBytes_eq 4 s (by omega)]
  by_cases h4 : s.avail < 4
  · simp [h4]
  · rw [if_neg h4, if_neg h4, andThen_ok, checkMagic]
    change (Res.andThen (if m ∈ s.cfg.magicSet then _ else _) _).outcome = _
    by_cases hm : m ∈ s.cfg.magicSet
    · rw [if_pos hm, if_neg (by simpa using hm), andThen_ok, takeBytes_eq 4 _ (by rw [advance_toNat (by omega)]; omega),
        advance_avail (by omega)]
      by_cases h8 : s.avail < 8
      · rw [if_pos (by omega), if_pos h8]; rfl
      · rw [if_neg (by omega), if_neg h8, andThen_ok, advance_advance]
        have ha : ((advance (4 + 4) s).setDeclaredSize n).avail = s.avail - 8 := advance_avail (s := s) (n := 8) (by omega)
        rw [takeBytes_eq 8 _ (by
          change (advance 8 s).inPos.toNat + 8 < _; rw [advance_toNat (by omega)]; omega), ha]
        by_cases h16 : s.avail < 16
        · rw [if_pos (by omega), if_pos h16]; rfl
        · rw [if_neg (by omega), if_neg h16, andThen_ok, checkCapacity]
          have h16' : advance 8 ((advance (4 + 4) s).setDeclaredSize n) = (advance 16 s).setDeclaredSize n := by
            rw [← advance_advance 8 8 s]; rfl
          rw [h16']
          change (Res.andThen (if s.cfg.maxOut < n then _ else _) _).outcome = _
          split <;> rfl
    · rw [if_neg hm, if_pos (by simpa using hm)]; rfl

/-- What HDR can leave. -/
theorem execHdr_next {m : Tag} {n : BitVec 32} {r : BitVec 64} {s t : State} (h : execHdr m n r s = .next t) :
    (∃ z, (z = n ∨ z = s.declaredSize) ∧ t = ((atEnd s).setDeclaredSize z).errorEntry .truncatedInput) ∨
      (m ∉ s.cfg.magicSet ∧ t = (advance 4 s).errorEntry .formatMismatch) ∨
      (m ∈ s.cfg.magicSet ∧ n.toNat ≤ s.cfg.maxOut.toNat ∧ t = ((advance 16 s).setDeclaredSize n).setPhase .run) := by
  unfold execHdr at h
  rcases takeBytes_cases 4 s with h4 | h4
  · change takeBytes 4 s = .ok (advance 4 s) at h4
    rw [h4, andThen_ok, checkMagic] at h
    by_cases hm : m ∈ s.cfg.magicSet
    · rw [if_pos (show m ∈ (advance 4 s).cfg.magicSet from hm), andThen_ok] at h
      rcases takeBytes_cases 4 (advance 4 s) with h8 | h8
      · change takeBytes 4 (advance 4 s) = .ok (advance 4 (advance 4 s)) at h8
        rw [h8, andThen_ok, advance_advance] at h
        rcases takeBytes_cases 8 ((advance (4 + 4) s).setDeclaredSize n) with h16 | h16
        · have e : ((advance (4 + 4) s).setDeclaredSize n).setInPos
              (((advance (4 + 4) s).setDeclaredSize n).inPos + BitVec.ofNat 64 8) = (advance 16 s).setDeclaredSize n := by
            rw [← advance_advance 8 8 s]; rfl
          rw [h16, e, andThen_ok, checkCapacity] at h
          by_cases hc : s.cfg.maxOut < n
          · rw [if_pos (show ((advance 16 s).setDeclaredSize n).cfg.maxOut < ((advance 16 s).setDeclaredSize n).declaredSize
              from hc)] at h
            cases h
          · rw [if_neg (show ¬((advance 16 s).setDeclaredSize n).cfg.maxOut < ((advance 16 s).setDeclaredSize n).declaredSize
              from hc)] at h
            simp only [andThen_ok, outcome_ok, Host.Outcome.next.injEq] at h
            refine .inr (.inr ⟨hm, ?_, h.symm⟩)
            rw [BitVec.lt_def] at hc; omega
        · rw [h16] at h
          simp only [andThen_raised, outcome_raised, Host.Outcome.next.injEq] at h
          exact .inl ⟨n, .inl rfl, h.symm⟩
      · rw [h8] at h
        simp only [andThen_raised, outcome_raised, Host.Outcome.next.injEq] at h
        exact .inl ⟨s.declaredSize, .inr rfl, h.symm⟩
    · rw [if_neg (show m ∉ (advance 4 s).cfg.magicSet from hm)] at h
      simp only [andThen_raised, outcome_raised, Host.Outcome.next.injEq] at h
      exact .inr (.inl ⟨hm, h.symm⟩)
  · rw [h4] at h
    simp only [andThen_raised, outcome_raised, Host.Outcome.next.injEq] at h
    exact .inl ⟨s.declaredSize, .inr rfl, h.symm⟩

end Sys2Proof.Laws
end

