-- ==== Sys2Proof/Laws/Step.lean ====
section
/-! SUPPORT. The fetch, the selection and the step, each said once. -/

namespace Sys2Proof.Laws

open Sys2Proof Sys2Proof.Machine Sys2Proof.Safety

/-- Where the bytes at the cursor decode, the fetch runs what they decode to. -/
theorem execFetched_of_decode {c : Context} {s : State} {i : Instr} {r : List Byte}
    (h : decode c (rest s) = .ok (i, r)) : execFetched c s = exec i s := by
  obtain ⟨r', hr⟩ := decode_padTo h
  unfold execFetched fetchWindow
  rw [show decode c (padTo maxInstrLength (s.inp.drop s.inPos.toNat)) = .ok (i, r') from hr]

/-- The decoder accepts every list as long as the longest instruction. -/
theorem decode_full {c : Context} {w : List Byte} (h : w.length = 16) :
    ∃ i r, decode c w = .ok (i, r) ∧ i.context = c ∧ i.wf = true := by
  match w, h with
  | [w0, w1, w2, w3, w4, w5, w6, w7, w8, w9, w10, w11, w12, w13, w14, w15], _ =>
    cases c
    · exact ⟨_, _, rfl, rfl, rfl⟩
    · exact ⟨_, _, rfl, rfl, rfl⟩
    · exact ⟨_, _, rfl, rfl, rfl⟩
    · exact ⟨_, _, rfl, rfl, rfl⟩
    · simp only [decode, decodeBackRef]
      split
      · exact ⟨_, _, rfl, rfl, rfl⟩
      · exact ⟨_, _, rfl, rfl, by simpa [Instr.wf] using ‹_›⟩

/-- The fetch always runs some instruction of its context. -/
theorem execFetched_exec (c : Context) (s : State) :
    ∃ i, i.context = c ∧ i.wf = true ∧ execFetched c s = exec i s := by
  obtain ⟨i, r, h, hc, hw⟩ := decode_full (c := c) (w := fetchWindow s) (padTo_length _ _)
  exact ⟨i, hc, hw, by unfold execFetched; rw [h]⟩

theorem rest_length (s : State) : (rest s).length = s.avail := by simp [rest, State.avail]

theorem step_eq (s : State) : step s =
    match select s with
    | .nothing => .next s
    | .noFlagBit => .fault .bitCountOutOfRange
    | .item c => if s.cfg.inOutOverlap then .refused .inOutOverlap else runItem c s := rfl

theorem flagBit_some {s : State} (h1 : 1 ≤ s.bitsRemaining.toNat) (h8 : s.bitsRemaining.toNat ≤ 8) :
    flagBit s = some (s.controlByte.getLsbD (s.bitsRemaining.toNat - 1)) := if_pos ⟨h1, h8⟩

/-- With a flag bit, the operation is a literal or a back-reference. -/
theorem runOp_eq {s : State} (h1 : 1 ≤ s.bitsRemaining.toNat) (h8 : s.bitsRemaining.toNat ≤ 8) :
    runOp s = if s.controlByte.getLsbD (s.bitsRemaining.toNat - 1) then execFetched .literal s
      else execFetched .backRef s := by
  unfold runOp selectOp
  rw [flagBit_some h1 h8]
  cases s.controlByte.getLsbD (s.bitsRemaining.toNat - 1) <;> rfl

/-- Every item but CTRL is a whole step. -/
theorem runItem_of_ne_control {c : Context} (s : State) (h : c ≠ .control) : runItem c s = execFetched c s := by
  cases c <;> first | rfl | exact absurd rfl h

/-- Fetching and running a control byte that is there. -/
theorem execFetched_control {s : State} {b : Byte} {r : List Byte} (hr : rest s = b :: r) :
    execFetched .control s = .next ((advance 1 s).loadControl b) := by
  rw [execFetched_of_decode (r := r) (i := .ctrl b) (by rw [hr]; rfl)]
  show execCtrl b s = _
  rw [execCtrl_eq, if_neg]
  rw [← rest_length, hr]; simp

/-- What HDR's fetch decodes, as far as IN has the bytes. -/
theorem execFetched_header {s : State} {m0 m1 m2 m3 : Byte} {tl : List Byte} (h : rest s = m0 :: m1 :: m2 :: m3 :: tl) :
    ∃ n r, execFetched .header s = execHdr ⟨m0, m1, m2, m3⟩ n r s ∧
      ∀ s0 s1 s2 s3 q, tl = s0 :: s1 :: s2 :: s3 :: q → n = be32 s0 s1 s2 s3 := by
  unfold execFetched fetchWindow
  rw [show s.inp.drop s.inPos.toNat = _ from h]
  simp only [maxInstrLength, padTo]
  have hl := padTo_length 12 tl
  have hp : ∀ s0 s1 s2 s3 q, tl = s0 :: s1 :: s2 :: s3 :: q → ∃ w, padTo 12 tl = s0 :: s1 :: s2 :: s3 :: w := by
    rintro s0 s1 s2 s3 q rfl; exact ⟨_, rfl⟩
  generalize padTo 12 tl = w at *
  match w, hl with
  | [w4, w5, w6, w7, w8, w9, w10, w11, w12, w13, w14, w15], _ =>
    refine ⟨be32 w4 w5 w6 w7, be64 w8 w9 w10 w11 w12 w13 w14 w15, rfl, ?_⟩
    intro s0 s1 s2 s3 q hq
    obtain ⟨w', hw⟩ := hp _ _ _ _ _ hq
    simp only [List.cons.injEq] at hw
    obtain ⟨rfl, rfl, rfl, rfl, -⟩ := hw
    rfl

/-- The step in HEADER. -/
theorem step_in_header {s : State} (h : s.phase = .header) (ho : s.cfg.inOutOverlap = false) :
    step s = execFetched .header s := by
  rw [step_eq]; simp [select, h, ho, runItem]

/-- The loop test (R130). -/
theorem select_eq_finish (s : State) : select s = .item .finish ↔ s.phase = .run ∧ s.outLen = s.declaredSize := by
    unfold select
    split
    · simp_all
    · simp_all
    · split
      · simp_all
      · split
        · simp_all
        · unfold selectOp; split <;> simp_all
    · simp_all
    · simp_all

/-- Running END. -/
theorem execFetched_finish (s : State) : execFetched .finish s = .next { s with phase := .done } := rfl

/-- What a back-reference's fetch decodes, once both descriptor bytes are there. -/
theorem execFetched_backRef {s : State} {b0 b1 : Byte} {more : List Byte} (h : rest s = b0 :: b1 :: more) :
    (b0.toNat >>> 4 ≠ 0 ∧ execFetched .backRef s = execBrefShort (highNibble b0) (distanceField b0 b1) s) ∨
    (b0.toNat >>> 4 = 0 ∧ ∃ e, execFetched .backRef s = execBrefLong (distanceField b0 b1) e s ∧
      ∀ b2 q, more = b2 :: q → e = b2) := by
  rw [shiftRight_eq_highNibble]
  by_cases hn : highNibble b0 = 0#4
  · right
    refine ⟨by rw [hn]; rfl, ?_⟩
    unfold execFetched fetchWindow
    rw [show s.inp.drop s.inPos.toNat = _ from h]
    cases more with
    | nil => exact ⟨0#8, by simp [maxInstrLength, padTo, decode, decodeBackRef, hn, exec], by simp⟩
    | cons b2 q => simp [maxInstrLength, padTo, decode, decodeBackRef, hn, exec]
  · left
    refine ⟨fun hc => hn (BitVec.eq_of_toNat_eq hc), ?_⟩
    unfold execFetched fetchWindow
    rw [show s.inp.drop s.inPos.toNat = _ from h]
    simp [maxInstrLength, padTo, decode, decodeBackRef, hn, exec]

end Sys2Proof.Laws
end

