-- ==== Sys2Proof/Laws/Iteration.lean ====
section
/-! SUPPORT. What one operation and one whole step can do, each said once: an operation from a state ready for it either
completes or raises an error, exactly as the loop body of the reference decode (R200) says. -/

namespace Sys2Proof.Laws

open Sys2Proof Sys2Proof.Machine Sys2Proof.Safety

/-- A state in which an operation's flag bit is selected, as R137 has it after the loop test and any CTRL. -/
structure OpReady (u : State) : Prop where
  run : u.phase = .run
  dense : OutDense u
  bits1 : 1 ≤ u.bitsRemaining.toNat
  bits8 : u.bitsRemaining.toNat ≤ 8
  room : u.outLen.toNat < u.declaredSize.toNat
  inIn : u.inPos.toNat ≤ u.inp.length
  noWrap : u.inPos.toNat < 2 ^ 40

/-- What a completed operation leaves: the cursor at `pos`, the output `out`. -/
structure OpDone (u t : State) (pos : Nat) (out : List Byte) : Prop where
  regs : t = { u with out := t.out, outLen := t.outLen, inPos := t.inPos, bitsRemaining := u.bitsRemaining - 1#4 }
  pos_eq : t.inPos.toNat = pos
  pos_gt : u.inPos.toNat < pos
  pos_le : pos ≤ u.inPos.toNat + 3
  pos_in : pos ≤ u.inp.length
  dense : OutDense t
  out_eq : t.outBytes = out
  grows : u.outLen.toNat < t.outLen.toNat
  fits : t.outLen.toNat ≤ u.declaredSize.toNat
  kept : ∀ a < u.outLen.toNat, Memory.read t.out a = Memory.read u.out a

/-- What an operation that raises an error leaves. -/
structure OpError (u t : State) (k : ErrorKind) (p : Nat) : Prop where
  regs : t = (u.setInPos (BitVec.ofNat 64 p)).errorEntry k
  pos_ge : u.inPos.toNat ≤ p
  pos_le : p ≤ u.inPos.toNat + 3
  pos_in : p ≤ u.inp.length
  cause : (k = .truncatedInput ∧ p = u.inp.length) ∨
    (k = .invalidBackReference ∧ p = u.inPos.toNat + 2 ∧ ∃ b0 b1, u.inp[u.inPos.toNat]? = some b0 ∧
      u.inp[u.inPos.toNat + 1]? = some b1 ∧ u.outLen.toNat ≤ (distanceField b0 b1).toNat)

theorem rest_getElem? (u : State) (k : Nat) : (rest u)[k]? = u.inp[u.inPos.toNat + k]? := by
  simp [rest]

theorem advance_done {u : State} (h : OpReady u) {n : Nat} (hn : n ≤ 16) :
    (advance n u).inPos.toNat = u.inPos.toNat + n :=
  advance_toNat (by have := h.noWrap; omega)

theorem atEnd_error {u : State} (h : OpReady u) (ha : u.avail ≤ 3) :
    OpError u ((atEnd u).errorEntry .truncatedInput) .truncatedInput u.inp.length := by
  have := h.inIn
  exact ⟨rfl, by omega, by unfold State.avail at ha; omega, Nat.le_refl _, .inl ⟨rfl, rfl⟩⟩

/-- A completed copy is a completed operation. -/
theorem copy_done {u : State} (h : OpReady u) {d : BitVec 12} {used len : Nat} (hu : used ≤ 3) (h1 : 1 ≤ used)
    (ha : used ≤ u.avail) (hl : 1 ≤ len) (hr : backwardOffset d ≤ u.outLen.toNat) :
    ∃ v, copyBytes (copyCount len u) (u.outLen.toNat - backwardOffset d) (advance used u) = .ok v ∧
      OpDone u (v.setBits (u.bitsRemaining - 1#4)) (u.inPos.toNat + used)
        (refCopy (min len (u.declaredSize.toNat - u.outBytes.length)) (u.outBytes.length - backwardOffset d) u.outBytes) := by
  obtain ⟨v, e, dv, ov, res⟩ := copyResult_of_dense (d := d) (used := used) (len := len) h.dense hr
  have hlen := outBytes_length h.dense
  have hav : u.avail = u.inp.length - u.inPos.toNat := rfl
  refine ⟨v, e, ?_⟩
  have hroom := h.room
  refine ⟨?_, ?_, by omega, by omega, by omega, dv, ?_, ?_, ?_, fun a ha => res.kept a (.inl ha)⟩
  · rw [(copyBytes_ok e).1]; rfl
  · rw [res.inPos]; exact advance_done h (by omega)
  · show v.outBytes = _; rw [ov, hlen]; rfl
  · rw [res.outLen]; unfold copyCount; omega
  · rw [res.outLen]; unfold copyCount; omega

/-- An operation does what the reference's loop body does, and is total (R137, R150, R160, R200). -/
theorem runOp_refOp {u : State} (h : OpReady u) :
    match refOp u.inp u.declaredSize.toNat u.inPos.toNat u.outBytes
      (u.controlByte.getLsbD (u.bitsRemaining.toNat - 1)) with
    | .ok (pos, out) => ∃ t, runOp u = .next t ∧ OpDone u t pos out
    | .error (k, p) => ∃ t, runOp u = .next t ∧ OpError u t k p := by
  have hb : u.bitsRemaining ≠ 0#4 := by intro hc; have := h.bits1; rw [hc] at this; simp at this
  have hnw := h.noWrap
  have hin := h.inIn
  have hlen := outBytes_length h.dense
  have hav : u.avail = u.inp.length - u.inPos.toNat := rfl
  have g0 := rest_getElem? u 0
  have g1 := rest_getElem? u 1
  have g2 := rest_getElem? u 2
  have hrl := rest_length u
  rw [runOp_eq h.bits1 h.bits8]
  cases hf : u.controlByte.getLsbD (u.bitsRemaining.toNat - 1)
  · -- back-reference
    simp only [refOp, Bool.false_eq_true, if_false]
    match hr : rest u with
    | [] =>
      rw [hr] at g0 hrl
      simp only [Nat.add_zero] at g0
      rw [← g0]
      obtain ⟨i, hc, -, he⟩ := execFetched_exec .backRef u
      have : execFetched .backRef u = .next ((atEnd u).errorEntry .truncatedInput) := by
        rw [he]
        cases i with
        | brefShort n d =>
          show (backReference _ _ _ u).outcome = _
          rw [backReference_eq _ _ _ _ (by omega), if_pos (by simp at hrl; omega)]; rfl
        | brefLong d e =>
          show (backReference _ _ _ u).outcome = _
          rw [backReference_eq _ _ _ _ (by omega), if_pos (by simp at hrl; omega)]; rfl
        | _ => cases hc
      exact ⟨_, this, atEnd_error h (by simp at hrl; omega)⟩
    | [b0] =>
      rw [hr] at g1 hrl
      rw [← g1]
      obtain ⟨i, hc, -, he⟩ := execFetched_exec .backRef u
      have : execFetched .backRef u = .next ((atEnd u).errorEntry .truncatedInput) := by
        rw [he]
        cases i with
        | brefShort n d =>
          show (backReference _ _ _ u).outcome = _
          rw [backReference_eq _ _ _ _ (by omega), if_pos (by simp at hrl; omega)]; rfl
        | brefLong d e =>
          show (backReference _ _ _ u).outcome = _
          rw [backReference_eq _ _ _ _ (by omega), if_pos (by simp at hrl; omega)]; rfl
        | _ => cases hc
      have h2 : OpError u ((atEnd u).errorEntry .truncatedInput) .truncatedInput u.inp.length :=
        atEnd_error h (by simp at hrl; omega)
      split
      · rename_i heq; split at heq <;> simp_all
      · rename_i heq
        split at heq
        · simp_all
        · cases heq; exact ⟨_, this, h2⟩
    | b0 :: b1 :: more =>
      rw [hr] at g0 g1 g2 hrl
      simp only [Nat.add_zero, List.getElem?_cons_zero, List.getElem?_cons_succ] at g0 g1 g2
      rw [← g0, ← g1]
      simp only []
      rw [← distanceField_toNat, ← g2]
      have ha2 : ¬u.avail < 2 := by simp at hrl; omega
      rcases execFetched_backRef hr with ⟨hn, he⟩ | ⟨hn, e, he, hb2⟩
      · rw [he, if_pos hn]
        have hE := backReference_eq (distanceField b0 b1) 0 (shortCopyLength (highNibble b0)) u (by omega)
        rw [if_neg ha2] at hE
        by_cases hd : u.outBytes.length < (distanceField b0 b1).toNat + 1
        · rw [if_pos hd]
          rw [if_pos (by unfold backwardOffset; omega)] at hE
          refine ⟨(advance 2 u).errorEntry .invalidBackReference,
            by show (backReference _ _ _ u).outcome = _; rw [hE]; rfl, ?_⟩
          refine ⟨?_, by omega, by omega, by omega, .inr ⟨rfl, rfl, b0, b1, g0.symm, g1.symm, by omega⟩⟩
          rw [show BitVec.ofNat 64 (u.inPos.toNat + 2) = u.inPos + BitVec.ofNat 64 2 from by
            apply BitVec.eq_of_toNat_eq; simp]
          rfl
        · rw [if_neg hd]
          rw [if_neg (by unfold backwardOffset; omega), if_neg ha2] at hE
          obtain ⟨v, hv, hdone⟩ := copy_done h (d := distanceField b0 b1) (used := 2)
            (len := shortCopyLength (highNibble b0)) (by omega) (by omega) (by omega) (by unfold shortCopyLength; omega)
            (by unfold backwardOffset; omega)
          have hvb : v.bitsRemaining = u.bitsRemaining := by rw [(copyBytes_ok hv).1]; rfl
          refine ⟨v.setBits (u.bitsRemaining - 1#4), ?_, by rw [shiftRight_eq_highNibble]; exact hdone⟩
          show (backReference _ _ _ u).outcome = _
          rw [hE, show (2 + 0 : Nat) = 2 from rfl, hv, andThen_ok, completeOp_eq, hvb, if_neg hb]; rfl
      · rw [he]
        have hE := backReference_eq (distanceField b0 b1) 1 (longCopyLength e) u (by omega)
        rw [if_neg ha2] at hE
        by_cases hd : u.outBytes.length < (distanceField b0 b1).toNat + 1
        · rw [if_pos hd]
          rw [if_pos (by unfold backwardOffset; omega)] at hE
          refine ⟨(advance 2 u).errorEntry .invalidBackReference,
            by show (backReference _ _ _ u).outcome = _; rw [hE]; rfl, ?_⟩
          refine ⟨?_, by omega, by omega, by omega, .inr ⟨rfl, rfl, b0, b1, g0.symm, g1.symm, by omega⟩⟩
          rw [show BitVec.ofNat 64 (u.inPos.toNat + 2) = u.inPos + BitVec.ofNat 64 2 from by
            apply BitVec.eq_of_toNat_eq; simp]
          rfl
        · rw [if_neg hd, if_neg (by simpa using hn)]
          rw [if_neg (by unfold backwardOffset; omega)] at hE
          cases more with
          | nil =>
            simp only [List.getElem?_nil]
            rw [if_pos (by simp at hrl; omega)] at hE
            exact ⟨(atEnd u).errorEntry .truncatedInput, by show (backReference _ _ _ u).outcome = _; rw [hE]; rfl,
              atEnd_error h (by simp at hrl; omega)⟩
          | cons b2 q =>
            obtain rfl := hb2 b2 q rfl
            simp only [List.getElem?_cons_zero]
            have ha3 : ¬u.avail < 2 + 1 := by simp at hrl; omega
            rw [if_neg ha3] at hE
            obtain ⟨v, hv, hdone⟩ := copy_done h (d := distanceField b0 b1) (used := 3)
              (len := longCopyLength e) (by omega) (by omega) (by omega) (by unfold longCopyLength; omega)
              (by unfold backwardOffset; omega)
            have hvb : v.bitsRemaining = u.bitsRemaining := by rw [(copyBytes_ok hv).1]; rfl
            refine ⟨v.setBits (u.bitsRemaining - 1#4), ?_, hdone⟩
            show (backReference _ _ _ u).outcome = _
            rw [hE, show (2 + 1 : Nat) = 3 from rfl, hv, andThen_ok, completeOp_eq, hvb, if_neg hb]; rfl
  · -- literal
    simp only [refOp, if_true]
    match hr : rest u with
    | [] =>
      rw [hr] at g0 hrl
      simp only [Nat.add_zero] at g0
      rw [← g0]
      obtain ⟨i, hc, -, he⟩ := execFetched_exec .literal u
      have : execFetched .literal u = .next ((atEnd u).errorEntry .truncatedInput) := by
        rw [he]
        cases i with
        | lit v => show execLit v u = _; rw [execLit_eq, if_pos (by simp at hrl; omega)]
        | _ => cases hc
      exact ⟨_, this, atEnd_error h (by simp at hrl; omega)⟩
    | l :: more =>
      rw [hr] at g0 hrl
      simp only [Nat.add_zero, List.getElem?_cons_zero] at g0
      rw [← g0]
      rw [execFetched_of_decode (i := .lit l) (r := more) (by rw [hr]; rfl)]
      refine ⟨((advance 1 u).append l).setBits (u.bitsRemaining - 1#4), ?_, ?_⟩
      · show execLit l u = _
        rw [execLit_eq, if_neg (by simp at hrl; omega), if_pos h.room, if_neg hb]
      · have hd : OutDense ((advance 1 u).append l) := append_dense (s := advance 1 u) h.dense h.room
        have hlenA : ((advance 1 u).append l).outLen.toNat = u.outLen.toNat + 1 :=
          append_outLen_toNat (s := advance 1 u) h.room
        have hroom := h.room
        refine ⟨rfl, advance_done h (by omega), by omega, by omega, by simp at hrl; omega, hd,
          append_outBytes (s := advance 1 u) h.dense, ?_, ?_, ?_⟩
        · show _ < ((advance 1 u).append l).outLen.toNat; omega
        · show ((advance 1 u).append l).outLen.toNat ≤ _; omega
        · intro a ha
          exact read_write_other _ _ _ _ (show a ≠ u.outLen.toNat by omega)

/-- An operation completes or raises an error. -/
theorem runOp_cases {u : State} (h : OpReady u) :
    ∃ t, runOp u = .next t ∧ ((∃ pos out, OpDone u t pos out) ∨ ∃ k p, OpError u t k p) := by
  have := runOp_refOp h
  split at this
  · obtain ⟨t, h1, h2⟩ := this; exact ⟨t, h1, .inl ⟨_, _, h2⟩⟩
  · obtain ⟨t, h1, h2⟩ := this; exact ⟨t, h1, .inr ⟨_, _, h2⟩⟩

/-- The state after a control byte `c` was fetched. -/
def afterControl (c : Byte) (s : State) : State := (advance 1 s).loadControl c

/-- What a step in RUN with the output not full can do: the operation of a flag bit that is left; or a missing control
byte; or a control byte and then its first operation (R137). -/
theorem step_iteration {s : State} (hi : Inv s) (hr : s.phase = .run) (hf : s.outLen ≠ s.declaredSize)
    (ho : s.cfg.inOutOverlap = false) :
    (s.bitsRemaining ≠ 0#4 ∧ OpReady s ∧ step s = runOp s) ∨
    (s.bitsRemaining = 0#4 ∧ s.inp[s.inPos.toNat]? = none ∧ s.avail = 0 ∧
      step s = .next ((atEnd s).errorEntry .truncatedInput)) ∨
    ∃ c, s.bitsRemaining = 0#4 ∧ s.inp[s.inPos.toNat]? = some c ∧ OpReady (afterControl c s) ∧
      step s = runOp (afterControl c s) := by
  have hlt : s.outLen.toNat < s.declaredSize.toNat := by
    have := hi.outLenLe
    have hne : s.outLen.toNat ≠ s.declaredSize.toNat := fun h => hf (BitVec.eq_of_toNat_eq h)
    omega
  have hb7 := hi.bitsLt (.inl hr)
  have hpos := hi.inPosLe hr
  have hbound := hi.inPosBound
  by_cases hb : s.bitsRemaining = 0#4
  · right
    have hsel : select s = .item .control := by simp [select, hr, hf, hb]
    have g0 := rest_getElem? s 0
    have hrl := rest_length s
    match hrr : rest s with
    | [] =>
      rw [hrr] at g0 hrl
      left
      have hav : s.avail = 0 := by simpa using hrl.symm
      refine ⟨hb, by simpa using g0.symm, hav, ?_⟩
      obtain ⟨i, hc, -, he⟩ := execFetched_exec .control s
      have : execFetched .control s = .next ((atEnd s).errorEntry .truncatedInput) := by
        rw [he]
        cases i with
        | ctrl c => show execCtrl c s = _; rw [execCtrl_eq, if_pos hav]
        | _ => cases hc
      rw [step_eq, hsel]; simp only [ho, runItem, this]; rfl
    | c :: more =>
      rw [hrr] at g0 hrl
      right
      refine ⟨c, hb, by simpa using g0.symm, ?_, ?_⟩
      · have e : (advance 1 s).inPos.toNat = s.inPos.toNat + 1 := advance_toNat (by omega)
        refine ⟨hr, hi.outDense, by simp [afterControl], by simp [afterControl], hlt, ?_, ?_⟩
        · show (advance 1 s).inPos.toNat ≤ s.inp.length
          simp [State.avail] at hrl; omega
        · show (advance 1 s).inPos.toNat < _; omega
      · rw [step_eq, hsel]; simp only [ho, runItem, execFetched_control hrr, continueIteration]
        have hne : ¬((advance 1 s).loadControl c).phase = .error := by show s.phase ≠ .error; rw [hr]; simp
        rw [if_neg Bool.false_ne_true, if_neg hne]; rfl
  · left
    have hb1 : 1 ≤ s.bitsRemaining.toNat := by
      rcases Nat.eq_zero_or_pos s.bitsRemaining.toNat with h | h
      · exact absurd (BitVec.eq_of_toNat_eq h) hb
      · omega
    refine ⟨hb, ⟨hr, hi.outDense, hb1, hi.bitsLe, hlt, hpos, by omega⟩, ?_⟩
    rw [step_eq]
    simp only [select, hr, hf, hb, if_false, selectOp, flagBit_some hb1 hi.bitsLe]
    unfold runOp selectOp
    rw [flagBit_some hb1 hi.bitsLe]
    cases s.controlByte.getLsbD (s.bitsRemaining.toNat - 1) <;> simp [ho, runItem]

/-- A step from a state that meets the invariant goes through one of these. -/
theorem step_phase_cases {s t : State} (h : step s = .next t) :
    (select s = .nothing ∧ t = s) ∨ (∃ c, select s = .item c ∧ s.cfg.inOutOverlap = false ∧ runItem c s = .next t) := by
  rw [step_eq] at h
  split at h
  · cases h; exact .inl ⟨‹_›, rfl⟩
  · cases h
  · split at h
    · cases h
    · rename_i hsel ho
      exact .inr ⟨_, hsel, by simpa using ho, h⟩

end Sys2Proof.Laws
end

