-- ==== Sys2Proof/Laws/PerInstr.lean ====
section
/-! SUPPORT. Statements made instruction by instruction, over the syntax alone. -/

namespace Sys2Proof.Laws.EncodeLength

/-- The encoding has the number of bytes the opcode table gives the row (R80), and END alone has none (R131). -/
def Statement (i : Instr) : Prop :=
  (encode i).length = i.length ∧ (i.length = 0 ↔ i = .endDecode)

theorem hdr (m : Tag) (n : BitVec 32) (r : BitVec 64) : Statement (.hdr m n r) := by
  simp [Statement, encode, Instr.length, bytes32, bytes64]

theorem ctrl (c : Byte) : Statement (.ctrl c) := by simp [Statement, encode, Instr.length]

theorem lit (v : Byte) : Statement (.lit v) := by simp [Statement, encode, Instr.length]

theorem brefLong (d : BitVec 12) (e : Byte) : Statement (.brefLong d e) := by simp [Statement, encode, Instr.length]

theorem brefShort (n : BitVec 4) (d : BitVec 12) : Statement (.brefShort n d) := by
  simp [Statement, encode, Instr.length]

theorem endDecode : Statement .endDecode := by simp [Statement, encode, Instr.length]

end Sys2Proof.Laws.EncodeLength
end

