-- ==== Sys2Proof/Laws/Reference.lean ====
section
/-! SUPPORT. The reference decode (R200) and the assembler (R84, R93), one function at a time. -/

namespace Sys2Proof.Laws

open Sys2Proof Sys2Proof.Machine

/-- What one operation of the reference decode reads: the bytes from its cursor to the one it leaves, and no others; cut
short among them it is truncated. -/
theorem refOp_ok_facts {inp : List Byte} {size pos : Nat} {out : List Byte} {flag : Bool} {p : Nat} {o : List Byte}
    (h : refOp inp size pos out flag = .ok (p, o)) :
    pos < p ∧ p ≤ inp.length ∧
    (∀ inp' : List Byte, (∀ i, pos ≤ i → i < p → inp'[i]? = inp[i]?) →
      refOp inp' size pos out flag = .ok (p, o)) ∧
    (∀ inp' : List Byte, ∀ j, pos ≤ j → j < p → inp'.length = j → (∀ i < j, inp'[i]? = inp[i]?) →
      refOp inp' size pos out flag = .error (.truncatedInput, j)) := by
  unfold refOp at h ⊢
  split at h
  · rename_i hf
    split at h
    · rename_i l hl
      cases h
      have := (List.getElem?_eq_some_iff.1 hl).1
      refine ⟨by omega, by omega, fun inp' ha => ?_, fun inp' j h1 h2 h3 h4 => ?_⟩
      · rw [if_pos hf, ha pos (by omega) (by omega), hl]
      · have : inp'[pos]? = none := by simp; omega
        rw [if_pos hf, this, h3]
    · cases h
  · rename_i hf
    split at h
    · rename_i b0 b1 e0 e1
      have l1 := (List.getElem?_eq_some_iff.1 e1).1
      simp only [] at h
      split at h
      · cases h
      · rename_i hd
        split at h
        · rename_i hn
          cases h
          refine ⟨by omega, by omega, fun inp' ha => ?_, fun inp' j h1 h2 h3 h4 => ?_⟩
          · rw [if_neg hf, ha pos (by omega) (by omega), ha (pos+1) (by omega) (by omega), e0, e1]
            simp only []; rw [if_neg hd, if_pos hn]
          · have : inp'[pos + 1]? = none := by simp; omega
            rw [if_neg hf, this]
            split
            · simp_all
            · rw [h3]
        · rename_i hn
          split at h
          · rename_i b2 e2
            have l2 := (List.getElem?_eq_some_iff.1 e2).1
            cases h
            refine ⟨by omega, by omega, fun inp' ha => ?_, fun inp' j h1 h2 h3 h4 => ?_⟩
            · rw [if_neg hf, ha pos (by omega) (by omega), ha (pos+1) (by omega) (by omega), e0, e1]
              simp only []; rw [if_neg hd, if_neg hn, ha (pos + 2) (by omega) (by omega), e2]
            · have n2 : inp'[pos + 2]? = none := by simp; omega
              rw [if_neg hf]
              split
              · rename_i c0 c1 f0 f1
                have := (List.getElem?_eq_some_iff.1 f1).1
                rw [h4 pos (by omega), e0] at f0; rw [h4 (pos+1) (by omega), e1] at f1
                cases f0; cases f1
                simp only []; rw [if_neg hd, if_neg hn, n2]; simp only []; rw [h3]
              · rw [h3]
          · cases h
    · cases h

/-- The reference decode after an accepted header that fits. -/
theorem refDecode_hdr (tags : List Tag) (mo : Nat) (m : Tag) (n : BitVec 32) (r : BitVec 64) (payload : List Byte)
    (hm : m ∈ tags) (hn : n.toNat ≤ mo) :
    refDecode tags mo (encode (.hdr m n r) ++ payload) =
      refLoop (encode (.hdr m n r) ++ payload) n.toNat n.toNat 16 [] 0#8 0 := by
  have e : ∃ a b c d e f g h, bytes64 r = [a, b, c, d, e, f, g, h] := ⟨_, _, _, _, _, _, _, _, rfl⟩
  obtain ⟨a, b, c, d, e, f, g, h, he⟩ := e
  have e2 := be32_bytes32 n
  have e3 := be32_toNat (n.extractLsb' 24 8) (n.extractLsb' 16 8) (n.extractLsb' 8 8) (n.extractLsb' 0 8)
  rw [e2] at e3
  simp only [encode, he, bytes32, List.cons_append, List.nil_append, refDecode]
  rw [if_pos hm, ← e3, if_neg (by omega)]

/-- Bit `b` of `2 ^ k`. -/
theorem bit_pow (k b : Nat) : (BitVec.ofNat 8 (2 ^ k)).getLsbD b = (decide (b < 8) && decide (k = b)) := by
  rw [BitVec.getLsbD_ofNat, Nat.testBit_two_pow]

/-- The flag byte has no bit above its operations. -/
theorem flagsFrom_high : ∀ (k : Nat) (ops : List Instr), ∀ b, k ≤ b → (flagsFrom k ops).getLsbD b = false := by
  intro k
  induction k with
  | zero => intro ops b h; simp [flagsFrom]
  | succ k ih =>
    intro ops b h
    cases ops with
    | nil => simp [flagsFrom]
    | cons op ops =>
      simp only [flagsFrom, BitVec.getLsbD_or, ih ops b (by omega), Bool.or_false]
      split
      · rw [bit_pow]; simp; omega
      · simp

/-- Its highest bit is the first operation's. -/
theorem flagsFrom_top {k : Nat} (hk : k < 8) (op : Instr) (ops : List Instr) :
    (flagsFrom (k + 1) (op :: ops)).getLsbD k = isLit op := by
  simp only [flagsFrom, BitVec.getLsbD_or, flagsFrom_high k ops k (Nat.le_refl _), Bool.or_false]
  cases isLit op
  · simp
  · rw [if_pos rfl, bit_pow]; simp [hk]

/-- The others are those of the operations after it. -/
theorem flagsFrom_low {k b : Nat} (hb : b < k) (op : Instr) (ops : List Instr) :
    (flagsFrom (k + 1) (op :: ops)).getLsbD b = (flagsFrom k ops).getLsbD b := by
  simp only [flagsFrom, BitVec.getLsbD_or]
  cases isLit op
  · simp
  · rw [if_pos rfl, bit_pow]; simp; omega

/-- An operation appends at least one byte. -/
theorem expandOp_len {out out' : List Byte} {op : Instr} (h : expandOp out op = some out') : out.length < out'.length := by
  cases op with
  | lit v => cases h; simp
  | brefLong d e =>
    simp only [expandOp] at h
    split at h
    · cases h
    · cases h
      have := (refCopy_spec (n := longCopyLength e) (src := out.length - backwardOffset d) (out := out)
        (by unfold backwardOffset at *; omega)).1
      unfold longCopyLength at *; omega
  | brefShort n d =>
    simp only [expandOp] at h
    split at h
    · cases h
    · cases h
      have := (refCopy_spec (n := shortCopyLength n) (src := out.length - backwardOffset d) (out := out)
        (by unfold backwardOffset at *; omega)).1
      unfold shortCopyLength at *; omega
  | _ => cases h

/-- A list of operations never shortens the output, and lengthens it where there is an operation. -/
theorem expandOps_len : ∀ {ops : List Instr} {out f : List Byte}, expandOps out ops = some f →
    out.length ≤ f.length ∧ (ops ≠ [] → out.length < f.length) := by
  intro ops
  induction ops with
  | nil => intro out f h; cases h; simp
  | cons op ops ih =>
    intro out f h
    simp only [expandOps] at h
    split at h
    · rename_i out' he
      have := expandOp_len he
      have := (ih h).1
      constructor <;> intros <;> omega
    · cases h

/-- The reference decode of one encoded operation that fits. -/
theorem refOp_encode {inp : List Byte} {size pos : Nat} {out out' tl : List Byte} {op : Instr}
    (hp : isPayloadOp op = true) (hw : op.wf = true) (hd : inp.drop pos = encode op ++ tl) (he : expandOp out op = some out') (hs : out'.length ≤ size) :
    refOp inp size pos out (isLit op) = .ok (pos + (encode op).length, out') := by
  have g : ∀ k, inp[pos + k]? = (encode op ++ tl)[k]? := by intro k; rw [← hd]; simp
  have g0 := g 0
  have g1 := g 1
  have g2 := g 2
  cases op with
  | lit v =>
    cases he
    simp [encode] at g0
    simp [refOp, isLit, g0, encode]
  | brefLong d e =>
    simp only [expandOp] at he
    split at he
    · cases he
    · rename_i hr
      cases he
      have hl := (refCopy_spec (n := longCopyLength e) (src := out.length - backwardOffset d) (out := out)
        (by unfold backwardOffset at *; omega)).1
      rw [hl] at hs
      simp only [encode, Nat.add_zero, List.cons_append, List.nil_append, List.getElem?_cons_zero,
        List.getElem?_cons_succ] at g0 g1 g2
      have hn : (0#4 ++ d.extractLsb' 8 4 : Byte).toNat >>> 4 = 0 := by rw [shiftRight_eq_highNibble, highNibble_append]; rfl
      simp only [refOp, isLit, Bool.false_eq_true, if_false, g0, g1, g2]
      rw [← distanceField_toNat, distance_bytes, if_neg (by unfold backwardOffset at hr; exact hr),
        if_neg (by simpa using hn)]
      show Except.ok (_, refCopy (min (longCopyLength e) _) _ _) = _
      rw [Nat.min_eq_left (by omega)]; rfl
  | brefShort n d =>
    simp only [expandOp] at he
    split at he
    · cases he
    · rename_i hr
      cases he
      have hl := (refCopy_spec (n := shortCopyLength n) (src := out.length - backwardOffset d) (out := out)
        (by unfold backwardOffset at *; omega)).1
      rw [hl] at hs
      simp only [encode, Nat.add_zero, List.cons_append, List.nil_append, List.getElem?_cons_zero,
        List.getElem?_cons_succ] at g0 g1 g2
      have hn : (n ++ d.extractLsb' 8 4 : Byte).toNat >>> 4 = n.toNat := by rw [shiftRight_eq_highNibble, highNibble_append]
      have hnz : n.toNat ≠ 0 := by
        simp [Instr.wf] at hw; intro hc; exact hw (BitVec.eq_of_toNat_eq hc)
      simp only [refOp, isLit, Bool.false_eq_true, if_false, g0, g1]
      rw [← distanceField_toNat, distance_bytes, if_neg (by unfold backwardOffset at hr; exact hr),
        if_pos (by rw [hn]; exact hnz), hn]
      show Except.ok (_, refCopy (min (shortCopyLength n) _) _ _) = _
      rw [Nat.min_eq_left (by omega)]; rfl
  | _ => cases hp

end Sys2Proof.Laws
end

