-- ==== Sys2Proof/Laws/Run.lean ====
section
/-! SUPPORT. Runs of several steps, unfolded one step at a time. -/

namespace Sys2Proof.Laws

open Sys2Proof Sys2Proof.Machine Sys2Proof.Safety

/-- A run whose first step goes on. -/
theorem core_run_next {n : Nat} {s t : State} (h : step s = .next t) :
    Sys2Proof.core.run (n + 1) s = Sys2Proof.core.run n t := by
  have h' : Sys2Proof.core.step s = .next t := h
  simp only [Host.Core.run, h']

/-- A run whose first step is refused. -/
theorem core_run_refused {n : Nat} {s : State} {r} (h : step s = .refused r) :
    Sys2Proof.core.run (n + 1) s = .refused r := by
  have h' : Sys2Proof.core.step s = .refused r := h
  simp only [Host.Core.run, h']

/-- A run whose first step faults. -/
theorem core_run_fault {n : Nat} {s : State} {r} (h : step s = .fault r) :
    Sys2Proof.core.run (n + 1) s = .fault r := by
  have h' : Sys2Proof.core.step s = .fault r := h
  simp only [Host.Core.run, h']

/-- A run from DONE or ERROR stays there. -/
theorem run_stable {t : State} (h : t.phase = .done ∨ t.phase = .error) (n : Nat) :
    Sys2Proof.core.run n t = .next t := by
  induction n with
  | zero => rfl
  | succ n ih =>
    have hs : Machine.step t = .next t := by rw [step_eq]; rcases h with h | h <;> simp [select, h]
    have : Sys2Proof.core.step t = .next t := hs
    simp only [Host.Core.run, this]; exact ih

/-- What a step in RUN with the output not full can do, whatever the storage map: no control byte; or one operation, after a
control byte where no flag bit was left. -/
theorem run_step_summary {s t : State} (hi : Inv s) (hp : s.phase = .run) (hf : s.outLen ≠ s.declaredSize)
    (h : step s = .next t) :
    (t = (atEnd s).errorEntry .truncatedInput ∧ s.avail = 0 ∧ s.bitsRemaining = 0#4) ∨
    ∃ u, (u = s ∨ (s.bitsRemaining = 0#4 ∧ ∃ c, s.inp[s.inPos.toNat]? = some c ∧ u = afterControl c s)) ∧
      OpReady u ∧ runOp u = .next t ∧ ((∃ pos out, OpDone u t pos out) ∨ ∃ k p, OpError u t k p) := by
  have ho : s.cfg.inOutOverlap = false := by
    rcases step_phase_cases h with ⟨hsel, -⟩ | ⟨c, hsel, ho, -⟩
    · exfalso; simp only [select, hp, hf, if_false] at hsel
      split at hsel
      · cases hsel
      · unfold selectOp at hsel; split at hsel <;> cases hsel
    · exact ho
  rcases step_iteration hi hp hf ho with ⟨-, hr, e⟩ | ⟨hb, -, hav, e⟩ | ⟨c, hb, hc, hr, e⟩
  · obtain ⟨t', e', hh⟩ := runOp_cases hr
    rw [e, e'] at h; cases h
    exact .inr ⟨s, .inl rfl, hr, e', hh⟩
  · rw [e] at h; cases h; exact .inl ⟨rfl, hav, hb⟩
  · obtain ⟨t', e', hh⟩ := runOp_cases hr
    rw [e, e'] at h; cases h
    exact .inr ⟨_, .inr ⟨hb, c, hc, rfl⟩, hr, e', hh⟩

end Sys2Proof.Laws
end

