-- ==== Sys2Proof/Tests/Slice0.lean ====
section
/-! SUPPORT. Tests of the model, expected results from spec/95_test_vectors.md (the vector is named in each comment) or
written out from spec/30_encoding.md; and, for every obligation with premises, a witness that meets them. -/

namespace Sys2Proof.Tests

open Sys2Proof Sys2Proof.Machine Sys2Proof.Safety

/-! ### Helpers -/

/-- A view of the next state, none where the step stops. -/
def nextView {α : Type} (o : Host.Outcome State Fault Refusal) (f : State → α) : Option α :=
  match o with
  | .next t => some (f t)
  | .fault _ => none
  | .refused _ => none

/-- 16 header bytes with a tag and a size. -/
def header16 (m : Tag) (n : BitVec 32) : List Byte := encode (.hdr m n 0#64)

/-- Just after START, with a container in IN (95_test_vectors.md, the common start state). -/
def started (inp : List Byte) : State := { State.reset with inp := inp }.start

/-- In RUN after the header: `payload` unread, `bs` already in OUT. -/
def inRun (size : BitVec 32) (bs payload : List Byte) (cb : Byte) (br : BitVec 4) : State :=
  { State.reset with
    phase := .run, declaredSize := size, out := (List.range bs.length).zip bs, outLen := BitVec.ofNat 32 bs.length,
    inPos := 16#64, controlByte := cb, bitsRemaining := br, inp := header16 Tag.yaz0 size ++ payload }

/-- Two literals of P1 done, a control byte in use. -/
def midRun : State := inRun 13#32 [0x41#8, 0x42#8] [0x43#8, 0x70#8, 0x02#8] 0xE8#8 6#4

/-- RUN with the output full. -/
def fullRun : State := inRun 2#32 [0x41#8, 0x42#8] [0xEE#8] 0xC0#8 6#4

/-- RUN just after a header of size 4, no flag bit left: W5a. -/
def freshRun : State := inRun 4#32 [] [0x80#8, 0x41#8, 0x10#8, 0x00#8] 0x00#8 0#4

/-- RUN where the flag bit selects a back-reference, `bs` unread. -/
def brefRun (bs : List Byte) : State := inRun 30#32 [0x41#8, 0x42#8] bs 0x00#8 6#4

/-- C6 after its header: a control byte and a back-reference with nothing to copy from; the old control byte is 0xFF. -/
def ctrlThenBad : State := inRun 4#32 [] [0x00#8, 0x10#8, 0x00#8] 0xFF#8 0#4

/-- C4a after its header: no control byte. -/
def noControl : State := inRun 1#32 [] [] 0#8 0#4

/-- DONE with two bytes. -/
def doneState : State := { fullRun with phase := .done }

/-- ERROR after W7a. -/
def errorState : State := { started [0x59#8, 0x61#8, 0x7A#8, 0x31#8] with phase := .error, err := some .formatMismatch, inPos := 4#64 }

/-! ### Well-formedness, decoding, the encoder -/

/-- The one check of WellFormed: a BREF_SHORT with nibble 0 is no item (R88 row 6). -/
theorem test_wf_short_nibble_zero : Instr.wf (.brefShort 0#4 5#12) = false := by decide

theorem test_wf_others : Instr.wf (.brefShort 1#4 5#12) = true ∧ Instr.wf (.brefLong 0#12 0#8) = true ∧
    Instr.wf (.hdr Tag.yAZ0 0#32 1#64) = true ∧ Instr.wf (.ctrl 0#8) = true ∧ Instr.wf (.lit 0#8) = true ∧
    Instr.wf .endDecode = true := by decide

/-- The header of P2: "Yaz0", 301. -/
theorem test_decode_hdr : decode .header
    [0x59#8, 0x61#8, 0x7A#8, 0x30#8, 0x00#8, 0x00#8, 0x01#8, 0x2D#8, 0#8, 0#8, 0#8, 0#8, 0#8, 0#8, 0#8, 0#8] =
    .ok (.hdr ⟨0x59#8, 0x61#8, 0x7A#8, 0x30#8⟩ 301#32 0#64, []) := by rfl

theorem test_decode_ctrl : decode .control [0b11101000#8, 0x41#8] = .ok (.ctrl 0xE8#8, [0x41#8]) := by rfl

theorem test_decode_lit : decode .literal [0b01000001#8] = .ok (.lit 0x41#8, []) := by rfl

/-- W10, row 0xAB 0xCD. -/
theorem test_decode_bref_short : decode .backRef [0b10101011#8, 0b11001101#8] = .ok (.brefShort 10#4 3021#12, []) := by
  rfl

/-- W10, row 0x0F 0xFF 0xFF. -/
theorem test_decode_bref_long :
    decode .backRef [0b00001111#8, 0b11111111#8, 0b11111111#8] = .ok (.brefLong 4095#12 0xFF#8, []) := by rfl

theorem test_decode_end : decode .finish [0xEE#8] = .ok (.endDecode, [0xEE#8]) := by rfl

/-- R212: a missing extended length is seen only after `b0[7:4] = 0`. -/
theorem test_decode_short_input : decode .backRef [0x00#8, 0x01#8] = .error .extendedLengthMissing ∧
    decode .backRef [0x10#8] = .error .descriptorMissing ∧ decode .control [] = .error .controlByteMissing := ⟨rfl, rfl, rfl⟩

/-- P1: the bytes of BREF.S d=2, n=9 and P2: of BREF.L d=0, n=26. -/
theorem test_assemble_bref : (asmBref 2 9).map encode = some [0x70#8, 0x02#8] ∧
    (asmCopy 1 26).map encode = some [0x00#8, 0x00#8, 0x08#8] ∧ asmBref 0 2 = none := by decide

/-- P3: the listing, with .ops for its control bytes, and its bytes. -/
theorem test_assemble_listing : assemble none [.hdr Tag.yaz0 18#32, .ops, .lit 0x31#8, .lit 0x32#8, .lit 0x33#8, .lit 0x34#8,
      .lit 0x35#8, .lit 0x36#8, .lit 0x37#8, .lit 0x38#8, .bref 7 8, .copy 4 5, .bytes [0xEE#8, 0xEE#8]] =
    some [0x59#8, 0x61#8, 0x7A#8, 0x30#8, 0#8, 0#8, 0#8, 0x12#8, 0#8, 0#8, 0#8, 0#8, 0#8, 0#8, 0#8, 0#8, 0xFF#8, 0x31#8, 0x32#8,
      0x33#8, 0x34#8, 0x35#8, 0x36#8, 0x37#8, 0x38#8, 0x00#8, 0x60#8, 0x07#8, 0x30#8, 0x03#8, 0xEE#8, 0xEE#8] := by decide

theorem test_table_word_short : decodeTableWord 16 0xABCD = some (.brefShort 0xA#4 0xBCD#12) := by decide
theorem test_table_word_long : decodeTableWord 24 0x0FFE08 = some (.brefLong 0xFFE#12 0x08#8) := by decide
theorem test_table_word_hdr : decodeTableWord 128 0x59617A30000001120000000000000000 =
    some (.hdr Tag.yaz0 274#32 0#64) := by decide
theorem test_table_word_end : decodeTableWord 0 0 = some .endDecode ∧ decodeTableWord 8 0x41 = some (.lit 0x41#8) := by decide

/-- The very next step runs the placed word: a literal, a header, END. -/
theorem test_fetch_word : nextView (step (State.reset.withFetchWord 8 0x41)) (fun t => t.outBytes) = some [0x41#8] ∧
    nextView (step (State.reset.withFetchWord 128 0x59617A30000001120000000000000000)) (fun t => t.declaredSize) = some 274#32 ∧
    nextView (step (State.reset.withFetchWord 0 0)) (fun t => t.phase) = some .done := by decide

/-! ### One step of each instruction -/

/-- H2 with the default MAX_OUT: the size is big-endian. -/
theorem test_hdr_size : nextView (step (started
      [0x59#8, 0x61#8, 0x7A#8, 0x30#8, 1#8, 2#8, 3#8, 4#8, 0xFF#8, 0#8, 0#8, 0#8, 0#8, 0#8, 0#8, 0#8]))
    (fun t => (t.declaredSize, t.inPos, t.phase)) = some (16909060#32, 16#64, Phase.run) := by decide

/-- W7a: wrong tag. -/
theorem test_hdr_tag : nextView (step (started [0x59#8, 0x61#8, 0x7A#8, 0x31#8])) (fun t => (t.err, t.inPos)) =
    some (some .formatMismatch, 4#64) := by decide

/-- C3a and C3b: MSB first; CTRL and its first operation are one step (D25). -/
theorem test_ctrl_msb : nextView (step (inRun 1#32 [] [0x80#8, 0x41#8] 0#8 0#4)) (fun t => (t.outBytes, t.controlByte, t.bitsRemaining)) =
      some ([0x41#8], 0x80#8, 7#4) ∧
    nextView (step (inRun 1#32 [] [0x01#8, 0x41#8] 0#8 0#4)) (fun t => (t.err, t.inPos, t.outLen)) =
      some (some .truncatedInput, 18#64, 0#32) := by decide

/-- C6: an error after a CTRL keeps what that CTRL wrote; the count is 8, not decremented. -/
theorem test_error_after_ctrl : nextView (step ctrlThenBad) (fun t => (t.err, t.inPos, t.controlByte, t.bitsRemaining)) =
    some (some .invalidBackReference, 19#64, 0x00#8, 8#4) := by decide

/-- C4a: no control byte. -/
theorem test_ctrl_missing : nextView (step noControl) (fun t => (t.err, t.inPos, t.bitsRemaining)) =
    some (some .truncatedInput, 16#64, 0#4) := by decide

/-- W9a, W3a: END when the output is full, nothing read. -/
theorem test_end : nextView (step (inRun 0#32 [] [0xFF#8, 0xFF#8] 0#8 0#4)) (fun t => (t.phase, t.inPos)) = some (.done, 16#64) := by
  decide

/-- L1, second literal. -/
theorem test_lit : nextView (step (inRun 2#32 [0#8] [0xFF#8] 0xC0#8 7#4)) (fun t => (t.outBytes, t.bitsRemaining)) =
    some ([0#8, 0xFF#8], 6#4) := by decide

/-- L2: literal byte missing. -/
theorem test_lit_missing : nextView (step (inRun 2#32 [0#8] [] 0xC0#8 7#4)) (fun t => (t.err, t.outLen, t.bitsRemaining)) =
    some (some .truncatedInput, 1#32, 7#4) := by decide

/-- BS2: overlapping copy with period 2. -/
theorem test_bref_short : nextView (step (inRun 7#32 [0x41#8, 0x42#8] [0x30#8, 0x01#8] 0xC0#8 6#4))
    (fun t => (t.outBytes, t.bitsRemaining)) = some ([0x41#8, 0x42#8, 0x41#8, 0x42#8, 0x41#8, 0x42#8, 0x41#8], 5#4) := by decide

/-- BS6: `b0[3:0]` is distance bits 11:8. -/
theorem test_bref_short_distance : nextView (step (inRun 7#32 [0x41#8, 0x42#8] [0x31#8, 0x01#8] 0xC0#8 6#4))
    (fun t => (t.err, t.inPos, t.bitsRemaining)) = some (some .invalidBackReference, 18#64, 6#4) := by decide

/-- BL5: period 3, length 18. -/
theorem test_bref_long : nextView (step (inRun 21#32 [0x41#8, 0x42#8, 0x43#8] [0x00#8, 0x02#8, 0x00#8] 0xE0#8 5#4))
    (fun t => (t.outBytes.length, t.outBytes.drop 17, t.inPos)) = some (21, [0x43#8, 0x41#8, 0x42#8, 0x43#8], 19#64) := by decide

/-- BL3 and BL4: the range check comes before `b2`. -/
theorem test_bref_long_order : nextView (step (inRun 30#32 [0x41#8] [0x00#8, 0x01#8] 0x80#8 7#4)) (fun t => t.err) =
      some (some .invalidBackReference) ∧
    nextView (step (inRun 30#32 [0x41#8] [0x00#8, 0x00#8] 0x80#8 7#4)) (fun t => t.err) = some (some .truncatedInput) := by decide

/-- STATUS of an ERROR state: ERR 1, BUSY 0, PHASE 4 (R29). -/
theorem test_status : readReg 1#3 errorState = 0x14#32 ∧ readReg 1#3 midRun = 0x0A#32 := by decide

/-! ### Witnesses: states that meet the invariant -/

theorem inv_started : Inv (started (header16 Tag.yaz0 0#32)) := by
  constructor <;> first | decide | rfl | simp [started, State.start, AtReset]

theorem inv_badTag : Inv (started [0x59#8, 0x61#8, 0x7A#8, 0x31#8]) := by
  constructor <;> first | decide | rfl | simp [started, State.start, AtReset]

theorem inv_midRun : Inv midRun := by
  constructor <;> first | decide | rfl | simp [midRun, inRun]

theorem inv_fullRun : Inv fullRun := by
  constructor <;> first | decide | rfl | simp [fullRun, inRun]

theorem inv_freshRun : Inv freshRun := by
  constructor <;> first | decide | rfl | simp [freshRun, inRun]

theorem inv_brefBad : Inv (brefRun [0x10#8, 0x02#8]) := by
  constructor <;> first | decide | rfl | simp [brefRun, inRun]

theorem inv_brefShort : Inv (brefRun [0x10#8]) := by
  constructor <;> first | decide | rfl | simp [brefRun, inRun]

theorem inv_ctrlThenBad : Inv ctrlThenBad := by
  constructor <;> first | decide | rfl | simp [ctrlThenBad, inRun]

theorem inv_noControl : Inv noControl := by
  constructor <;> first | decide | rfl | simp [noControl, inRun]

theorem inv_overlap : Inv { midRun with cfg := { Config.default with inOutOverlap := true } } := by
  constructor <;> first | decide | rfl | simp [midRun, inRun]

/-! ### Witnesses: the premises of each obligation, each clause at a boundary -/

theorem witness_StartWriteBeginsDecode : (1#32).getLsbD 0 = true ∧ State.reset.phase = .idle ∧ doneState.phase = .done ∧
    errorState.phase = .error := by decide

theorem witness_StartIgnoredWhileBusyOrZero : (started []).phase = .header ∧ midRun.phase = .run ∧
    (0xFFFFFFFE#32).getLsbD 0 = false := by decide

theorem witness_RegisterMap : (1#3) ≠ 0#3 ∧ (7#3) ≠ 0#3 ∧ (1#32).getLsbD 0 = true ∧ State.reset.busy = false ∧
    midRun.busy = true ∧ (0xFFFFFFFE#32).getLsbD 0 = false := by decide

theorem witness_IdlePhasesRetainState : State.reset.phase = .idle ∧ doneState.phase = .done ∧ errorState.phase = .error := by
  decide

theorem witness_HostCannotDisturbDecode : (started []).phase = .header ∧ midRun.phase = .run := by decide

theorem witness_ResultCompleteAtDone : Inv fullRun ∧ ∃ t, step fullRun = .next t ∧ t.phase = .done ∧
    (0#32).toNat < t.declaredSize.toNat ∧ (1#32).toNat < t.declaredSize.toNat := ⟨inv_fullRun, doneState, rfl, by decide⟩

theorem witness_ErrorOutputUnobservable : errorState.phase = .error := rfl

theorem witness_DecodeOfEncode : Instr.wf (.brefShort 1#4 0xFFF#12) = true ∧ Instr.wf (.brefShort 15#4 0#12) = true ∧
    Instr.wf (.brefLong 0xFFF#12 0xFF#8) = true := by decide

theorem witness_EncodeOfDecode : decode .backRef [0x10#8, 0x00#8, 0xEE#8] = .ok (.brefShort 1#4 0#12, [0xEE#8]) := rfl

theorem witness_CopyLengthHasOneEncoding :
    (Instr.wf (.brefShort 1#4 0#12) = true ∧ copyOperands (.brefShort 1#4 0#12) = some (0#12, 3)) ∧
    (Instr.wf (.brefShort 15#4 0#12) = true ∧ copyOperands (.brefShort 15#4 0#12) = some (0#12, 17)) ∧
    (Instr.wf (.brefLong 0#12 0#8) = true ∧ copyOperands (.brefLong 0#12 0#8) = some (0#12, 18)) ∧
    (Instr.wf (.brefLong 0#12 0xFF#8) = true ∧ copyOperands (.brefLong 0#12 0xFF#8) = some (0#12, 273)) ∧
    midRun.declaredSize.toNat - midRun.outLen.toNat < 12 ∧ fullRun.declaredSize.toNat - fullRun.outLen.toNat < 3 := by decide

theorem witness_OperandWidths : sourceStart 1#12 midRun = some 0 ∧ sourceStart 0#12 midRun = some 1 ∧
    sourceStart 2#12 midRun = none ∧ copyOperands (.brefLong 0#12 0xFF#8) = some (0#12, 273) ∧
    fullRun.outLen.toNat ≤ fullRun.declaredSize.toNat := by decide

theorem witness_SelectionFollowsTable : (started []).phase = .header ∧ (fullRun.phase = .run ∧ fullRun.outLen = fullRun.declaredSize) ∧
    (freshRun.phase = .run ∧ freshRun.outLen ≠ freshRun.declaredSize ∧ freshRun.bitsRemaining = 0#4) ∧
    (midRun.phase = .run ∧ midRun.outLen ≠ midRun.declaredSize ∧ 1 ≤ midRun.bitsRemaining.toNat ∧
      midRun.bitsRemaining.toNat ≤ 8) ∧ doneState.phase = .done := by decide

theorem witness_StepRunsDecodedInstruction :
    (midRun.cfg.inOutOverlap = false ∧ select midRun = .item .literal ∧
      decode .literal (rest midRun) = .ok (.lit 0x43#8, [0x70#8, 0x02#8])) ∧
    (select freshRun = .item .control ∧ decode .control (rest freshRun) = .ok (.ctrl 0x80#8, [0x41#8, 0x10#8, 0x00#8]) ∧
      ∃ t, exec (.ctrl 0x80#8) freshRun = .next t ∧ selectOp t = .item .literal ∧
        decode .literal (rest t) = .ok (.lit 0x41#8, [0x10#8, 0x00#8])) :=
  ⟨⟨rfl, by decide, rfl⟩, by decide, rfl, _, rfl, by decide, rfl⟩

theorem witness_FlagBitsMsbFirst : (1 ≤ midRun.bitsRemaining.toNat ∧ midRun.bitsRemaining.toNat ≤ 8) ∧ 1 ≤ freshRun.avail ∧
    (∃ t, exec (.lit 0#8) { midRun with bitsRemaining := 8#4 } = .next t ∧ t.phase ≠ .error) ∧
    ∃ t, exec (.lit 0#8) { midRun with bitsRemaining := 2#4 } = .next t ∧ t.phase ≠ .error ∧ (2#4).toNat = 8 - 6 :=
  ⟨by decide, by decide, ⟨_, rfl, by decide⟩, _, rfl, by decide, by decide⟩

theorem witness_StaleControlByteNeverRead : freshRun.phase = .run ∧ freshRun.outLen ≠ freshRun.declaredSize ∧
    freshRun.bitsRemaining = 0#4 ∧ 1 ≤ freshRun.avail := by decide

theorem witness_HdrCompletes : 16 ≤ (started (header16 Tag.yaz0 0#32)).avail ∧
    Tag.yaz0 ∈ (started (header16 Tag.yaz0 0#32)).cfg.magicSet ∧
    0xFFFFFFFF#32 ≤ (started (header16 Tag.yaz0 0#32)).cfg.maxOut := by decide

/-- Containers of H4a (3 bytes), W7a, H6 (7 bytes), H5 (12 bytes), H2 and H7. -/
theorem witness_HeaderStep :
    ((started []).phase = .header ∧ (started []).inPos = 0#64 ∧ (started []).cfg.inOutOverlap = false) ∧
    (started [0x59#8, 0x61#8, 0x7A#8]).inp.length < 4 ∧
    (⟨0x59#8, 0x61#8, 0x7A#8, 0x31#8⟩ : Tag) ∉ (started []).cfg.magicSet ∧ Tag.yaz0 ∈ (started []).cfg.magicSet ∧
    [0#8, 0#8, 0#8].length < 4 ∧ [0#8, 0#8, 0#8, 0#8].length < 8 ∧ 8 ≤ (List.replicate 8 0xFF#8).length ∧
    ({ Config.default with maxOut := 0x100#32 } : Config).maxOut < 0x01020304#32 ∧ 0#32 ≤ (started []).cfg.maxOut := by decide

theorem witness_EmptyOutputDecode : Inv (started (header16 Tag.yaz0 0#32)) ∧
    (started (header16 Tag.yaz0 0#32)).phase = .header ∧ (started (header16 Tag.yaz0 0#32)).cfg.inOutOverlap = false ∧
    Tag.yaz0 ∈ (started (header16 Tag.yaz0 0#32)).cfg.magicSet ∧
    (started (header16 Tag.yaz0 0#32)).inp = encode (.hdr Tag.yaz0 0#32 0#64) ++ [] := ⟨inv_started, by decide⟩

theorem witness_CtrlLoadsControlByte : 1 ≤ (inRun 1#32 [] [0x80#8] 0#8 0#4).avail ∧ (inRun 1#32 [] [] 0#8 0#4).avail = 0 ∧
    rest (inRun 1#32 [] [0x80#8] 0#8 0#4) = [0x80#8] := by decide

theorem witness_EndFinishesDecode : Inv fullRun ∧ fullRun.phase = .run ∧ fullRun.outLen = fullRun.declaredSize ∧
    fullRun.cfg.inOutOverlap = false := ⟨inv_fullRun, by decide⟩

theorem witness_LitAppendsByte : (1 ≤ midRun.avail ∧ midRun.outLen < midRun.declaredSize ∧ midRun.bitsRemaining ≠ 0#4) ∧
    (inRun 2#32 [0#8] [] 0xC0#8 7#4).avail = 0 := by decide

theorem witness_BrefShortCopies : (brefRun []).inPos.toNat + 2 < 2 ^ 64 ∧ (brefRun [0x10#8]).avail < 2 ∧
    (2 ≤ (brefRun [0x10#8, 0x02#8]).avail ∧ (brefRun [0x10#8, 0x02#8]).outLen.toNat ≤ (2#12).toNat) ∧
    (1#12).toNat < (brefRun [0x10#8, 0x01#8]).outLen.toNat ∧ OutDense (brefRun [0x10#8, 0x01#8]) ∧
    (brefRun [0x10#8, 0x01#8]).bitsRemaining ≠ 0#4 := ⟨by decide, by decide, by decide, by decide, rfl, by decide⟩

theorem witness_BrefLongCopies : (brefRun []).inPos.toNat + 3 < 2 ^ 64 ∧ (brefRun [0x00#8]).avail < 2 ∧
    (2 ≤ (brefRun [0x00#8, 0x02#8]).avail ∧ (brefRun [0x00#8, 0x02#8]).outLen.toNat ≤ (2#12).toNat) ∧
    ((brefRun [0x00#8, 0x01#8]).avail = 2 ∧ (1#12).toNat < (brefRun [0x00#8, 0x01#8]).outLen.toNat) ∧
    3 ≤ (brefRun [0x00#8, 0x01#8, 0xFF#8]).avail ∧ OutDense (brefRun [0x00#8, 0x01#8, 0xFF#8]) ∧
    (brefRun [0x00#8, 0x01#8, 0xFF#8]).bitsRemaining ≠ 0#4 :=
  ⟨by decide, by decide, by decide, by decide, by decide, rfl, by decide⟩

theorem witness_FirstBackReferenceIsInvalid : rest (brefRun [0x10#8, 0x02#8]) = [0x10#8, 0x02#8] ∧
    (brefRun [0x10#8, 0x02#8]).inPos.toNat + 3 < 2 ^ 64 ∧
    (brefRun [0x10#8, 0x02#8]).outLen.toNat ≤ (distanceField 0x10#8 0x02#8).toNat ∧
    (inRun 3#32 [] [0x10#8, 0x00#8] 0x00#8 8#4).outLen = 0#32 := by decide

theorem witness_CopyEngineClosedForm : OutDense midRun ∧ 1 < midRun.outLen.toNat ∧
    11 ≤ midRun.declaredSize.toNat - midRun.outLen.toNat := ⟨rfl, by decide⟩

theorem witness_DistanceZeroIsRunLength :
    (Instr.wf (.brefShort 1#4 0#12) = true ∧ copyOperands (.brefShort 1#4 0#12) = some (0#12, 3) ∧ OutDense (brefRun [0x10#8, 0x00#8]) ∧
      ∃ t, exec (.brefShort 1#4 0#12) (brefRun [0x10#8, 0x00#8]) = .next t ∧ t.phase ≠ .error) ∧
    (copyOperands (.brefShort 1#4 2#12) = some (2#12, 3) ∧ 3 ≤ backwardOffset 2#12 ∧
      OutDense (inRun 6#32 [0x41#8, 0x42#8, 0x43#8] [0x10#8, 0x02#8] 0xE0#8 5#4) ∧
      ∃ t, exec (.brefShort 1#4 2#12) (inRun 6#32 [0x41#8, 0x42#8, 0x43#8] [0x10#8, 0x02#8] 0xE0#8 5#4) = .next t ∧
        t.phase ≠ .error) :=
  ⟨⟨by decide, by decide, rfl, _, rfl, by decide⟩, by decide, by decide, rfl, _, rfl, by decide⟩

/-- 4097 bytes, the first of them outside the last 4096. -/
def longOut (v : Byte) : List Host.Cell := (0, v) :: (List.range' 1 4096).map (fun a => (a, 0#8))

def longRun (v : Byte) : State := { inRun 5000#32 [] [0x41#8] 0x80#8 8#4 with out := longOut v, outLen := 4097#32 }

theorem longRun_dense (v : Byte) : OutDense (longRun v) := by
  have h : (longOut v).map Prod.fst = List.range 4097 := by
    rw [List.range_eq_range', List.range'_succ, longOut, List.map_cons, List.map_map]
    exact congrArg _ (List.map_id _)
  exact h

theorem witness_HistoryWindowSuffices : sourceStart 4095#12 (longRun 1#8) = some 1 ∧ isPayloadOp (.lit 0x41#8) = true ∧ OutDense (longRun 1#8) ∧
    OutDense { longRun 1#8 with out := longOut 2#8 } ∧
    (∀ a, (longRun 1#8).outLen.toNat ≤ a + 4096 → Memory.read (longOut 2#8) a = Memory.read (longOut 1#8) a) ∧
    ∃ t, exec (.lit 0x41#8) (longRun 1#8) = .next t := by
  refine ⟨by decide, rfl, longRun_dense _, longRun_dense 2#8, fun a ha => ?_, ?_⟩
  · have h0 : a ≠ 0 := by
      intro h; subst h; exact absurd ha (by decide)
    simp [longOut, Memory.read, h0]
  · exact ⟨((longRun 1#8).setInPos 17#64 |>.append 0x41#8).setBits 7#4, by rfl⟩

theorem witness_NonStoringFrame :
    (∃ t, exec (.hdr Tag.yaz0 0#32 0#64) (started (header16 Tag.yaz0 0#32)) = .next t ∧ t.phase = .run) ∧
    (∃ t, exec (.ctrl 0x80#8) freshRun = .next t ∧ t.phase = .run) ∧ ∃ t, exec .endDecode fullRun = .next t :=
  ⟨⟨_, rfl, rfl⟩, ⟨_, rfl, rfl⟩, _, rfl⟩

theorem witness_StoringFrame : (∃ t, exec (.lit 0x43#8) midRun = .next t ∧ t.phase = .run) ∧
    (∃ t, exec (.brefShort 1#4 0#12) (brefRun [0x10#8, 0x00#8]) = .next t ∧ t.phase = .run) ∧
    (∃ t, exec (.brefLong 1#12 0#8) (brefRun [0x00#8, 0x01#8, 0x00#8]) = .next t ∧ t.phase = .run) ∧
    ∃ t, exec (.brefShort 1#4 2#12) (brefRun [0x10#8, 0x02#8]) = .next t ∧ t.phase = .error :=
  ⟨⟨_, rfl, rfl⟩, ⟨_, rfl, rfl⟩, ⟨_, rfl, rfl⟩, _, rfl, rfl⟩

/-- The premises with an error in HEADER (W7a), after a CTRL in the same iteration (C6), with no control byte there
(C4a), and with flag bits left: a bad distance, a descriptor byte missing. -/
theorem witness_ErrorEntryIsPrecise :
    (Inv (started [0x59#8, 0x61#8, 0x7A#8, 0x31#8]) ∧
      ∃ t, step (started [0x59#8, 0x61#8, 0x7A#8, 0x31#8]) = .next t ∧ t.phase = .error ∧ ∃ t', step t = .next t') ∧
    (Inv ctrlThenBad ∧ (ctrlThenBad.phase = .run ∧ ctrlThenBad.bitsRemaining = 0#4 ∧ 1 ≤ ctrlThenBad.avail) ∧
      ∃ t, step ctrlThenBad = .next t ∧ t.phase = .error ∧ t.err = some .invalidBackReference) ∧
    (Inv noControl ∧ (noControl.phase = .run ∧ noControl.bitsRemaining = 0#4 ∧ ¬1 ≤ noControl.avail) ∧
      ∃ t, step noControl = .next t ∧ t.phase = .error ∧ t.err = some .truncatedInput) ∧
    (Inv (brefRun [0x10#8, 0x02#8]) ∧ (brefRun [0x10#8, 0x02#8]).phase = .run ∧
      (brefRun [0x10#8, 0x02#8]).bitsRemaining ≠ 0#4 ∧
      ∃ t, step (brefRun [0x10#8, 0x02#8]) = .next t ∧ t.phase = .error ∧ t.err = some .invalidBackReference) ∧
    (Inv (brefRun [0x10#8]) ∧ ∃ t, step (brefRun [0x10#8]) = .next t ∧ t.phase = .error ∧ t.err = some .truncatedInput) :=
  ⟨⟨inv_badTag, _, rfl, rfl, _, rfl⟩, ⟨inv_ctrlThenBad, by decide, _, rfl, rfl, rfl⟩,
    ⟨inv_noControl, by decide, _, rfl, rfl, rfl⟩, ⟨inv_brefBad, rfl, by decide, _, rfl, rfl, rfl⟩,
    inv_brefShort, _, rfl, rfl, rfl⟩

theorem witness_ErrorKindsAndSites :
    (Inv (started [0x59#8, 0x61#8, 0x7A#8, 0x31#8]) ∧
      ∃ t, step (started [0x59#8, 0x61#8, 0x7A#8, 0x31#8]) = .next t ∧ t.phase = .error ∧ t.err = some .formatMismatch) ∧
    (Inv (brefRun [0x10#8]) ∧ ∃ t, step (brefRun [0x10#8]) = .next t ∧ t.phase = .error ∧ t.err = some .truncatedInput) ∧
    (Inv (brefRun [0x10#8, 0x02#8]) ∧
      ∃ t, step (brefRun [0x10#8, 0x02#8]) = .next t ∧ t.phase = .error ∧ t.err = some .invalidBackReference) :=
  ⟨⟨inv_badTag, _, rfl, rfl, rfl⟩, ⟨inv_brefShort, _, rfl, rfl, rfl⟩, inv_brefBad, _, rfl, rfl, rfl⟩

theorem witness_MissingByteRaisesTruncated : (started [0#8, 0#8, 0#8]).inPos.toNat + 16 < 2 ^ 64 ∧
    (started [0#8, 0#8, 0#8]).avail < 4 ∧
    (rest (started [0x59#8, 0x61#8, 0x7A#8, 0x30#8]) = 0x59#8 :: 0x61#8 :: 0x7A#8 :: 0x30#8 :: [] ∧
      Tag.yaz0 ∈ (started []).cfg.magicSet ∧ ([] : List Byte).length < 12 ∧ (List.replicate 11 0#8).length < 12) ∧
    (inRun 1#32 [] [] 0#8 0#4).avail = 0 ∧ (brefRun [0x10#8]).avail < 2 ∧
    (rest (brefRun [0x00#8, 0x01#8]) = [0x00#8, 0x01#8] ∧ (0x00#8).toNat >>> 4 = 0 ∧
      (distanceField 0x00#8 0x01#8).toNat < (brefRun [0x00#8, 0x01#8]).outLen.toNat) := by decide

theorem witness_OverlapRefusedAndInFixed :
    Inv { midRun with cfg := { Config.default with inOutOverlap := true } } ∧ midRun.phase = .run ∧
    ∃ t, step midRun = .next t := ⟨inv_overlap, rfl, _, rfl⟩

theorem witness_OnlyTwoRefusals :
    step { midRun with cfg := { Config.default with inOutOverlap := true } } = .refused .inOutOverlap ∧
    step { started (header16 Tag.yaz0 5#32) with cfg := { Config.default with maxOut := 4#32 } } = .refused .outputTooLarge :=
  ⟨rfl, rfl⟩

theorem witness_StepKeepsInvariant : (Inv midRun ∧ ∃ t, step midRun = .next t) ∧ (Inv fullRun ∧ ∃ t, step fullRun = .next t) ∧
    (Inv (started (header16 Tag.yaz0 0#32)) ∧ ∃ t, step (started (header16 Tag.yaz0 0#32)) = .next t) :=
  ⟨⟨inv_midRun, _, rfl⟩, ⟨inv_fullRun, _, rfl⟩, inv_started, _, rfl⟩

theorem witness_HostMovesKeepInvariant : Inv midRun ∧ (∃ t, hostMove .resetPin midRun = .next t) ∧
    (∃ t, hostMove (.outRead 0#32) midRun = .next t) ∧ (∃ t, hostMove (.regWrite 0#3 1#32) midRun = .next t) ∧
    (∃ t, hostMove (.present [0#8]) State.reset = .next t) ∧
    ∃ t, hostMove (.config [Tag.yaz0, Tag.yAZ0] 4#32) State.reset = .next t :=
  ⟨inv_midRun, ⟨_, rfl⟩, ⟨_, rfl⟩, ⟨_, rfl⟩, ⟨_, rfl⟩, _, rfl⟩

theorem witness_StepNeverFaults : Inv midRun ∧ Inv fullRun ∧ Inv freshRun := ⟨inv_midRun, inv_fullRun, inv_freshRun⟩

theorem witness_StepIsAppendOnly : Inv midRun ∧ (∃ t, step midRun = .next t) ∧ midRun.phase ≠ .header ∧
    1 < midRun.outLen.toNat := ⟨inv_midRun, ⟨_, rfl⟩, by decide⟩

theorem witness_IterationAppends : Inv freshRun ∧ freshRun.phase = .run ∧ freshRun.outLen ≠ freshRun.declaredSize ∧
    ∃ t, step freshRun = .next t ∧ t.phase ≠ .error := ⟨inv_freshRun, rfl, by decide, _, rfl, by decide⟩

theorem witness_ControlByteCount : Inv freshRun ∧ freshRun.phase = .run ∧ freshRun.bitsRemaining = 0#4 ∧
    ∃ t, Sys2Proof.core.run 2 freshRun = .next t ∧ t.phase = .run := ⟨inv_freshRun, by decide, by decide, _, rfl, rfl⟩

theorem witness_DecodeTerminates : Inv midRun ∧ midRun.phase = .run ∧ midRun.cfg.inOutOverlap = false :=
  ⟨inv_midRun, by decide⟩

/-- The container of W5a, and the three results of R200. -/
theorem witness_MachineAgreesWithReference :
    (State.reset.busy = false ∧ State.reset.cfg.wf ∧ State.reset.cfg.inOutOverlap = false) ∧
    refDecode [Tag.yaz0] 0xFFFFFFFF (header16 Tag.yaz0 4#32 ++ [0x80#8, 0x41#8, 0x10#8, 0x00#8]) =
      .ok [0x41#8, 0x41#8, 0x41#8, 0x41#8] 20 ∧
    refDecode [Tag.yaz0] 0xFFFFFFFF [0x59#8] = .err .truncatedInput 1 ∧
    refDecode [Tag.yaz0] 3 (header16 Tag.yaz0 4#32) = .refused := by decide

theorem witness_ResultDependsOnInputAndConfig : State.reset.inp = { midRun with inp := [], draws := 1 }.inp ∧
    State.reset.cfg = { midRun with inp := [], draws := 1 }.cfg := by decide

theorem witness_TrailingInputNeverMatters :
    refDecode [Tag.yaz0] 4 (header16 Tag.yaz0 4#32 ++ [0x80#8, 0x41#8, 0x10#8, 0x00#8, 0xEE#8]) =
      .ok [0x41#8, 0x41#8, 0x41#8, 0x41#8] 20 ∧
    20 ≤ (header16 Tag.yaz0 4#32 ++ [0x80#8, 0x41#8, 0x10#8, 0x00#8]).length ∧
    (header16 Tag.yaz0 4#32 ++ [0x80#8, 0x41#8, 0x10#8, 0x00#8]).take 20 =
      (header16 Tag.yaz0 4#32 ++ [0x80#8, 0x41#8, 0x10#8, 0x00#8, 0xEE#8]).take 20 := by decide

/-- The payload of W3a, and that of W3b, one byte short. -/
theorem witness_AllLiteralStream :
    Tag.yaz0 ∈ [Tag.yaz0] ∧ (10#32).toNat ≤ 0xFFFFFFFF ∧
    (∀ j < (10#32).toNat,
      ∀ c ∈ [0xFF#8, 0x61#8, 0x62#8, 0x63#8, 0x64#8, 0x65#8, 0x66#8, 0x67#8, 0x68#8, 0xC0#8, 0x69#8, 0x6A#8][9 * (j / 8)]?,
        c.getLsbD (7 - j % 8) = true) ∧
    (10#32).toNat + ((10#32).toNat + 7) / 8 ≤ 12 ∧ 11 < (10#32).toNat + ((10#32).toNat + 7) / 8 := by decide

/-- The operations of P1 and their plaintext. -/
theorem witness_AssembledPayloadDecodes :
    Tag.yaz0 ∈ [Tag.yaz0] ∧
    (∀ op ∈ [Instr.lit 0x41#8, .lit 0x42#8, .lit 0x43#8, .brefShort 7#4 2#12, .lit 0x44#8], isPayloadOp op = true ∧ op.wf = true) ∧
    expandOps [] [.lit 0x41#8, .lit 0x42#8, .lit 0x43#8, .brefShort 7#4 2#12, .lit 0x44#8] =
      some [0x41#8, 0x42#8, 0x43#8, 0x41#8, 0x42#8, 0x43#8, 0x41#8, 0x42#8, 0x43#8, 0x41#8, 0x42#8, 0x43#8, 0x44#8] ∧
    13 ≤ 0xFFFFFFFF ∧ 13 < 2 ^ 32 := by decide

theorem witness_AssemblerFormulas : (4095 ≤ 4095 ∧ 3 ≤ 3 ∧ 3 ≤ 17) ∧ (18 ≤ 18 ∧ 273 ≤ 273) ∧ 2 < 3 ∧ 273 < 274 ∧
    (1 ≤ 1 ∧ 4096 ≤ 4096) := by decide

end Sys2Proof.Tests
end

section
/-! PROOF. The register port (10_state.md R29, R33): what each register index reads, what a write does, the fields of
STATUS, and the two obligations about them. -/

namespace Sys2Proof.Proofs

open Sys2Proof Sys2Proof.Machine Sys2Proof.Safety Sys2Proof.Laws

section Laws

variable (s : State) (v : BitVec 32)

/-! ### Reading -/

@[simp] theorem readReg_ctrl : readReg 0#3 s = 0#32 := rfl
@[simp] theorem readReg_status : readReg 1#3 s = statusWord s := rfl
@[simp] theorem readReg_declSize : readReg 2#3 s = s.declaredSize := rfl
@[simp] theorem readReg_outLen : readReg 3#3 s = s.outLen := rfl
@[simp] theorem readReg_inPosLo : readReg 4#3 s = s.inPos.extractLsb' 0 32 := rfl
@[simp] theorem readReg_inPosHi : readReg 5#3 s = s.inPos.extractLsb' 32 32 := rfl
@[simp] theorem readReg_reserved6 : readReg 6#3 s = 0#32 := rfl
@[simp] theorem readReg_reserved7 : readReg 7#3 s = 0#32 := rfl

/-- BUSY is a function of the phase alone (R29). -/
theorem busy_eq_true_iff : s.busy = true ↔ s.phase = .header ∨ s.phase = .run := by
  simp [State.busy]

/-! ### The fields of STATUS, from bit 0 up -/

theorem statusWord_phase : (statusWord s).extractLsb' 0 3 = s.phase.code := BitVec.extractLsb'_append_eq_right

/-- STATUS above PHASE. -/
theorem statusWord_above_phase (i n : Nat) :
    (statusWord s).extractLsb' (i + 3) n = (0#26 ++ errCode s.err ++ BitVec.ofBool s.busy).extractLsb' i n :=
  BitVec.extractLsb'_append_eq_of_le (Nat.le_add_left 3 i)

theorem statusWord_busy : (statusWord s).getLsbD 3 = s.busy := by
  have above_phase : (statusWord s).getLsbD 3 = (0#26 ++ errCode s.err ++ BitVec.ofBool s.busy).getLsbD 0 :=
    BitVec.getLsbD_append
  have below_err : (0#26 ++ errCode s.err ++ BitVec.ofBool s.busy).getLsbD 0 = (BitVec.ofBool s.busy).getLsbD 0 :=
    BitVec.getLsbD_append
  rw [above_phase, below_err, BitVec.getLsbD_ofBool]
  simp

/-- STATUS above PHASE and BUSY. -/
theorem statusWord_above_busy (i n : Nat) :
    (statusWord s).extractLsb' (i + 4) n = (0#26 ++ errCode s.err).extractLsb' i n :=
  (statusWord_above_phase s (i + 1) n).trans (BitVec.extractLsb'_append_eq_of_le (Nat.le_add_left 1 i))

theorem statusWord_err : (statusWord s).extractLsb' 4 2 = errCode s.err :=
  (statusWord_above_busy s 0 2).trans BitVec.extractLsb'_append_eq_right

theorem statusWord_reserved : (statusWord s).extractLsb' 6 26 = 0#26 :=
  (statusWord_above_busy s 2 26).trans BitVec.extractLsb'_append_eq_left

/-! ### What a register depends on -/

variable {s} in
/-- The registers are functions of five fields; every other piece of state is invisible to them (R29). -/
theorem readReg_congr {t : State} (idx : BitVec 3) (hphase : s.phase = t.phase) (herr : s.err = t.err)
    (hsize : s.declaredSize = t.declaredSize) (hlen : s.outLen = t.outLen) (hpos : s.inPos = t.inPos) :
    readReg idx s = readReg idx t := by
  have hstatus : statusWord s = statusWord t := by simp only [statusWord, State.busy, hphase, herr]
  simp only [readReg, hstatus, hsize, hlen, hpos]

theorem readReg_reset : ∀ idx : BitVec 3, readReg idx State.reset = 0#32 := by decide

/-! ### Writing -/

theorem writeReg_of_ne_ctrl {idx : BitVec 3} (h : idx ≠ 0#3) : writeReg idx v s = s :=
  if_neg fun ⟨hidx, _⟩ => h hidx

variable {s v}

theorem writeReg_ctrl_start (hv : v.getLsbD 0 = true) (hb : s.busy = false) : writeReg 0#3 v s = s.start :=
  if_pos ⟨rfl, hv, hb⟩

theorem writeReg_ctrl_of_busy (hb : s.busy = true) : writeReg 0#3 v s = s :=
  if_neg fun ⟨_, _, hidle⟩ => absurd (hb.symm.trans hidle) (by decide)

theorem writeReg_ctrl_of_bit_clear (hv : v.getLsbD 0 = false) : writeReg 0#3 v s = s :=
  if_neg fun ⟨_, hset, _⟩ => absurd (hv.symm.trans hset) (by decide)

/-! ### The reset values -/

theorem atReset_reset : AtReset State.reset := ⟨rfl, rfl, rfl, rfl, rfl, rfl⟩

end Laws

/-- Settles O5: the reading, writing and STATUS laws above, one per clause. -/
theorem registerMap : Obligations.RegisterMap := by
  unfold Obligations.RegisterMap
  refine ⟨fun s => ?_, readReg_reset, rfl, rfl, rfl, rfl, rfl⟩
  have hbusy : (statusWord s).getLsbD 3 = true ↔ s.phase = .header ∨ s.phase = .run := by
    rw [statusWord_busy, busy_eq_true_iff]
  exact ⟨readReg_ctrl s, statusWord_phase s, hbusy, statusWord_err s, statusWord_reserved s,
    readReg_declSize s, readReg_outLen s, readReg_inPosLo s, readReg_inPosHi s, readReg_reserved6 s, readReg_reserved7 s,
    fun _ v h => writeReg_of_ne_ctrl s v h,
    fun _ hv hb => writeReg_ctrl_start hv hb,
    fun _ _ hb => writeReg_ctrl_of_busy hb,
    fun _ hv => writeReg_ctrl_of_bit_clear hv,
    fun idx _ _ => readReg_congr idx rfl rfl rfl rfl rfl⟩

/-- Settles O1: the field laws of `State.resetEvent` and `State.start`, and CTRL reading 0 in every state. -/
theorem resetAndStartValues : Obligations.ResetAndStartValues := by
  unfold Obligations.ResetAndStartValues
  intro s
  refine ⟨?afterReset, ?afterStart, rfl, rfl, atReset_reset⟩
  case afterReset => simp
  case afterStart => simp

end Sys2Proof.Proofs
end

section
/-! PROOF. Copy lengths and backward offsets as field values (30_encoding.md R87, R91): each of the three is a field plus
a constant, so each value in its range has one field, and each copy length one well-formed back-reference. -/

namespace Sys2Proof.Proofs

open Sys2Proof Sys2Proof.Machine

/-! ### A field plus a constant -/

theorem toNat_add_eq_iff {w : Nat} (v : BitVec w) (c n : Nat) :
    v.toNat + c = n ↔ c ≤ n ∧ n < c + 2 ^ w ∧ v = BitVec.ofNat w (n - c) := by
  have hv : v.toNat < 2 ^ w := v.isLt
  constructor
  · rintro rfl
    exact ⟨by omega, by omega, by simp⟩
  · rintro ⟨hlow, hhigh, rfl⟩
    rw [BitVec.toNat_ofNat, Nat.mod_eq_of_lt (by omega), Nat.sub_add_cancel hlow]

theorem backwardOffset_eq_iff (d : BitVec 12) (k : Nat) :
    backwardOffset d = k ↔ 1 ≤ k ∧ k ≤ 4096 ∧ d = BitVec.ofNat 12 (k - 1) := by
  rw [backwardOffset, toNat_add_eq_iff, show k < 1 + 2 ^ 12 ↔ k ≤ 4096 by omega]

theorem longCopyLength_eq_iff (e : Byte) (n : Nat) :
    longCopyLength e = n ↔ 18 ≤ n ∧ n ≤ 273 ∧ e = BitVec.ofNat 8 (n - 18) := by
  rw [longCopyLength, toNat_add_eq_iff, show n < 18 + 2 ^ 8 ↔ n ≤ 273 by omega]

/-- Nibble 0 would be length 2, which R91 leaves without an encoding. -/
theorem shortCopyLength_eq_iff (m : BitVec 4) (n : Nat) :
    m ≠ 0#4 ∧ shortCopyLength m = n ↔ 3 ≤ n ∧ n ≤ 17 ∧ m = BitVec.ofNat 4 (n - 2) := by
  have nonzero_iff : m ≠ 0#4 ↔ m.toNat ≠ 0 := not_congr BitVec.toNat_eq
  have length_iff := toNat_add_eq_iff m 2 n
  rw [shortCopyLength, nonzero_iff]
  constructor
  · rintro ⟨hm, hlen⟩
    obtain ⟨-, hhigh, hfield⟩ := length_iff.mp hlen
    exact ⟨by omega, by omega, hfield⟩
  · rintro ⟨hlow, hhigh, hfield⟩
    have hlen : m.toNat + 2 = n := length_iff.mpr ⟨by omega, by omega, hfield⟩
    exact ⟨by omega, hlen⟩

/-! ### The encoding of a distance and a copy length -/

/-- R91: the length alone selects the form, and the field is the length less the form's constant. -/
theorem wf_copyOperands_iff (i : Instr) (d : BitVec 12) (n : Nat) :
    (i.wf = true ∧ copyOperands i = some (d, n)) ↔
      (3 ≤ n ∧ n ≤ 17 ∧ i = .brefShort (BitVec.ofNat 4 (n - 2)) d) ∨
      (18 ≤ n ∧ n ≤ 273 ∧ i = .brefLong d (BitVec.ofNat 8 (n - 18))) := by
  cases i with
  | hdr | ctrl | lit | endDecode => simp [copyOperands]
  | brefShort m d' =>
    have h := shortCopyLength_eq_iff m n
    simp only [Instr.wf, copyOperands, bne_iff_ne, Option.some.injEq, Prod.mk.injEq, Instr.brefShort.injEq, reduceCtorEq]
    tauto
  | brefLong d' e =>
    have h := longCopyLength_eq_iff e n
    simp only [Instr.wf, copyOperands, Option.some.injEq, Prod.mk.injEq, Instr.brefLong.injEq, reduceCtorEq]
    tauto

theorem existsUnique_wf_copyOperands (d : BitVec 12) {n : Nat} (hlow : 3 ≤ n) (hhigh : n ≤ 273) :
    ∃! i : Instr, i.wf = true ∧ copyOperands i = some (d, n) := by
  simp only [wf_copyOperands_iff]
  rcases Nat.lt_or_ge 17 n with hlong | hshort
  · refine ⟨.brefLong d (BitVec.ofNat 8 (n - 18)), .inr ⟨hlong, hhigh, rfl⟩, ?_⟩
    rintro i (⟨-, hle, -⟩ | ⟨-, -, rfl⟩)
    · omega
    · rfl
  · refine ⟨.brefShort (BitVec.ofNat 4 (n - 2)) d, .inl ⟨hlow, hshort, rfl⟩, ?_⟩
    rintro i (⟨-, -, rfl⟩ | ⟨hge, -, -⟩)
    · rfl
    · omega

theorem length_of_wf_copyOperands {i : Instr} {d : BitVec 12} {n : Nat} (hwf : i.wf = true)
    (hops : copyOperands i = some (d, n)) :
    (3 ≤ n ∧ n ≤ 17 ∧ i.length = 2) ∨ (18 ≤ n ∧ n ≤ 273 ∧ i.length = 3) := by
  rcases (wf_copyOperands_iff i d n).mp ⟨hwf, hops⟩ with ⟨hlow, hhigh, rfl⟩ | ⟨hlow, hhigh, rfl⟩
  · exact .inl ⟨hlow, hhigh, rfl⟩
  · exact .inr ⟨hlow, hhigh, rfl⟩

theorem existsUnique_backwardOffset {k : Nat} (hlow : 1 ≤ k) (hhigh : k ≤ 4096) :
    ∃! d : BitVec 12, backwardOffset d = k := by
  simp only [backwardOffset_eq_iff]
  exact ⟨BitVec.ofNat 12 (k - 1), ⟨hlow, hhigh, rfl⟩, fun _ ⟨_, _, hd⟩ => hd⟩

/-- R166: a copy is cut to the room that is left. -/
theorem copyCount_eq_room {s : State} {len : Nat} (h : s.declaredSize.toNat - s.outLen.toNat ≤ len) :
    copyCount len s = s.declaredSize.toNat - s.outLen.toNat := Nat.min_eq_right h

/-- Settles O15: by the inverse of each field's formula; the length alone tells the two forms apart. -/
theorem copyLengthHasOneEncoding : Obligations.CopyLengthHasOneEncoding := by
  unfold Obligations.CopyLengthHasOneEncoding
  exact ⟨fun d _ hlow hhigh => existsUnique_wf_copyOperands d hlow hhigh,
    fun _ _ _ hwf hops => length_of_wf_copyOperands hwf hops,
    fun _ hlow hhigh => existsUnique_backwardOffset hlow hhigh,
    fun _ _ hroom => copyCount_eq_room hroom.le⟩

end Sys2Proof.Proofs
end

section
/-! PROOF. A decode of declared size 0 (40_header.md R116): the step in HEADER on an encoded header, the step in RUN with
the output full, and the two after each other. -/

namespace Sys2Proof.Proofs

open Sys2Proof Sys2Proof.Machine Sys2Proof.Safety Sys2Proof.Laws

section Laws

variable {s : State} {m : Tag} {n : BitVec 32} {r : BitVec 64} {more : List Byte}

theorem avail_of_inPos_eq_zero (hpos : s.inPos = 0#64) : s.avail = s.inp.length := by
  simp [State.avail, hpos]

theorem rest_of_inPos_eq_zero (hpos : s.inPos = 0#64) : rest s = s.inp := by
  simp [rest, hpos]

/-- The state HDR leaves when it completes (R115). -/
def afterHeader (n : BitVec 32) (s : State) : State := ((advance 16 s).setDeclaredSize n).setPhase .run

/-- R110, R115: all 16 bytes there, the tag accepted and the size within `MAX_OUT`. -/
theorem execHdr_completes (hwrap : s.inPos.toNat + 16 < 2 ^ 64) (havail : 16 ≤ s.avail) (hm : m ∈ s.cfg.magicSet)
    (hn : n ≤ s.cfg.maxOut) : execHdr m n r s = .next (afterHeader n s) := by
  have htag : ¬ s.avail < 4 := by omega
  have hsize : ¬ s.avail < 8 := by omega
  have hreserved : ¬ s.avail < 16 := by omega
  have hfits : ¬ s.cfg.maxOut < n := BitVec.not_lt.mpr hn
  rw [execHdr_eq m n r s hwrap, if_neg htag, if_neg (not_not_intro hm), if_neg hsize, if_neg hreserved, if_neg hfits]
  rfl

theorem step_header_encode (hphase : s.phase = .header) (hoverlap : s.cfg.inOutOverlap = false) (hpos : s.inPos = 0#64)
    (hinp : s.inp = encode (.hdr m n r) ++ more) : step s = execHdr m n r s := by
  have hdecode : decode .header (rest s) = .ok (.hdr m n r, more) := by
    rw [rest_of_inPos_eq_zero hpos, hinp]
    exact decodeHeader_encode m n r more
  calc step s = execFetched .header s := step_in_header hphase hoverlap
    _ = exec (.hdr m n r) s := execFetched_of_decode hdecode
    _ = execHdr m n r s := rfl

/-- A container that begins with an accepted header leaves HEADER for RUN in one step, whatever follows. -/
theorem step_accepted_header (hphase : s.phase = .header) (hoverlap : s.cfg.inOutOverlap = false)
    (hpos : s.inPos = 0#64) (hinp : s.inp = encode (.hdr m n r) ++ more) (hm : m ∈ s.cfg.magicSet)
    (hn : n ≤ s.cfg.maxOut) : step s = .next (afterHeader n s) := by
  have havail : 16 ≤ s.avail := by
    have hlength : (encode (.hdr m n r)).length = 16 := (EncodeLength.hdr m n r).1
    rw [avail_of_inPos_eq_zero hpos, hinp, List.length_append, hlength]
    exact Nat.le_add_right 16 _
  have hwrap : s.inPos.toNat + 16 < 2 ^ 64 := by simp [hpos]
  rw [step_header_encode hphase hoverlap hpos hinp]
  exact execHdr_completes hwrap havail hm hn

theorem step_of_select_finish (hsel : select s = .item .finish) (hoverlap : s.cfg.inOutOverlap = false) :
    step s = .next (s.setPhase .done) := by
  rw [step_eq, hsel]
  simp only [hoverlap]
  exact execFetched_finish s

end Laws

/-- Settles O23: HDR writes declared_size 0, which START has already made the value of out_len, so the loop test selects
END before anything is read. -/
theorem emptyOutputDecode : Obligations.EmptyOutputDecode := by
  unfold Obligations.EmptyOutputDecode
  intro s m reserved more hinv hphase hoverlap hm hinp
  obtain ⟨-, hout, hlen, hpos, -, -⟩ := hinv.atStart (.inr hphase)
  have hcursor : (afterHeader 0#32 s).inPos = 16#64 := by simp [afterHeader, advance, hpos]
  have hfits : 0#32 ≤ s.cfg.maxOut := BitVec.le_def.mpr (Nat.zero_le _)
  have hheader : step s = .next (afterHeader 0#32 s) := step_accepted_header hphase hoverlap hpos hinp hm hfits
  have hsel : select (afterHeader 0#32 s) = .item .finish := (select_eq_finish _).mpr ⟨rfl, hlen⟩
  have hend : step (afterHeader 0#32 s) = .next ((afterHeader 0#32 s).setPhase .done) :=
    step_of_select_finish hsel hoverlap
  exact ⟨_, _, hheader, hcursor, hsel, hend, rfl, hout, hlen, hcursor⟩

end Sys2Proof.Proofs
end

section
/-! PROOF. The control-bit iterator (41_control_bit_iterator.md R130 to R135): when CTRL and END are selected and what
they do, what a payload operation that completes does to the count of flag bits, and the order of the flag bits. -/

namespace Sys2Proof.Proofs

open Sys2Proof Sys2Proof.Machine Sys2Proof.Safety Sys2Proof.Laws

section Laws

variable {s t : State}

/-! ### CTRL -/

theorem execCtrl_of_avail (c : Byte) (havail : 1 ≤ s.avail) : execCtrl c s = .next (afterControl c s) := by
  rw [execCtrl_eq, if_neg (by omega), afterControl]

theorem execCtrl_of_no_avail (c : Byte) (havail : s.avail = 0) :
    execCtrl c s = .next ((atEnd s).errorEntry .truncatedInput) := by
  rw [execCtrl_eq, if_pos havail]

/-- R134: a flag bit selects an operation, never a control byte. -/
theorem selectOp_ne_control (s : State) : selectOp s ≠ .item .control := by
  unfold selectOp
  split <;> simp

/-- Row 3 of R88. -/
theorem select_eq_control (s : State) :
    select s = .item .control ↔ s.phase = .run ∧ s.outLen ≠ s.declaredSize ∧ s.bitsRemaining = 0#4 := by
  cases hphase : s.phase with
  | idle | header | done | error => simp [select, hphase]
  | run =>
    by_cases hfull : s.outLen = s.declaredSize
    · simp [select, hphase, hfull]
    · by_cases hbits : s.bitsRemaining = 0#4
      · simp [select, hphase, hfull, hbits]
      · simp [select, hphase, hfull, hbits, selectOp_ne_control]

/-! ### The flag bit -/

theorem flagBit_of_bitsRemaining {k : Nat} (hk : k < 8) (hbits : s.bitsRemaining.toNat = k + 1) :
    flagBit s = some (s.controlByte.getLsbD k) := by
  rw [flagBit_some (by omega) (by omega), hbits, Nat.add_sub_cancel]

theorem flagBit_afterControl (c : Byte) (s : State) : flagBit (afterControl c s) = some (c.getLsbD 7) :=
  flagBit_of_bitsRemaining (s := afterControl c s) (k := 7) (by decide) rfl

/-! ### Payload operations that complete -/

/-- What LIT can leave: an error with nothing appended, or one byte appended and one flag bit used (R150). -/
theorem execLit_next {v : Byte} (h : execLit v s = .next t) :
    t = (atEnd s).errorEntry .truncatedInput ∨
      (s.outLen.toNat < s.declaredSize.toNat ∧ s.bitsRemaining ≠ 0#4 ∧
        t = ((advance 1 s).append v).setBits (s.bitsRemaining - 1#4)) := by
  rw [execLit_eq] at h
  split at h
  · exact .inl (Host.Outcome.next.inj h).symm
  · split at h
    · split at h
      · cases h
      · exact .inr ⟨‹_›, ‹_›, (Host.Outcome.next.inj h).symm⟩
    · cases h

/-- R135, R27: one flag bit of the control byte is used, and the control byte is kept. -/
structure FlagBitUsed (s t : State) : Prop where
  controlByte : t.controlByte = s.controlByte
  hadBit : s.bitsRemaining ≠ 0#4
  bits : t.bitsRemaining = s.bitsRemaining - 1#4

theorem execLit_uses_flagBit {v : Byte} (h : execLit v s = .next t) (ht : t.phase ≠ .error) : FlagBitUsed s t := by
  obtain rfl | ⟨-, hbits, rfl⟩ := execLit_next h
  · exact absurd rfl ht
  · exact ⟨rfl, hbits, rfl⟩

theorem backReference_uses_flagBit {d : BitVec 12} {extra len : Nat} (h : (backReference d extra len s).outcome = .next t)
    (ht : t.phase ≠ .error) : FlagBitUsed s t := by
  obtain rfl | ⟨-, rfl⟩ | ⟨u, -, hcopy, hbits, rfl⟩ := backReference_next h
  · exact absurd rfl ht
  · exact absurd rfl ht
  · obtain ⟨hregs, -, -, -⟩ := copyBytes_ok hcopy
    have hcontrol : u.controlByte = s.controlByte := by rw [hregs]; rfl
    exact ⟨hcontrol, hbits, rfl⟩

theorem payloadOp_uses_flagBit {i : Instr} (hop : isPayloadOp i = true) (h : exec i s = .next t)
    (ht : t.phase ≠ .error) : FlagBitUsed s t := by
  cases i with
  | lit => exact execLit_uses_flagBit h ht
  | brefShort | brefLong => exact backReference_uses_flagBit h ht
  | hdr | ctrl | endDecode => cases hop

/-- The next flag bit is one position lower in the same control byte. -/
theorem FlagBitUsed.flagBit_next {k : Nat} (h : FlagBitUsed s t) (hk : k < 7) (hbits : s.bitsRemaining.toNat = k + 2) :
    flagBit t = some (s.controlByte.getLsbD k) := by
  have hcount : t.bitsRemaining.toNat = k + 1 := by
    rw [h.bits]
    bv_omega
  rw [flagBit_of_bitsRemaining (by omega) hcount, h.controlByte]

end Laws

/-- Settles O24: the two branches of CTRL, row 3 of the selection table, and the decoder on a list that has a byte. -/
theorem ctrlLoadsControlByte : Obligations.CtrlLoadsControlByte := by
  unfold Obligations.CtrlLoadsControlByte
  refine ⟨fun c s havail => execCtrl_of_avail c havail, fun c s havail => execCtrl_of_no_avail c havail,
    select_eq_control, ?_⟩
  intro s c more hrest
  rw [hrest]
  rfl

/-- Settles O25: END reads nothing, so the bits it leaves are those of an iteration boundary, at most 7 by the invariant. -/
theorem endFinishesDecode : Obligations.EndFinishesDecode := by
  unfold Obligations.EndFinishesDecode
  refine ⟨execEndDecode_eq, select_eq_finish, ?_⟩
  intro s hinv hphase hfull hoverlap
  have hsel : select s = .item .finish := (select_eq_finish s).mpr ⟨hphase, hfull⟩
  exact ⟨step_of_select_finish hsel hoverlap, hinv.bitsLt (.inl hphase)⟩

/-- Settles O19: CTRL sets the count to 8, and every operation that completes lowers it by one and keeps the control
byte. -/
theorem flagBitsMsbFirst : Obligations.FlagBitsMsbFirst := by
  unfold Obligations.FlagBitsMsbFirst
  refine ⟨fun s => flagBit_some, ?_, ?_⟩
  · intro c s havail
    exact ⟨afterControl c s, execCtrl_of_avail c havail, flagBit_afterControl c s⟩
  · intro i s t j hop hexec ht hj hbits
    have hused : FlagBitUsed s t := payloadOp_uses_flagBit hop hexec ht
    exact ⟨flagBit_of_bitsRemaining (by omega) (by omega), hused.flagBit_next (by omega) (by omega)⟩

end Sys2Proof.Proofs
end

section
/-! PROOF. The literal path (42_literal.md R150, R151): LIT on the two branches of its one read, what one iteration of the
reference decode (R200) comes to once its flag bit is known, and the decode of an all-literal stream by induction over the
output bytes still missing. -/

namespace Sys2Proof.Proofs

open Sys2Proof Sys2Proof.Machine Sys2Proof.Safety Sys2Proof.Laws

section Lit

variable {s : State} {v : Byte}

/-- The state LIT leaves when it completes (R150, R135). -/
def afterLit (v : Byte) (s : State) : State := ((advance 1 s).append v).setBits (s.bitsRemaining - 1#4)

theorem execLit_completes (havail : 1 ≤ s.avail) (hroom : s.outLen < s.declaredSize) (hbits : s.bitsRemaining ≠ 0#4) :
    execLit v s = .next (afterLit v s) := by
  have hbyte : ¬ s.avail = 0 := by omega
  rw [execLit_eq, if_neg hbyte, if_pos (BitVec.lt_def.mp hroom), if_neg hbits, afterLit]

theorem execLit_of_no_avail (havail : s.avail = 0) :
    execLit v s = .next ((atEnd s).errorEntry .truncatedInput) := by
  rw [execLit_eq, if_pos havail]

theorem read_afterLit_outLen : Memory.read (afterLit v s).out s.outLen.toNat = some v :=
  read_write_same s.out s.outLen.toNat v

theorem read_afterLit_of_ne {a : Nat} (ha : a ≠ s.outLen.toNat) :
    Memory.read (afterLit v s).out a = Memory.read s.out a :=
  read_write_other s.out s.outLen.toNat a v ha

end Lit

/-- Settles O26: the two branches of LIT's read; the one write is at out_len. -/
theorem litAppendsByte : Obligations.LitAppendsByte := by
  unfold Obligations.LitAppendsByte
  constructor
  · intro v s havail hroom hbits
    exact ⟨afterLit v s, execLit_completes havail hroom hbits, read_afterLit_outLen, fun _ ha => read_afterLit_of_ne ha, rfl⟩
  · intro v s havail
    exact execLit_of_no_avail havail

/-! ### One iteration of the reference decode -/

section Iteration

variable {inp out : List Byte} {size fuel pos pos' br br' : Nat} {cb c v : Byte}

theorem refOp_literal (hv : inp[pos]? = some v) : refOp inp size pos out true = .ok (pos + 1, out ++ [v]) := by
  simp [refOp, hv]

theorem refOp_literal_missing (hv : inp[pos]? = none) :
    refOp inp size pos out true = .error (.truncatedInput, inp.length) := by
  simp [refOp, hv]

/-- The cursor, the control byte and the bit count an operation starts from (R132, R137): a control byte is read where
no flag bit is left; none where that byte is missing. -/
def fetchFlags (inp : List Byte) (pos : Nat) (cb : Byte) (br : Nat) : Option (Nat × Byte × Nat) :=
  if br = 0 then inp[pos]?.map fun c => (pos + 1, c, 8) else some (pos, cb, br)

theorem refLoop_full (hfull : out.length = size) : refLoop inp size fuel pos out cb br = .ok out pos := by
  cases fuel with
  | zero => rfl
  | succ fuel => rw [refLoop, if_pos hfull]

theorem refLoop_of_fetch_none (hroom : out.length ≠ size) (hfetch : fetchFlags inp pos cb br = none) :
    refLoop inp size (fuel + 1) pos out cb br = .err .truncatedInput inp.length := by
  by_cases hbr : br = 0
  · have hcontrol : inp[pos]? = none := by simpa [fetchFlags, hbr] using hfetch
    simp [refLoop, hroom, hbr, hcontrol]
  · simp [fetchFlags, hbr] at hfetch

/-- How the loop goes on from what its operation answers. -/
def afterOp (inp : List Byte) (size fuel : Nat) (c : Byte) (br : Nat) :
    Except (ErrorKind × Nat) (Nat × List Byte) → DecodeResult
  | .ok (pos, out) => refLoop inp size fuel pos out c br
  | .error (k, p) => .err k p

theorem refLoop_of_fetch_some (hroom : out.length ≠ size) (hfetch : fetchFlags inp pos cb br = some (pos', c, br')) :
    refLoop inp size (fuel + 1) pos out cb br =
      afterOp inp size fuel c (br' - 1) (refOp inp size pos' out (c.getLsbD (br' - 1))) := by
  by_cases hbr : br = 0
  · obtain ⟨b, hcontrol, hb⟩ : ∃ b, inp[pos]? = some b ∧ (pos + 1, b, 8) = (pos', c, br') := by
      simpa [fetchFlags, hbr] using hfetch
    cases hb
    simp only [refLoop, hroom, hbr, hcontrol, if_true, if_false]
    rfl
  · have hb : (pos, cb, br) = (pos', c, br') := by simpa [fetchFlags, hbr] using hfetch
    cases hb
    simp only [refLoop, hroom, hbr, if_false]
    rfl

end Iteration

/-! ### Where the bytes of an all-literal stream stand (R151) -/

/-- The payload offset of the control byte that governs literal `j`. -/
def controlOffset (j : Nat) : Nat := 9 * (j / 8)

/-- The payload offset of literal `j`. -/
def literalOffset (j : Nat) : Nat := controlOffset j + 1 + j % 8

/-- The payload bytes read once `j` literals are appended. -/
def literalsRead (j : Nat) : Nat := j + (j + 7) / 8

/-- The flag bits left once `j` literals are appended. -/
def flagsLeft (j : Nat) : Nat := if j % 8 = 0 then 0 else 8 - j % 8

theorem literalsRead_of_dvd {j : Nat} (h : j % 8 = 0) : literalsRead j = controlOffset j := by
  unfold literalsRead controlOffset
  omega

theorem literalOffset_of_dvd {j : Nat} (h : j % 8 = 0) : literalOffset j = controlOffset j + 1 := by
  rw [literalOffset, h]

theorem literalsRead_of_not_dvd {j : Nat} (h : j % 8 ≠ 0) : literalsRead j = literalOffset j := by
  unfold literalsRead literalOffset controlOffset
  omega

theorem literalsRead_succ (j : Nat) : literalsRead (j + 1) = literalOffset j + 1 := by
  unfold literalsRead literalOffset controlOffset
  omega

theorem flagsLeft_succ (j : Nat) : flagsLeft (j + 1) = 7 - j % 8 := by
  unfold flagsLeft
  split <;> omega

theorem controlOffset_lt_literalOffset (j : Nat) : controlOffset j < literalOffset j := by
  unfold literalOffset
  omega

theorem literalsRead_mono {i j : Nat} (h : i ≤ j) : literalsRead i ≤ literalsRead j := by
  unfold literalsRead
  omega

theorem literalOffset_lt_literalsRead {j n : Nat} (h : j < n) : literalOffset j < literalsRead n := by
  have hmono : literalsRead (j + 1) ≤ literalsRead n := literalsRead_mono h
  rw [literalsRead_succ] at hmono
  exact hmono

/-- The first `n` payload bytes that are not control bytes. -/
def literals (payload : List Byte) (n : Nat) : List Byte :=
  (List.range n).map fun j => payload[literalOffset j]?.getD 0#8

@[simp] theorem literals_length (payload : List Byte) (n : Nat) : (literals payload n).length = n := by
  simp [literals]

theorem literals_succ {payload : List Byte} {j : Nat} {v : Byte} (hv : payload[literalOffset j]? = some v) :
    literals payload (j + 1) = literals payload j ++ [v] := by
  simp [literals, List.range_succ, hv]

theorem literals_getElem? {payload : List Byte} {j n : Nat} (hj : j < n) (hoffset : literalOffset j < payload.length) :
    (literals payload n)[j]? = payload[literalOffset j]? := by
  simp [literals, hj, hoffset]

/-! ### The decode of an all-literal stream -/

section Stream

/-- Every flag bit a decode of `n` literals reads is 1. -/
def AllFlagsLiteral (payload : List Byte) (n : Nat) : Prop :=
  ∀ j < n, ∀ c, payload[controlOffset j]? = some c → c.getLsbD (7 - j % 8) = true

/-- What the decode of `n` literals comes to: the literals, or the payload's end (R151). -/
def literalResult (payload : List Byte) (n : Nat) : DecodeResult :=
  if literalsRead n ≤ payload.length then .ok (literals payload n) (16 + literalsRead n)
  else .err .truncatedInput (16 + payload.length)

theorem literalResult_of_missing {payload : List Byte} {i n : Nat} (hi : i < literalsRead n) (hnone : payload[i]? = none) :
    literalResult payload n = .err .truncatedInput (16 + payload.length) := by
  have hlen : payload.length ≤ i := List.getElem?_eq_none_iff.mp hnone
  rw [literalResult, if_neg (by omega)]

variable {header payload : List Byte} {j n k : Nat} {cb c : Byte}

/-- Inside a group the loop holds the control byte that governs literal `j`. -/
def HoldsControl (payload : List Byte) (j : Nat) (cb : Byte) : Prop :=
  j % 8 ≠ 0 → payload[controlOffset j]? = some cb

theorem holdsControl_succ (hc : payload[controlOffset j]? = some c) : HoldsControl payload (j + 1) c := by
  intro hj
  have hgroup : controlOffset (j + 1) = controlOffset j := by
    unfold controlOffset
    omega
  rw [hgroup, hc]

theorem payload_getElem? (hheader : header.length = 16) (i : Nat) : (header ++ payload)[16 + i]? = payload[i]? := by
  rw [List.getElem?_append_right (by omega), hheader, Nat.add_sub_cancel_left]

theorem fetchFlags_literal (hheader : header.length = 16) (hcb : HoldsControl payload j cb)
    (hc : payload[controlOffset j]? = some c) :
    fetchFlags (header ++ payload) (16 + literalsRead j) cb (flagsLeft j) = some (16 + literalOffset j, c, 8 - j % 8) := by
  by_cases hj : j % 8 = 0
  · rw [literalsRead_of_dvd hj, literalOffset_of_dvd hj]
    simp [fetchFlags, flagsLeft, hj, payload_getElem? hheader, hc, Nat.add_assoc]
  · obtain rfl : cb = c := Option.some.inj ((hcb hj).symm.trans hc)
    have hbits : 8 - j % 8 ≠ 0 := by omega
    rw [literalsRead_of_not_dvd hj, fetchFlags, flagsLeft, if_neg hj, if_neg hbits]

theorem fetchFlags_literal_missing (hheader : header.length = 16) (hcb : HoldsControl payload j cb)
    (hc : payload[controlOffset j]? = none) :
    fetchFlags (header ++ payload) (16 + literalsRead j) cb (flagsLeft j) = none := by
  by_cases hj : j % 8 = 0
  · rw [literalsRead_of_dvd hj]
    simp [fetchFlags, flagsLeft, hj, payload_getElem? hheader, hc]
  · cases (hcb hj).symm.trans hc

/-- The loop with `j` literals appended and `k` missing. Each iteration finds its control byte and its literal, or the end
of the payload. -/
theorem refLoop_literals (hheader : header.length = 16) (hflags : AllFlagsLiteral payload n) (hcount : j + k = n)
    (hread : literalsRead j ≤ payload.length) (hcb : HoldsControl payload j cb) :
    refLoop (header ++ payload) n k (16 + literalsRead j) (literals payload j) cb (flagsLeft j) =
      literalResult payload n := by
  have hlength : (header ++ payload).length = 16 + payload.length := by rw [List.length_append, hheader]
  induction k generalizing j cb with
  | zero =>
    obtain rfl : j = n := hcount
    rw [refLoop_full (literals_length payload j), literalResult, if_pos hread]
  | succ k ih =>
    have hj : j < n := by omega
    have hroom : (literals payload j).length ≠ n := by
      rw [literals_length]
      exact hj.ne
    have hbefore : literalOffset j < literalsRead n := literalOffset_lt_literalsRead hj
    cases hc : payload[controlOffset j]? with
    | none =>
      have hcontrol : controlOffset j < literalsRead n := (controlOffset_lt_literalOffset j).trans hbefore
      rw [refLoop_of_fetch_none hroom (fetchFlags_literal_missing hheader hcb hc),
        literalResult_of_missing hcontrol hc, hlength]
    | some c =>
      have hbits : 8 - j % 8 - 1 = 7 - j % 8 := Nat.sub_right_comm 8 (j % 8) 1
      have hflag : c.getLsbD (7 - j % 8) = true := hflags j hj c hc
      have hbyte := payload_getElem? (payload := payload) hheader (literalOffset j)
      rw [refLoop_of_fetch_some hroom (fetchFlags_literal hheader hcb hc), hbits, hflag]
      cases hv : payload[literalOffset j]? with
      | none =>
        rw [refOp_literal_missing (hbyte.trans hv), afterOp, literalResult_of_missing hbefore hv, hlength]
      | some v =>
        have hread' : literalsRead (j + 1) ≤ payload.length := by
          rw [literalsRead_succ]
          exact (List.getElem?_eq_some_iff.mp hv).1
        rw [refOp_literal (hbyte.trans hv), afterOp, ← literals_succ hv, Nat.add_assoc, ← literalsRead_succ,
          ← flagsLeft_succ]
        exact ih (by omega) hread' (holdsControl_succ hc)

theorem refDecode_literals {tags : List Tag} {maxOut : Nat} {m : Tag} {size : BitVec 32} {reserved : BitVec 64}
    (hm : m ∈ tags) (hsize : size.toNat ≤ maxOut) (hflags : AllFlagsLiteral payload size.toNat) :
    refDecode tags maxOut (encode (.hdr m size reserved) ++ payload) = literalResult payload size.toNat := by
  have hheader : (encode (.hdr m size reserved)).length = 16 := (EncodeLength.hdr m size reserved).1
  rw [refDecode_hdr tags maxOut m size reserved payload hm hsize]
  exact refLoop_literals hheader hflags (Nat.zero_add _) (Nat.zero_le _) (fun h => absurd rfl h)

end Stream

/-- Settles O51: the loop's closed form, split at whether the payload holds all the bytes the decode reads. -/
theorem allLiteralStream : Obligations.AllLiteralStream := by
  unfold Obligations.AllLiteralStream
  intro tags maxOut m n reserved payload hm hn hflags
  have hdecode := refDecode_literals (reserved := reserved) hm hn hflags
  constructor
  · intro (hlong : literalsRead n.toNat ≤ payload.length)
    rw [literalResult, if_pos hlong, literalsRead, ← Nat.add_assoc] at hdecode
    refine ⟨literals payload n.toNat, hdecode, literals_length payload n.toNat, fun j hj => ?_⟩
    exact literals_getElem? hj ((literalOffset_lt_literalsRead hj).trans_le hlong)
  · intro (hshort : payload.length < literalsRead n.toNat)
    rw [hdecode, literalResult, if_neg hshort.not_ge]

end Sys2Proof.Proofs
end

section
/-! PROOF. The back-reference unpacker (43_back_reference.md R160 to R174): the operands and their widths, each path of the
shared operation, and what the copy leaves at distance 0 and without overlap. -/

namespace Sys2Proof.Proofs

open Sys2Proof Sys2Proof.Machine Sys2Proof.Safety Sys2Proof.Laws

section Unpack

variable {b0 b1 b2 : Byte}

/-! ### The unpacker and the decoder on three bytes (R174) -/

theorem shiftRight_eq_zero_iff (b : Byte) : b.toNat >>> 4 = 0 ↔ highNibble b = 0#4 := by
  rw [shiftRight_eq_highNibble, BitVec.toNat_eq]
  rfl

theorem unpack_distance (b0 b1 b2 : Byte) : (unpack b0 b1 b2).1 = distanceField b0 b1 := by
  unfold unpack
  split <;> rfl

theorem unpack_long (h : highNibble b0 = 0#4) : unpack b0 b1 b2 = (distanceField b0 b1, longCopyLength b2, 3) := if_pos h

theorem unpack_short (h : highNibble b0 ≠ 0#4) :
    unpack b0 b1 b2 = (distanceField b0 b1, shortCopyLength (highNibble b0), 2) := if_neg h

theorem decode_backRef_long (h : highNibble b0 = 0#4) (more : List Byte) :
    decode .backRef (b0 :: b1 :: b2 :: more) = .ok (.brefLong (distanceField b0 b1) b2, more) := if_pos h

theorem decode_backRef_short (h : highNibble b0 ≠ 0#4) (more : List Byte) :
    decode .backRef (b0 :: b1 :: more) = .ok (.brefShort (highNibble b0) (distanceField b0 b1), more) := if_neg h

end Unpack

section Widths

variable {d : BitVec 12} {s : State} {a n : Nat}

/-! ### Operand values (R172) -/

theorem backwardOffset_bounds (d : BitVec 12) : 1 ≤ backwardOffset d ∧ backwardOffset d ≤ 4096 := by
  obtain ⟨hlow, hhigh, -⟩ := (backwardOffset_eq_iff d _).mp rfl
  exact ⟨hlow, hhigh⟩

/-- Nibble 0 is counted too, though no well-formed item has it. -/
theorem copyOperands_length_le {i : Instr} (h : copyOperands i = some (d, n)) : n ≤ 273 := by
  cases i with
  | hdr | ctrl | lit | endDecode => cases h
  | brefShort m _ =>
    cases h
    have : m.toNat < 16 := m.isLt
    unfold shortCopyLength
    omega
  | brefLong _ e =>
    cases h
    obtain ⟨-, hhigh, -⟩ := (longCopyLength_eq_iff e _).mp rfl
    exact hhigh

theorem sourceStart_eq_none_iff : sourceStart d s = none ↔ s.outLen.toNat ≤ d.toNat :=
  sourceStart_none.trans Nat.lt_succ_iff

theorem sourceStart_add_backwardOffset (h : sourceStart d s = some a) : a + backwardOffset d = s.outLen.toNat := by
  unfold sourceStart at h
  split at h
  · cases h
  · cases h
    omega

/-- R171: a read of a copy is at most 4096 bytes back. -/
theorem outLen_le_sourceStart_add (h : sourceStart d s = some a) : s.outLen.toNat ≤ a + 4096 := by
  have := sourceStart_add_backwardOffset h
  have := backwardOffset_bounds d
  omega

theorem copyCount_le (len : Nat) (s : State) : copyCount len s ≤ len := Nat.min_le_left _ _

theorem outLen_add_copyCount_le (len : Nat) (h : s.outLen.toNat ≤ s.declaredSize.toNat) :
    s.outLen.toNat + copyCount len s ≤ s.declaredSize.toNat := by
  have : copyCount len s ≤ s.declaredSize.toNat - s.outLen.toNat := Nat.min_le_right _ _
  omega

end Widths

section Paths

variable {d : BitVec 12} {x len : Nat} {s t : State}

/-! ### The paths of the shared operation, in the order of R160 -/

theorem backReference_of_short_descriptor (hpos : s.inPos.toNat + (2 + x) < 2 ^ 64) (havail : s.avail < 2) :
    backReference d x len s = .raised .truncatedInput (atEnd s) := by
  rw [backReference_eq d x len s hpos, if_pos havail]

/-- The range check, whether or not the bytes after the descriptor are there (D16). -/
theorem backReference_of_bad_distance (hpos : s.inPos.toNat + (2 + x) < 2 ^ 64) (havail : 2 ≤ s.avail)
    (hd : s.outLen.toNat ≤ d.toNat) : backReference d x len s = .raised .invalidBackReference (advance 2 s) := by
  have hrange : s.outLen.toNat < backwardOffset d := Nat.lt_succ_of_le hd
  rw [backReference_eq d x len s hpos, if_neg havail.not_gt, if_pos hrange]

theorem backReference_of_length_missing (hpos : s.inPos.toNat + (2 + x) < 2 ^ 64) (havail : 2 ≤ s.avail)
    (hmissing : s.avail < 2 + x) (hd : d.toNat < s.outLen.toNat) :
    backReference d x len s = .raised .truncatedInput (atEnd s) := by
  have hrange : ¬ s.outLen.toNat < backwardOffset d := Nat.not_lt.mpr hd
  rw [backReference_eq d x len s hpos, if_neg havail.not_gt, if_neg hrange, if_pos hmissing]

theorem backReference_completes (hpos : s.inPos.toNat + (2 + x) < 2 ^ 64) (havail : 2 + x ≤ s.avail)
    (hd : d.toNat < s.outLen.toNat) (hdense : OutDense s) (hbits : s.bitsRemaining ≠ 0#4) :
    ∃ t, backReference d x len s = .ok t ∧ CopyResult d len (2 + x) s t := by
  have hrange : ¬ s.outLen.toNat < backwardOffset d := Nat.not_lt.mpr hd
  obtain ⟨u, hcopy, -, -, hresult⟩ := copyResult_of_dense (used := 2 + x) (len := len) hdense (Nat.not_lt.mp hrange)
  obtain ⟨hregs, -, -, -⟩ := copyBytes_ok hcopy
  have hu : u.bitsRemaining = s.bitsRemaining := by rw [hregs]; rfl
  refine ⟨u.setBits (s.bitsRemaining - 1#4), ?_, hresult⟩
  rw [backReference_eq d x len s hpos, if_neg (by omega), if_neg hrange, if_neg havail.not_gt, hcopy, andThen_ok,
    completeOp_eq, hu, if_neg hbits]

/-- What a back-reference that raised no error left, with no premise on the cursor. -/
theorem copyResult_of_backReference_next (hdense : OutDense s) (h : (backReference d x len s).outcome = .next t)
    (ht : t.phase ≠ .error) : CopyResult d len (2 + x) s t := by
  obtain rfl | ⟨-, rfl⟩ | ⟨u, hrange, hcopy, -, rfl⟩ := backReference_next h
  · exact absurd rfl ht
  · exact absurd rfl ht
  · obtain ⟨v, hcopy', -, -, hresult⟩ := copyResult_of_dense (used := 2 + x) (len := len) hdense hrange
    obtain rfl : u = v := Res.ok.inj (hcopy.symm.trans hcopy')
    exact hresult

theorem copyResult_of_exec_next {i : Instr} (hops : copyOperands i = some (d, len)) (hdense : OutDense s)
    (h : exec i s = .next t) (ht : t.phase ≠ .error) : ∃ used, CopyResult d len used s t := by
  cases i with
  | hdr | ctrl | lit | endDecode => cases hops
  | brefShort | brefLong =>
    cases hops
    exact ⟨_, copyResult_of_backReference_next hdense h ht⟩

/-! ### The two special cases of the closed form (R173) -/

theorem read_copy_of_distance_zero {used k : Nat} (h : CopyResult 0#12 len used s t) (hk : k < copyCount len s) :
    Memory.read t.out (s.outLen.toNat + k) = Memory.read s.out (s.outLen.toNat - 1) := by
  have hoffset : backwardOffset 0#12 = 1 := rfl
  rw [h.copied k hk, hoffset, Nat.mod_one, Nat.add_zero]

theorem read_copy_of_no_overlap {used k : Nat} (h : CopyResult d len used s t) (hlen : len ≤ backwardOffset d)
    (hk : k < copyCount len s) :
    Memory.read t.out (s.outLen.toNat + k) = Memory.read s.out (s.outLen.toNat - backwardOffset d + k) := by
  have hlt : k < backwardOffset d := (hk.trans_le (copyCount_le len s)).trans_le hlen
  rw [h.copied k hk, Nat.mod_eq_of_lt hlt]

end Paths

/-- Settles O14: the distance is the same field in both forms; the rest by the test of `b0[7:4]` that both functions make. -/
theorem unpackAgreesWithDecoder : Obligations.UnpackAgreesWithDecoder := by
  unfold Obligations.UnpackAgreesWithDecoder
  intro b0 b1 b2 more
  rw [unpack_distance, Ne, shiftRight_eq_zero_iff, shiftRight_eq_highNibble]
  refine ⟨distanceField_toNat b0 b1, fun hshort => ?_, fun hlong => ?_, ?_⟩
  · rw [unpack_short hshort]
    rfl
  · rw [unpack_long hlong]
    rfl
  · by_cases hnibble : highNibble b0 = 0#4
    · rw [unpack_long hnibble]
      exact ⟨_, decode_backRef_long hnibble more, rfl, rfl⟩
    · rw [unpack_short hnibble]
      exact ⟨_, decode_backRef_short hnibble (b2 :: more), rfl, rfl⟩

/-- Settles O16: the width lemmas above, one per clause. -/
theorem operandWidths : Obligations.OperandWidths := by
  unfold Obligations.OperandWidths
  refine ⟨backwardOffset_bounds, ?_, ?_, fun d s => sourceStart_eq_none_iff, fun s n hfits =>
    ⟨outLen_add_copyCount_le n hfits, copyCount_le n s⟩⟩
  · intro i d n hops
    have := copyOperands_length_le hops
    omega
  · intro d s a hstart
    have hsum := sourceStart_add_backwardOffset hstart
    obtain ⟨hoffset, -⟩ := backwardOffset_bounds d
    have houtLen : s.outLen.toNat < 2 ^ 32 := s.outLen.isLt
    exact ⟨hsum, by omega⟩

/-- Settles O27: the shared paths with no length byte after the descriptor. -/
theorem brefShortCopies : Obligations.BrefShortCopies := by
  unfold Obligations.BrefShortCopies
  intro n d s hpos
  refine ⟨fun havail => ?_, fun havail hd => ?_, fun havail hd hdense hbits => ?_⟩
  · exact congrArg Res.outcome (backReference_of_short_descriptor hpos havail)
  · exact congrArg Res.outcome (backReference_of_bad_distance hpos havail hd)
  · obtain ⟨t, hrun, hresult⟩ := backReference_completes (x := 0) hpos havail hd hdense hbits
    exact ⟨t, congrArg Res.outcome hrun, hresult⟩

/-- Settles O28: the shared paths with one length byte after the descriptor; the range check does not depend on it. -/
theorem brefLongCopies : Obligations.BrefLongCopies := by
  unfold Obligations.BrefLongCopies
  intro d e s hpos
  refine ⟨fun havail => ?_, fun havail hd => ?_, fun havail hd => ?_, fun havail hd hdense hbits => ?_⟩
  · exact congrArg Res.outcome (backReference_of_short_descriptor hpos havail)
  · exact congrArg Res.outcome (backReference_of_bad_distance hpos havail hd)
  · exact congrArg Res.outcome (backReference_of_length_missing hpos havail.ge (by omega) hd)
  · obtain ⟨t, hrun, hresult⟩ := backReference_completes (x := 1) hpos havail hd hdense hbits
    exact ⟨t, congrArg Res.outcome hrun, hresult⟩

/-- Settles O31: the closed form of the copy, its index `k mod p` being 0 for `p = 1` and `k` for a copy within `p`. -/
theorem distanceZeroIsRunLength : Obligations.DistanceZeroIsRunLength := by
  unfold Obligations.DistanceZeroIsRunLength
  intro i d len s t _ hops hdense hexec ht
  obtain ⟨used, hresult⟩ := copyResult_of_exec_next hops hdense hexec ht
  constructor
  · rintro rfl k hk
    exact read_copy_of_distance_zero hresult hk
  · intro hlen k hk
    exact read_copy_of_no_overlap hresult hlen hk

end Sys2Proof.Proofs
end

section
/-! PROOF. The history window (43_back_reference.md R171): a payload operation as a simulation between two states that
differ in OUT alone, and there only below an address `lo` that no copy reaches. -/

namespace Sys2Proof.Proofs

open Sys2Proof Sys2Proof.Machine Sys2Proof.Safety Sys2Proof.Laws

/-- The states agree but for the bytes of OUT below `lo`, and `lo` is below the last 4096 bytes. An append keeps this
with the same `lo`: the output only grows. -/
structure AgreeFrom (lo : Nat) (s s2 : State) : Prop where
  regs : s2 = { s with out := s2.out }
  lo_le : lo ≤ s.outLen.toNat - 4096
  reads : ∀ a, lo ≤ a → Memory.read s2.out a = Memory.read s.out a

/-- Results that end the same way, in states that agree; nothing is asked where the first has no meaning. -/
inductive ResAgree (lo : Nat) : Res → Res → Prop where
  | ok {s s2 : State} (h : AgreeFrom lo s s2) : ResAgree lo (.ok s) (.ok s2)
  | raised (k : ErrorKind) {s s2 : State} (h : AgreeFrom lo s s2) : ResAgree lo (.raised k s) (.raised k s2)
  | fault (e : Fault) (r : Res) : ResAgree lo (.fault e) r
  | refused (e : Refusal) (r : Res) : ResAgree lo (.refused e) r

section Window

variable {lo : Nat} {s s2 : State}

/-! ### Sequencing -/

theorem ResAgree.andThen {r r2 : Res} {f : State → Res} (h : ResAgree lo r r2)
    (hf : ∀ {s s2 : State}, AgreeFrom lo s s2 → ResAgree lo (f s) (f s2)) :
    ResAgree lo (r.andThen f) (r2.andThen f) := by
  cases h with
  | ok h => exact hf h
  | raised k h => exact .raised k h
  | fault e => exact .fault e _
  | refused e => exact .refused e _

/-! ### Register reads and writes -/

section Registers

variable (h : AgreeFrom lo s s2)

include h

theorem AgreeFrom.outLen_eq : s2.outLen = s.outLen := by rw [h.regs]

theorem AgreeFrom.declaredSize_eq : s2.declaredSize = s.declaredSize := by rw [h.regs]

theorem AgreeFrom.inPos_eq : s2.inPos = s.inPos := by rw [h.regs]

theorem AgreeFrom.inp_eq : s2.inp = s.inp := by rw [h.regs]

theorem AgreeFrom.bitsRemaining_eq : s2.bitsRemaining = s.bitsRemaining := by rw [h.regs]

theorem AgreeFrom.setInPos (p : BitVec 64) : AgreeFrom lo (s.setInPos p) (s2.setInPos p) :=
  ⟨congrArg (State.setInPos · p) h.regs, h.lo_le, h.reads⟩

theorem AgreeFrom.setBits (n : BitVec 4) : AgreeFrom lo (s.setBits n) (s2.setBits n) :=
  ⟨congrArg (State.setBits · n) h.regs, h.lo_le, h.reads⟩

theorem AgreeFrom.errorEntry (k : ErrorKind) : AgreeFrom lo (s.errorEntry k) (s2.errorEntry k) :=
  ⟨congrArg (State.errorEntry · k) h.regs, h.lo_le, h.reads⟩

theorem AgreeFrom.append (v : Byte) (hroom : s.outLen.toNat < s.declaredSize.toNat) :
    AgreeFrom lo (s.append v) (s2.append v) where
  regs := by rw [h.regs]; rfl
  lo_le := by
    rw [append_outLen_toNat hroom]
    exact h.lo_le.trans (Nat.sub_le_sub_right (Nat.le_succ _) 4096)
  reads a ha := by
    rw [append_out, append_out, h.outLen_eq]
    rcases eq_or_ne a s.outLen.toNat with rfl | hne
    · rw [read_write_same, read_write_same]
    · rw [read_write_other _ _ _ _ hne, read_write_other _ _ _ _ hne, h.reads a ha]

/-! ### The shared operations -/

theorem takeByte_agree : ResAgree lo (takeByte s) (takeByte s2) := by
  unfold takeByte
  rw [h.inPos_eq, h.inp_eq]
  split
  · exact .ok (h.setInPos _)
  · exact .raised _ (h.setInPos _)

theorem outAppend_agree (v : Byte) : ResAgree lo (outAppend v s) (outAppend v s2) := by
  unfold outAppend
  rw [h.outLen_eq, h.declaredSize_eq]
  split
  · exact .ok (h.append v ‹_›)
  · exact .fault _ _

theorem completeOp_agree : ResAgree lo (completeOp s) (completeOp s2) := by
  rw [completeOp_eq, completeOp_eq, h.bitsRemaining_eq]
  split
  · exact .fault _ _
  · exact .ok (h.setBits _)

theorem outRead_agree {a : Nat} (ha : lo ≤ a) : outRead a s2 = outRead a s := by
  unfold outRead
  rw [h.outLen_eq, h.reads a ha]

theorem sourceStart_agree (d : BitVec 12) : sourceStart d s2 = sourceStart d s := by
  unfold sourceStart
  rw [h.outLen_eq]

theorem copyCount_agree (len : Nat) : copyCount len s2 = copyCount len s := by
  unfold copyCount
  rw [h.outLen_eq, h.declaredSize_eq]

end Registers

theorem takeBytes_agree (n : Nat) (h : AgreeFrom lo s s2) : ResAgree lo (takeBytes n s) (takeBytes n s2) := by
  induction n generalizing s s2 with
  | zero => exact .ok h
  | succ n ih => exact (takeByte_agree h).andThen ih

theorem copyBytes_agree {n a : Nat} (ha : lo ≤ a) (h : AgreeFrom lo s s2) :
    ResAgree lo (copyBytes n a s) (copyBytes n a s2) := by
  induction n generalizing a s s2 with
  | zero => exact .ok h
  | succ n ih =>
    unfold copyBytes
    rw [outRead_agree h ha]
    split
    · exact .fault _ _
    · exact (outAppend_agree h _).andThen (ih (by omega))

/-! ### The payload operations -/

/-- The copy starts at or above `lo`, because `lo` is more than 4096 bytes back or 0. -/
theorem AgreeFrom.lo_le_sourceStart {d : BitVec 12} {a : Nat} (h : AgreeFrom lo s s2) (ha : sourceStart d s = some a) :
    lo ≤ a := by
  have := outLen_le_sourceStart_add ha
  have := h.lo_le
  omega

theorem backReference_agree (d : BitVec 12) (x len : Nat) (h : AgreeFrom lo s s2) :
    ResAgree lo (backReference d x len s) (backReference d x len s2) := by
  unfold backReference
  refine (takeBytes_agree 2 h).andThen fun {s1 s3} h1 => ?_
  simp only [sourceStart_agree h1 d]
  cases hstart : sourceStart d s1 with
  | none => exact .raised _ h1
  | some a =>
    refine (takeBytes_agree x h1).andThen fun {u u2} hu => ?_
    rw [copyCount_agree hu]
    exact (copyBytes_agree (h1.lo_le_sourceStart hstart) hu).andThen completeOp_agree

theorem execLit_agree (v : Byte) (h : AgreeFrom lo s s2) :
    ResAgree lo ((takeByte s).andThen fun s1 => (outAppend v s1).andThen completeOp)
      ((takeByte s2).andThen fun s1 => (outAppend v s1).andThen completeOp) :=
  (takeByte_agree h).andThen fun h1 => (outAppend_agree h1 v).andThen completeOp_agree

/-- A next state of the first is matched by one of the second, error entry included (R215). -/
theorem ResAgree.outcome_next {r r2 : Res} {t : State} (h : ResAgree lo r r2) (hr : r.outcome = .next t) :
    ∃ t2, r2.outcome = .next t2 ∧ AgreeFrom lo t t2 := by
  cases h with
  | ok h =>
    cases hr
    exact ⟨_, rfl, h⟩
  | raised k h =>
    cases hr
    exact ⟨_, rfl, h.errorEntry k⟩
  | fault | refused => cases hr

theorem payloadOp_agree {i : Instr} {t : State} (hop : isPayloadOp i = true) (h : AgreeFrom lo s s2)
    (hexec : exec i s = .next t) : ∃ t2, exec i s2 = .next t2 ∧ AgreeFrom lo t t2 := by
  cases i with
  | hdr | ctrl | endDecode => cases hop
  | lit v => exact (execLit_agree v h).outcome_next hexec
  | brefShort n d => exact (backReference_agree d 0 (shortCopyLength n) h).outcome_next hexec
  | brefLong d e => exact (backReference_agree d 1 (longCopyLength e) h).outcome_next hexec

end Window

/-- Settles O32: the bound on each read makes the agreement from `out_len - 4096` on a simulation. -/
theorem historyWindowSuffices : Obligations.HistoryWindowSuffices := by
  unfold Obligations.HistoryWindowSuffices
  constructor
  · intro d s a i hstart
    have := outLen_le_sourceStart_add hstart
    omega
  · intro i s t out2 hop _ _ hreads hexec
    have hagree : AgreeFrom (s.outLen.toNat - 4096) s { s with out := out2 } :=
      ⟨rfl, Nat.le_refl _, fun a ha => hreads a (by omega)⟩
    obtain ⟨t2, hexec2, hagree2⟩ := payloadOp_agree hop hagree hexec
    refine ⟨t2, hexec2, hagree2.regs, fun a ha => hagree2.reads a ?_⟩
    have := hagree2.lo_le
    omega

end Sys2Proof.Proofs
end

section
/-! PROOF. The header (40_header.md R110 to R117) read from any container: what each one begins with, and what the reference
decode (44_reference_decoder.md R200) and the step in HEADER make of it. -/

namespace Sys2Proof.Proofs

open Sys2Proof Sys2Proof.Machine Sys2Proof.Safety Sys2Proof.Laws

/-! ### What a container begins with -/

section Container

variable {inp tl payload : List Byte} {m : Tag} {n : BitVec 32} {r : BitVec 64} {tags : List Tag} {maxOut : Nat}

theorem exists_tag_of_length (h : 4 ≤ inp.length) :
    ∃ (m : Tag) (tl : List Byte), inp = m.c0 :: m.c1 :: m.c2 :: m.c3 :: tl := by
  match inp, h with
  | m0 :: m1 :: m2 :: m3 :: tl, _ => exact ⟨⟨m0, m1, m2, m3⟩, tl, rfl⟩

theorem encode_hdr_append (m : Tag) (n : BitVec 32) (r : BitVec 64) (payload : List Byte) :
    encode (.hdr m n r) ++ payload = m.c0 :: m.c1 :: m.c2 :: m.c3 :: (bytes32 n ++ bytes64 r ++ payload) := by
  simp [encode]

theorem encode_hdr_length (m : Tag) (n : BitVec 32) (r : BitVec 64) : (encode (.hdr m n r)).length = 16 :=
  (EncodeLength.hdr m n r).1

theorem le_length_hdr_append (m : Tag) (n : BitVec 32) (r : BitVec 64) (payload : List Byte) :
    16 ≤ (encode (.hdr m n r) ++ payload).length := by
  rw [List.length_append, encode_hdr_length]
  exact Nat.le_add_right 16 _

theorem exists_hdr_of_tag (m : Tag) (h : 12 ≤ tl.length) :
    ∃ (n : BitVec 32) (r : BitVec 64) (payload : List Byte),
      m.c0 :: m.c1 :: m.c2 :: m.c3 :: tl = encode (.hdr m n r) ++ payload := by
  match tl, h with
  | s0 :: s1 :: s2 :: s3 :: r0 :: r1 :: r2 :: r3 :: r4 :: r5 :: r6 :: r7 :: payload, _ =>
    refine ⟨be32 s0 s1 s2 s3, be64 r0 r1 r2 r3 r4 r5 r6 r7, payload, ?_⟩
    simp [encode_hdr_append, bytes32_be32, bytes64_be64]

/-- R110 to R112: a container has no whole tag, a tag that is not accepted, an accepted tag and no whole header, or an
accepted header. -/
theorem container_cases (tags : List Tag) (inp : List Byte) :
    inp.length < 4 ∨
    (∃ (m : Tag) (tl : List Byte), inp = m.c0 :: m.c1 :: m.c2 :: m.c3 :: tl ∧ m ∉ tags) ∨
    (∃ (m : Tag) (tl : List Byte), inp = m.c0 :: m.c1 :: m.c2 :: m.c3 :: tl ∧ m ∈ tags ∧ tl.length < 12) ∨
    ∃ (m : Tag) (n : BitVec 32) (r : BitVec 64) (payload : List Byte),
      inp = encode (.hdr m n r) ++ payload ∧ m ∈ tags := by
  rcases Nat.lt_or_ge inp.length 4 with hshort | hlong
  · exact .inl hshort
  · obtain ⟨m, tl, rfl⟩ := exists_tag_of_length hlong
    by_cases hm : m ∈ tags
    · rcases Nat.lt_or_ge tl.length 12 with hshort | hlong
      · exact .inr (.inr (.inl ⟨m, tl, rfl, hm, hshort⟩))
      · obtain ⟨n, r, payload, hinp⟩ := exists_hdr_of_tag m hlong
        exact .inr (.inr (.inr ⟨m, n, r, payload, hinp, hm⟩))
    · exact .inr (.inl ⟨m, tl, rfl, hm⟩)

/-! ### The reference decode of each -/

theorem refDecode_without_tag (h : inp.length < 4) : refDecode tags maxOut inp = .err .truncatedInput inp.length := by
  unfold refDecode
  split
  · simp only [List.length_cons] at h
    omega
  · rfl

theorem refDecode_foreign_tag (hm : m ∉ tags) :
    refDecode tags maxOut (m.c0 :: m.c1 :: m.c2 :: m.c3 :: tl) = .err .formatMismatch 4 :=
  if_neg hm

theorem refDecode_cut_header (hm : m ∈ tags) (h : tl.length < 12) :
    refDecode tags maxOut (m.c0 :: m.c1 :: m.c2 :: m.c3 :: tl) = .err .truncatedInput (tl.length + 4) := by
  unfold refDecode
  simp only []
  rw [if_pos hm]
  split
  · simp only [List.length_cons] at h
    omega
  · rfl

theorem refDecode_too_large (hm : m ∈ tags) (hn : maxOut < n.toNat) :
    refDecode tags maxOut (encode (.hdr m n r) ++ payload) = .refused := by
  have hsize := be32_toNat (n.extractLsb' 24 8) (n.extractLsb' 16 8) (n.extractLsb' 8 8) (n.extractLsb' 0 8)
  rw [be32_bytes32] at hsize
  simp only [encode, bytes64, bytes32, List.cons_append, List.nil_append, refDecode]
  rw [if_pos hm, ← hsize, if_pos hn]

end Container

/-! ### The step in HEADER on each -/

section Step

variable {s : State} {m : Tag} {n : BitVec 32} {r : BitVec 64} {tl payload : List Byte}
  (hphase : s.phase = .header) (hoverlap : s.cfg.inOutOverlap = false) (hpos : s.inPos = 0#64)

include hphase hoverlap hpos

theorem step_without_tag (h : s.inp.length < 4) : step s = .next ((atEnd s).errorEntry .truncatedInput) := by
  have havail : s.avail < 4 := by rwa [avail_of_inPos_eq_zero hpos]
  rw [step_in_header hphase hoverlap]
  obtain ⟨i, hcontext, -, hfetch⟩ := execFetched_exec .header s
  rw [hfetch]
  cases i with
  | hdr m n r =>
    change execHdr m n r s = _
    rw [execHdr_eq m n r s (by simp [hpos]), if_pos havail]
  | ctrl | lit | brefLong | brefShort | endDecode => cases hcontext

theorem step_with_tag (hinp : s.inp = m.c0 :: m.c1 :: m.c2 :: m.c3 :: tl) :
    ∃ (n : BitVec 32) (r : BitVec 64), step s = execHdr m n r s := by
  have hrest : rest s = m.c0 :: m.c1 :: m.c2 :: m.c3 :: tl := by rw [rest_of_inPos_eq_zero hpos, hinp]
  obtain ⟨n, r, hfetch, -⟩ := execFetched_header hrest
  exact ⟨n, r, by rw [step_in_header hphase hoverlap, hfetch]⟩

theorem step_foreign_tag (hinp : s.inp = m.c0 :: m.c1 :: m.c2 :: m.c3 :: tl) (hm : m ∉ s.cfg.magicSet) :
    step s = .next ((advance 4 s).errorEntry .formatMismatch) := by
  have havail : ¬ s.avail < 4 := by simp [avail_of_inPos_eq_zero hpos, hinp]
  obtain ⟨n, r, hstep⟩ := step_with_tag hphase hoverlap hpos hinp
  rw [hstep, execHdr_eq m n r s (by simp [hpos]), if_neg havail, if_pos hm]

/-- Whether the size was read before the container ended or not, the error is the same. -/
theorem step_cut_header (hinp : s.inp = m.c0 :: m.c1 :: m.c2 :: m.c3 :: tl) (hm : m ∈ s.cfg.magicSet)
    (htl : tl.length < 12) :
    ∃ size, step s = .next (((atEnd s).setDeclaredSize size).errorEntry .truncatedInput) := by
  have hlength : s.avail = tl.length + 4 := by simp [avail_of_inPos_eq_zero hpos, hinp]
  obtain ⟨n, r, hstep⟩ := step_with_tag hphase hoverlap hpos hinp
  rw [hstep, execHdr_eq m n r s (by simp [hpos]), if_neg (by omega), if_neg (not_not_intro hm)]
  by_cases hsize : s.avail < 8
  · exact ⟨s.declaredSize, by rw [if_pos hsize]; rfl⟩
  · exact ⟨n, by rw [if_neg hsize, if_pos (by omega)]⟩

theorem step_too_large (hinp : s.inp = encode (.hdr m n r) ++ payload) (hm : m ∈ s.cfg.magicSet)
    (hn : s.cfg.maxOut < n) : step s = .refused .outputTooLarge := by
  have havail : 16 ≤ s.avail := by
    rw [avail_of_inPos_eq_zero hpos, hinp]
    exact le_length_hdr_append m n r payload
  rw [step_header_encode hphase hoverlap hpos hinp, execHdr_eq m n r s (by simp [hpos]), if_neg (by omega),
    if_neg (not_not_intro hm), if_neg (by omega), if_neg (by omega), if_pos hn]

end Step

end Sys2Proof.Proofs
end

section
/-! PROOF. The step machine simulates the reference decode (44_reference_decoder.md R203). In RUN the reference loop's
arguments are the machine's own registers, and one step is one iteration. -/

namespace Sys2Proof.Proofs

open Sys2Proof Sys2Proof.Machine Sys2Proof.Safety Sys2Proof.Laws

/-! ### The invariant along a decode -/

section Invariant

variable {s u t : State}

theorem inv_start (hcfg : s.cfg.wf) : Inv s.start where
  outDense := rfl
  outLenLe := Nat.le_refl _
  errIff := by simp
  atStart _ := ⟨rfl, rfl, rfl, rfl, rfl, rfl⟩
  bitsLe := by simp
  bitsLt := by simp
  pastHeader := by simp
  inPosLe := by simp
  consumed := by simp
  inPosBound := by simp
  fits := by simp
  full := by simp
  cfgWf := hcfg

theorem inv_afterHeader {n : BitVec 32} (hinv : Inv s) (hphase : s.phase = .header) (hlen : 16 ≤ s.inp.length)
    (hn : n ≤ s.cfg.maxOut) : Inv (afterHeader n s) := by
  obtain ⟨-, hout, hlen0, hpos, -, hbits⟩ := hinv.atStart (.inr hphase)
  have herr : s.err.isSome = false := by
    simpa [hphase] using hinv.errIff
  have hcursor : (afterHeader n s).inPos.toNat = 16 := by simp [afterHeader, advance, hpos]
  have houtLen : (afterHeader n s).outLen.toNat = 0 := by simp [afterHeader, advance, hlen0]
  have hbits0 : (afterHeader n s).bitsRemaining.toNat = 0 := by simp [afterHeader, advance, hbits]
  exact {
    outDense := by simp [OutDense, afterHeader, advance, hout, hlen0]
    outLenLe := by omega
    errIff := by simp [afterHeader, advance, herr]
    atStart := by simp [afterHeader]
    bitsLe := by omega
    bitsLt := by omega
    pastHeader := by omega
    inPosLe := fun _ => by rw [hcursor]; exact hlen
    consumed := by omega
    inPosBound := by omega
    fits := fun _ => BitVec.le_def.mp hn
    full := by simp [afterHeader]
    cfgWf := hinv.cfgWf }

/-- The state `u` in which an iteration from `s` runs its operation: the flag bits fetched as the reference decode fetches
them, and nothing else changed. -/
structure Fetched (s u : State) : Prop where
  regs : u = { s with inPos := u.inPos, controlByte := u.controlByte, bitsRemaining := u.bitsRemaining }
  ready : OpReady u
  flags : fetchFlags s.inp s.inPos.toNat s.controlByte s.bitsRemaining.toNat =
    some (u.inPos.toNat, u.controlByte, u.bitsRemaining.toNat)
  pos_ge : s.inPos.toNat ≤ u.inPos.toNat
  consumed : 8 * u.inPos.toNat ≤ 128 + 25 * u.outLen.toNat + u.bitsRemaining.toNat

theorem bitsRemaining_toNat_ne_zero (h : s.bitsRemaining ≠ 0#4) : s.bitsRemaining.toNat ≠ 0 :=
  fun hzero => h (BitVec.eq_of_toNat_eq hzero)

theorem fetched_self (hinv : Inv s) (hready : OpReady s) (hbits : s.bitsRemaining ≠ 0#4) : Fetched s s where
  regs := rfl
  ready := hready
  flags := by rw [fetchFlags, if_neg (bitsRemaining_toNat_ne_zero hbits)]
  pos_ge := Nat.le_refl _
  consumed := hinv.consumed hready.run

theorem fetched_afterControl {c : Byte} (hinv : Inv s) (hphase : s.phase = .run) (hbits : s.bitsRemaining = 0#4)
    (hc : s.inp[s.inPos.toNat]? = some c) (hready : OpReady (afterControl c s)) : Fetched s (afterControl c s) := by
  have hbound := hinv.inPosBound
  have hpos : (afterControl c s).inPos.toNat = s.inPos.toNat + 1 := advance_toNat (by omega)
  have hflags : s.bitsRemaining.toNat = 0 := by rw [hbits]; rfl
  have hconsumed := hinv.consumed hphase
  refine ⟨rfl, hready, ?_, by omega, ?_⟩
  · rw [hpos, hflags, fetchFlags, if_pos rfl, hc]
    rfl
  · change 8 * (afterControl c s).inPos.toNat ≤ 128 + 25 * s.outLen.toNat + 8
    omega

theorem bitsRemaining_of_opDone {pos : Nat} {out : List Byte} (hready : OpReady u) (hdone : OpDone u t pos out) :
    t.bitsRemaining.toNat = u.bitsRemaining.toNat - 1 := by
  rw [hdone.regs]
  exact BitVec.toNat_sub_of_le (BitVec.le_def.mpr hready.bits1)

/-- What an iteration that completes keeps of the state it began in; the output grows. -/
theorem Fetched.kept_done {pos : Nat} {out : List Byte} (h : Fetched s u) (hdone : OpDone u t pos out) :
    t.phase = s.phase ∧ t.err = s.err ∧ t.declaredSize = s.declaredSize ∧ t.inp = s.inp ∧ t.cfg = s.cfg ∧
      s.outLen.toNat < t.outLen.toNat := by
  have hlen : u.outLen = s.outLen := by rw [h.regs]
  have hgrows := hdone.grows
  rw [hlen] at hgrows
  refine ⟨?_, ?_, ?_, ?_, ?_, hgrows⟩ <;>
  · rw [hdone.regs, h.regs]

/-- R25, R34: an operation that completes keeps the invariant; three bytes and a flag bit are paid for by the byte it
appends. -/
theorem Fetched.inv_done {pos : Nat} {out : List Byte} (hinv : Inv s) (hrun : s.phase = .run) (h : Fetched s u)
    (hdone : OpDone u t pos out) : Inv t := by
  obtain ⟨hphase, herr, hsize, hinp, hcfg, -⟩ := h.kept_done hdone
  have hbits := bitsRemaining_of_opDone h.ready hdone
  have hbits1 := h.ready.bits1
  have hbits8 := h.ready.bits8
  have husize : u.declaredSize = s.declaredSize := by rw [h.regs]
  have huinp : u.inp = s.inp := by rw [h.regs]
  have hpos := hdone.pos_eq
  have hposle := hdone.pos_le
  have hposgt := hdone.pos_gt
  have hgrows := hdone.grows
  have hge := h.pos_ge
  have hconsumed := h.consumed
  have hpast := hinv.pastHeader hrun
  have hlt := t.outLen.isLt
  exact {
    outDense := hdone.dense
    outLenLe := by rw [hsize, ← husize]; exact hdone.fits
    errIff := by rw [herr, hphase]; exact hinv.errIff
    atStart := by simp [hphase, hrun]
    bitsLe := by omega
    bitsLt := by omega
    pastHeader := by omega
    inPosLe := fun _ => by rw [hpos, hinp, ← huinp]; exact hdone.pos_in
    consumed := by omega
    inPosBound := by omega
    fits := fun _ => by rw [hsize, hcfg]; exact hinv.fits hrun
    full := by simp [hphase, hrun]
    cfgWf := by rw [hcfg]; exact hinv.cfgWf }

end Invariant

/-! ### Ending as the reference decode says -/

/-- The run from `s` ends as `r` says; with `spent` steps before it, it takes at most `declared_size + 2` (R138). -/
def EndsAs (spent : Nat) (s : State) : DecodeResult → Prop
  | .ok out p => ∃ (n : Nat) (t : State), Sys2Proof.core.run n s = .next t ∧ t.phase = .done ∧
      n + spent ≤ t.declaredSize.toNat + 2 ∧ OutDense t ∧ t.outBytes = out ∧ out.length = t.declaredSize.toNat ∧
      t.inPos.toNat = p
  | .err k p => ∃ (n : Nat) (t : State), Sys2Proof.core.run n s = .next t ∧ t.phase = .error ∧
      n + spent ≤ t.declaredSize.toNat + 2 ∧ t.err = some k ∧ t.inPos.toNat = p
  | .refused => ∃ n : Nat, Sys2Proof.core.run n s = .refused .outputTooLarge

section EndsAs

variable {spent spent' : Nat} {s t : State} {r : DecodeResult}

theorem EndsAs.mono (h : EndsAs spent' s r) (hle : spent ≤ spent') : EndsAs spent s r := by
  cases r with
  | ok out p =>
    obtain ⟨n, t, hrun, hphase, hn, hrest⟩ := h
    exact ⟨n, t, hrun, hphase, by omega, hrest⟩
  | err k p =>
    obtain ⟨n, t, hrun, hphase, hn, hrest⟩ := h
    exact ⟨n, t, hrun, hphase, by omega, hrest⟩
  | refused => exact h

theorem EndsAs.of_step (h : EndsAs (spent + 1) t r) (hstep : step s = .next t) : EndsAs spent s r := by
  cases r with
  | ok out p =>
    obtain ⟨n, u, hrun, hphase, hn, hrest⟩ := h
    exact ⟨n + 1, u, (core_run_next hstep).trans hrun, hphase, by omega, hrest⟩
  | err k p =>
    obtain ⟨n, u, hrun, hphase, hn, hrest⟩ := h
    exact ⟨n + 1, u, (core_run_next hstep).trans hrun, hphase, by omega, hrest⟩
  | refused =>
    obtain ⟨n, hrun⟩ := h
    exact ⟨n + 1, (core_run_next hstep).trans hrun⟩

theorem endsAs_done (hphase : t.phase = .done) (hspent : spent ≤ t.declaredSize.toNat + 2) (hdense : OutDense t)
    (hfull : t.outLen = t.declaredSize) : EndsAs spent t (.ok t.outBytes t.inPos.toNat) :=
  ⟨0, t, rfl, hphase, by omega, hdense, rfl, by rw [outBytes_length hdense, hfull], rfl⟩

theorem endsAs_errorEntry (k : ErrorKind) (hspent : spent ≤ s.declaredSize.toNat + 2) :
    EndsAs spent (s.errorEntry k) (.err k s.inPos.toNat) :=
  ⟨0, s.errorEntry k, rfl, rfl, by rw [errorEntry_declaredSize]; omega, rfl, rfl⟩

theorem endsAs_refused (hstep : step s = .refused .outputTooLarge) : EndsAs spent s .refused :=
  ⟨1, core_run_refused hstep⟩

theorem endsAs_atEnd (hspent : spent ≤ s.declaredSize.toNat + 2) (hlen : s.inp.length < 2 ^ 64) :
    EndsAs spent ((atEnd s).errorEntry .truncatedInput) (.err .truncatedInput s.inp.length) := by
  have hcursor : (atEnd s).inPos.toNat = s.inp.length := Nat.mod_eq_of_lt hlen
  rw [← hcursor]
  exact endsAs_errorEntry .truncatedInput hspent

end EndsAs

/-! ### One iteration -/

section Loop

variable {s u t : State} {fuel : Nat}

/-- The reference loop (R200) on the machine's registers. -/
def refFrom (fuel : Nat) (s : State) : DecodeResult :=
  refLoop s.inp s.declaredSize.toNat fuel s.inPos.toNat s.outBytes s.controlByte s.bitsRemaining.toNat

theorem step_fetches (hinv : Inv s) (hphase : s.phase = .run) (hfull : s.outLen ≠ s.declaredSize)
    (hoverlap : s.cfg.inOutOverlap = false) :
    (∃ u, Fetched s u ∧ step s = runOp u) ∨
    (fetchFlags s.inp s.inPos.toNat s.controlByte s.bitsRemaining.toNat = none ∧ s.avail = 0 ∧
      step s = .next ((atEnd s).errorEntry .truncatedInput)) := by
  obtain ⟨hbits, hready, hstep⟩ | ⟨hbits, hnone, havail, hstep⟩ | ⟨c, hbits, hc, hready, hstep⟩ :=
    step_iteration hinv hphase hfull hoverlap
  · exact .inl ⟨s, fetched_self hinv hready hbits, hstep⟩
  · refine .inr ⟨?_, havail, hstep⟩
    simp [fetchFlags, hbits, hnone]
  · exact .inl ⟨_, fetched_afterControl hinv hphase hbits hc hready, hstep⟩

/-- The machine's operation and the reference's, from one fetch: the loop goes on from the state the operation leaves, or
ends with its error. -/
theorem Fetched.refFrom_succ (h : Fetched s u) (hroom : s.outBytes.length ≠ s.declaredSize.toNat) (fuel : Nat) :
    ∃ t, runOp u = .next t ∧
      ((∃ pos out, OpDone u t pos out ∧ refFrom (fuel + 1) s = refFrom fuel t) ∨
        ∃ k p, OpError u t k p ∧ refFrom (fuel + 1) s = .err k p) := by
  have hinp : u.inp = s.inp := by rw [h.regs]
  have hsize : u.declaredSize = s.declaredSize := by rw [h.regs]
  have hout : u.outBytes = s.outBytes := by rw [h.regs]; rfl
  have hop := runOp_refOp h.ready
  rw [hinp, hsize, hout] at hop
  rw [refFrom, refLoop_of_fetch_some hroom h.flags]
  cases hresult : refOp s.inp s.declaredSize.toNat u.inPos.toNat s.outBytes
      (u.controlByte.getLsbD (u.bitsRemaining.toNat - 1)) with
  | ok next =>
    obtain ⟨pos, out⟩ := next
    rw [hresult] at hop
    obtain ⟨t, hrun, hdone⟩ := hop
    refine ⟨t, hrun, .inl ⟨pos, out, hdone, ?_⟩⟩
    obtain ⟨-, -, htsize, htinp, -, -⟩ := h.kept_done hdone
    have htcontrol : t.controlByte = u.controlByte := by rw [hdone.regs]
    rw [afterOp, refFrom, htinp, htsize, htcontrol, hdone.pos_eq, hdone.out_eq, bitsRemaining_of_opDone h.ready hdone]
  | error e =>
    obtain ⟨k, p⟩ := e
    rw [hresult] at hop
    obtain ⟨t, hrun, herror⟩ := hop
    exact ⟨t, hrun, .inr ⟨k, p, herror, rfl⟩⟩

theorem Fetched.endsAs_error {k : ErrorKind} {p spent : Nat} (h : Fetched s u) (herror : OpError u t k p)
    (hspent : spent ≤ s.declaredSize.toNat + 2) : EndsAs spent t (.err k p) := by
  have hsize : u.declaredSize = s.declaredSize := by rw [h.regs]
  have hcursor : (u.setInPos (BitVec.ofNat 64 p)).inPos.toNat = p := by
    have hle := herror.pos_le
    have hwrap := h.ready.noWrap
    exact Nat.mod_eq_of_lt (by omega)
  have hend := endsAs_errorEntry (spent := spent) (s := u.setInPos (BitVec.ofNat 64 p)) k
    (by rw [setInPos_declaredSize, hsize]; exact hspent)
  rwa [hcursor, ← herror.regs] at hend

theorem endsAs_of_full (hinv : Inv s) (hphase : s.phase = .run) (hoverlap : s.cfg.inOutOverlap = false)
    (hfull : s.outLen = s.declaredSize) (fuel : Nat) : EndsAs (s.outLen.toNat + 1) s (refFrom fuel s) := by
  have hdense : OutDense (s.setPhase .done) := hinv.outDense
  have hlength : s.outBytes.length = s.declaredSize.toNat := by rw [outBytes_length hinv.outDense, hfull]
  have hstep : step s = .next (s.setPhase .done) :=
    step_of_select_finish ((select_eq_finish s).mpr ⟨hphase, hfull⟩) hoverlap
  rw [refFrom, refLoop_full hlength, hfull]
  exact (endsAs_done rfl (Nat.le_refl _) hdense hfull).of_step hstep

/-- R203 for one iteration: the block is again in RUN and the reference loop goes on from its registers, or both end with
the same error. -/
theorem step_refFrom (hinv : Inv s) (hphase : s.phase = .run) (hoverlap : s.cfg.inOutOverlap = false)
    (hfull : s.outLen ≠ s.declaredSize) (fuel : Nat) :
    ∃ t, step s = .next t ∧
      ((∃ u pos out, Fetched s u ∧ OpDone u t pos out ∧ refFrom (fuel + 1) s = refFrom fuel t) ∨
        EndsAs (s.outLen.toNat + 2) t (refFrom (fuel + 1) s)) := by
  have hroom : s.outBytes.length ≠ s.declaredSize.toNat := by
    rw [outBytes_length hinv.outDense]
    exact fun h => hfull (BitVec.eq_of_toNat_eq h)
  have hspent : s.outLen.toNat + 2 ≤ s.declaredSize.toNat + 2 := Nat.add_le_add_right hinv.outLenLe 2
  obtain ⟨u, hfetched, hstep⟩ | ⟨hnone, havail, hstep⟩ := step_fetches hinv hphase hfull hoverlap
  · obtain ⟨t, hrun, ⟨pos, out, hdone, hloop⟩ | ⟨k, p, herror, hloop⟩⟩ := hfetched.refFrom_succ hroom fuel
    · exact ⟨t, hstep.trans hrun, .inl ⟨u, pos, out, hfetched, hdone, hloop⟩⟩
    · rw [hloop]
      exact ⟨t, hstep.trans hrun, .inr (hfetched.endsAs_error herror hspent)⟩
  · have hlength : s.inp.length < 2 ^ 64 := by
      have hbound := hinv.inPosBound
      unfold State.avail at havail
      omega
    rw [refFrom, refLoop_of_fetch_none hroom hnone]
    exact ⟨_, hstep, .inr (endsAs_atEnd hspent hlength)⟩

/-- R203 in RUN, by induction on the iterations the reference may still take; each brings fewer missing bytes. -/
theorem run_endsAs_refFrom (hinv : Inv s) (hphase : s.phase = .run) (hoverlap : s.cfg.inOutOverlap = false)
    (hfuel : s.declaredSize.toNat ≤ s.outLen.toNat + fuel) : EndsAs (s.outLen.toNat + 1) s (refFrom fuel s) := by
  induction fuel generalizing s with
  | zero =>
    have hfull : s.outLen = s.declaredSize := BitVec.eq_of_toNat_eq (Nat.le_antisymm hinv.outLenLe hfuel)
    exact endsAs_of_full hinv hphase hoverlap hfull 0
  | succ fuel ih =>
    by_cases hfull : s.outLen = s.declaredSize
    · exact endsAs_of_full hinv hphase hoverlap hfull _
    · obtain ⟨t, hstep, ⟨u, pos, out, hfetched, hdone, hloop⟩ | hend⟩ := step_refFrom hinv hphase hoverlap hfull fuel
      · obtain ⟨htphase, -, htsize, -, htcfg, hgrows⟩ := hfetched.kept_done hdone
        have hend := ih (hfetched.inv_done hinv hphase hdone) (htphase.trans hphase) (by rw [htcfg, hoverlap])
          (by rw [htsize]; omega)
        rw [hloop]
        exact (hend.mono (by omega)).of_step hstep
      · exact hend.of_step hstep

end Loop

/-! ### The decode from START -/

/-- An accepted header that fits leads the machine and the reference decode into the same loop; one too large is refused
by both (R117). -/
theorem endsAs_of_accepted_header {s : State} {m : Tag} {n : BitVec 32} {r : BitVec 64} {payload : List Byte}
    (hinv : Inv s) (hphase : s.phase = .header) (hoverlap : s.cfg.inOutOverlap = false)
    (hinp : s.inp = encode (.hdr m n r) ++ payload) (hm : m ∈ s.cfg.magicSet) :
    EndsAs 0 s (refDecode s.cfg.magicSet s.cfg.maxOut.toNat s.inp) := by
  obtain ⟨-, hout, -, hpos, hcontrol, hbits⟩ := hinv.atStart (.inr hphase)
  by_cases hn : n ≤ s.cfg.maxOut
  · have hlength : 16 ≤ s.inp.length := by
      rw [hinp]
      exact le_length_hdr_append m n r payload
    have hloop : refFrom n.toNat (afterHeader n s) = refDecode s.cfg.magicSet s.cfg.maxOut.toNat s.inp := by
      rw [hinp, refDecode_hdr _ _ m n r payload hm (BitVec.le_def.mp hn), ← hinp]
      simp [refFrom, afterHeader, advance, State.outBytes, hout, hpos, hcontrol, hbits]
    have hend := run_endsAs_refFrom (fuel := n.toNat) (inv_afterHeader hinv hphase hlength hn) rfl hoverlap
      (Nat.le_add_left _ _)
    rw [← hloop]
    exact (hend.mono (by omega)).of_step (step_accepted_header hphase hoverlap hpos hinp hm hn)
  · have hlarge : s.cfg.maxOut < n := BitVec.not_le.mp hn
    rw [hinp, refDecode_too_large hm (BitVec.lt_def.mp hlarge)]
    exact endsAs_refused (step_too_large hphase hoverlap hpos hinp hm hlarge)

/-- R203 in HEADER, by what the container begins with. -/
theorem header_endsAs_refDecode {s : State} (hinv : Inv s) (hphase : s.phase = .header)
    (hoverlap : s.cfg.inOutOverlap = false) :
    EndsAs 0 s (refDecode s.cfg.magicSet s.cfg.maxOut.toNat s.inp) := by
  obtain ⟨-, -, -, hpos, -, -⟩ := hinv.atStart (.inr hphase)
  obtain hshort | ⟨m, tl, hinp, hm⟩ | ⟨m, tl, hinp, hm, htl⟩ | ⟨m, n, r, payload, hinp, hm⟩ :=
    container_cases s.cfg.magicSet s.inp
  · rw [refDecode_without_tag hshort]
    exact (endsAs_atEnd (by omega) (by omega)).of_step (step_without_tag hphase hoverlap hpos hshort)
  · have hcursor : (advance 4 s).inPos.toNat = 4 := by simp [advance, hpos]
    rw [hinp, refDecode_foreign_tag hm, ← hcursor]
    exact (endsAs_errorEntry _ (by omega)).of_step (step_foreign_tag hphase hoverlap hpos hinp hm)
  · obtain ⟨size, hstep⟩ := step_cut_header hphase hoverlap hpos hinp hm htl
    have hlength : s.inp.length = tl.length + 4 := by rw [hinp]; rfl
    rw [hinp, refDecode_cut_header hm htl, ← hlength]
    exact (endsAs_atEnd (s := s.setDeclaredSize size) (by omega) (by rw [setDeclaredSize_inp]; omega)).of_step hstep
  · exact endsAs_of_accepted_header hinv hphase hoverlap hinp hm

/-- Settles O48: START meets the invariant, and from there the machine ends as the reference says. -/
theorem machineAgreesWithReference : Obligations.MachineAgreesWithReference := by
  unfold Obligations.MachineAgreesWithReference
  intro s _ hcfg hoverlap
  have hend : EndsAs 0 s.start (refDecode s.cfg.magicSet s.cfg.maxOut.toNat s.inp) :=
    header_endsAs_refDecode (inv_start hcfg) rfl hoverlap
  cases hresult : refDecode s.cfg.magicSet s.cfg.maxOut.toNat s.inp with
  | ok out p =>
    rw [hresult] at hend
    exact hend
  | err k p =>
    rw [hresult] at hend
    exact hend
  | refused =>
    rw [hresult] at hend
    exact hend

end Sys2Proof.Proofs
end

section
/-! PROOF. Trailing and missing bytes (44_reference_decoder.md R204): a decode that ends well reads its bytes in order and
none past its last cursor, so it does not see a change after it, and a cut before it is the first missing byte. -/

namespace Sys2Proof.Proofs

open Sys2Proof Sys2Proof.Machine Sys2Proof.Laws

/-! ### Containers that agree -/

section Agree

variable {inp inp' : List Byte} {lo hi : Nat}

/-- The containers have the same bytes, or none, at the positions from `lo` up to `hi`. -/
def AgreeOn (lo hi : Nat) (inp inp' : List Byte) : Prop := ∀ i, lo ≤ i → i < hi → inp'[i]? = inp[i]?

theorem AgreeOn.mono {lo' hi' : Nat} (h : AgreeOn lo hi inp inp') (hlo : lo ≤ lo') (hhi : hi' ≤ hi) :
    AgreeOn lo' hi' inp inp' :=
  fun i hlow hhigh => h i (hlo.trans hlow) (hhigh.trans_le hhi)

theorem agreeOn_of_take_eq {k : Nat} (h : inp'.take k = inp.take k) : AgreeOn 0 k inp inp' := by
  intro i _ hi
  rw [← List.getElem?_take_of_lt hi, h, List.getElem?_take_of_lt hi]

theorem agreeOn_take (inp : List Byte) (j : Nat) : AgreeOn 0 j inp (inp.take j) :=
  fun _ _ hi => List.getElem?_take_of_lt hi

end Agree

/-! ### The loop -/

section Loop

variable {inp inp' out o : List Byte} {size fuel pos p k br b : Nat} {cb c : Byte}

/-- A fetch of flag bits that finds them reads from `pos` up to `p` alone; cut short there it finds none. -/
theorem fetchFlags_some_facts (h : fetchFlags inp pos cb br = some (p, c, b)) :
    pos ≤ p ∧
    (∀ inp', AgreeOn pos p inp inp' → fetchFlags inp' pos cb br = some (p, c, b)) ∧
    (∀ inp' : List Byte, inp'.length < p → pos ≤ inp'.length → fetchFlags inp' pos cb br = none) := by
  by_cases hbr : br = 0
  · obtain ⟨d, hd, hnext⟩ : ∃ d, inp[pos]? = some d ∧ (pos + 1, d, 8) = (p, c, b) := by
      simpa [fetchFlags, hbr] using h
    cases hnext
    refine ⟨Nat.le_succ pos, fun inp' hagree => ?_, fun inp' hcut _ => ?_⟩
    · rw [fetchFlags, if_pos hbr, hagree pos (Nat.le_refl _) (Nat.lt_succ_self _), hd]
      rfl
    · rw [fetchFlags, if_pos hbr, List.getElem?_eq_none (Nat.le_of_lt_succ hcut)]
      rfl
  · have hnext : (pos, cb, br) = (p, c, b) := by simpa [fetchFlags, hbr] using h
    cases hnext
    refine ⟨Nat.le_refl _, fun inp' _ => ?_, fun inp' hcut hpos => absurd hcut hpos.not_gt⟩
    rw [fetchFlags, if_neg hbr]

/-- A loop that ends well was at its end, or went through one iteration that completed. -/
theorem refLoop_ok_cases (h : refLoop inp size (fuel + 1) pos out cb br = .ok o k) :
    (out.length = size ∧ o = out ∧ k = pos) ∨
    ∃ p c b p' out', out.length ≠ size ∧ fetchFlags inp pos cb br = some (p, c, b) ∧
      refOp inp size p out (c.getLsbD (b - 1)) = .ok (p', out') ∧ refLoop inp size fuel p' out' c (b - 1) = .ok o k := by
  by_cases hfull : out.length = size
  · rw [refLoop_full hfull] at h
    cases h
    exact .inl ⟨hfull, rfl, rfl⟩
  · cases hfetch : fetchFlags inp pos cb br with
    | none =>
      rw [refLoop_of_fetch_none hfull hfetch] at h
      cases h
    | some next =>
      obtain ⟨p, c, b⟩ := next
      rw [refLoop_of_fetch_some hfull hfetch] at h
      cases hop : refOp inp size p out (c.getLsbD (b - 1)) with
      | error e =>
        rw [hop] at h
        cases h
      | ok next =>
        obtain ⟨p', out'⟩ := next
        rw [hop] at h
        exact .inr ⟨p, c, b, p', out', hfull, rfl, hop, h⟩

theorem refLoop_pos_le (h : refLoop inp size fuel pos out cb br = .ok o k) :
    pos ≤ k ∧ (pos ≤ inp.length → k ≤ inp.length) := by
  induction fuel generalizing pos out cb br with
  | zero =>
    cases h
    exact ⟨Nat.le_refl _, id⟩
  | succ fuel ih =>
    obtain ⟨-, -, rfl⟩ | ⟨p, c, b, p', out', -, hfetch, hop, hloop⟩ := refLoop_ok_cases h
    · exact ⟨Nat.le_refl _, id⟩
    · obtain ⟨hge, -, -⟩ := fetchFlags_some_facts hfetch
      obtain ⟨hlt, hle, -, -⟩ := refOp_ok_facts hop
      obtain ⟨hge', hle'⟩ := ih hloop
      exact ⟨by omega, fun _ => hle' hle⟩

/-- Bytes past the last one read never matter: each read is of a position below `k`. -/
theorem refLoop_of_agree (h : refLoop inp size fuel pos out cb br = .ok o k) (hagree : AgreeOn pos k inp inp') :
    refLoop inp' size fuel pos out cb br = .ok o k := by
  induction fuel generalizing pos out cb br with
  | zero => exact h
  | succ fuel ih =>
    obtain ⟨hfull, rfl, rfl⟩ | ⟨p, c, b, p', out', hroom, hfetch, hop, hloop⟩ := refLoop_ok_cases h
    · exact refLoop_full hfull
    · obtain ⟨hge, hfetch', -⟩ := fetchFlags_some_facts hfetch
      obtain ⟨hlt, -, hop', -⟩ := refOp_ok_facts hop
      obtain ⟨hge', -⟩ := refLoop_pos_le hloop
      rw [refLoop_of_fetch_some hroom (hfetch' inp' (hagree.mono (Nat.le_refl _) (by omega))),
        hop' inp' (hagree.mono hge hge')]
      exact ih hloop (hagree.mono (by omega) (Nat.le_refl _))

/-- A container that ends before `k`: the iteration in which it ends finds the byte missing, and those before it are
unchanged. -/
theorem refLoop_of_cut (h : refLoop inp size fuel pos out cb br = .ok o k) (hagree : AgreeOn 0 inp'.length inp inp')
    (hpos : pos ≤ inp'.length) (hcut : inp'.length < k) :
    refLoop inp' size fuel pos out cb br = .err .truncatedInput inp'.length := by
  induction fuel generalizing pos out cb br with
  | zero =>
    cases h
    exact absurd hcut hpos.not_gt
  | succ fuel ih =>
    obtain ⟨-, -, rfl⟩ | ⟨p, c, b, p', out', hroom, hfetch, hop, hloop⟩ := refLoop_ok_cases h
    · exact absurd hcut hpos.not_gt
    · obtain ⟨-, hfetch', hfetchCut⟩ := fetchFlags_some_facts hfetch
      obtain ⟨-, -, hop', hopCut⟩ := refOp_ok_facts hop
      rcases Nat.lt_or_ge inp'.length p with hp | hp
      · exact refLoop_of_fetch_none hroom (hfetchCut inp' hp hpos)
      · rw [refLoop_of_fetch_some hroom (hfetch' inp' (hagree.mono (Nat.zero_le _) hp))]
        rcases Nat.lt_or_ge inp'.length p' with hp' | hp'
        · rw [hopCut inp' _ hp hp' rfl (fun i hi => hagree i (Nat.zero_le i) hi)]
          rfl
        · rw [hop' inp' (hagree.mono (Nat.zero_le _) hp')]
          exact ih hloop hp'

end Loop

/-! ### The whole decode -/

section Decode

variable {tags : List Tag} {maxOut k : Nat} {inp inp' out : List Byte}

theorem refDecode_ok_cases (h : refDecode tags maxOut inp = .ok out k) :
    ∃ (m : Tag) (n : BitVec 32) (r : BitVec 64) (payload : List Byte), inp = encode (.hdr m n r) ++ payload ∧
      m ∈ tags ∧ n.toNat ≤ maxOut ∧ refLoop inp n.toNat n.toNat 16 [] 0#8 0 = .ok out k := by
  obtain hshort | ⟨m, tl, rfl, hm⟩ | ⟨m, tl, rfl, hm, htl⟩ | ⟨m, n, r, payload, rfl, hm⟩ := container_cases tags inp
  · rw [refDecode_without_tag hshort] at h
    cases h
  · rw [refDecode_foreign_tag hm] at h
    cases h
  · rw [refDecode_cut_header hm htl] at h
    cases h
  · rcases Nat.lt_or_ge maxOut n.toNat with hlarge | hn
    · rw [refDecode_too_large hm hlarge] at h
      cases h
    · rw [refDecode_hdr tags maxOut m n r payload hm hn] at h
      exact ⟨m, n, r, payload, rfl, hm, hn, h⟩

/-- A container that agrees on the first 16 bytes has the same header. -/
theorem exists_payload_of_take_eq {m : Tag} {n : BitVec 32} {r : BitVec 64} {payload : List Byte} (hk : 16 ≤ k)
    (h : inp'.take k = (encode (.hdr m n r) ++ payload).take k) :
    ∃ payload', inp' = encode (.hdr m n r) ++ payload' := by
  have htake : inp'.take 16 = encode (.hdr m n r) := by
    calc inp'.take 16 = (inp'.take k).take 16 := by rw [List.take_take, Nat.min_eq_left hk]
      _ = (encode (.hdr m n r) ++ payload).take 16 := by rw [h, List.take_take, Nat.min_eq_left hk]
      _ = encode (.hdr m n r) := List.take_left' (encode_hdr_length m n r)
  exact ⟨inp'.drop 16, by rw [← htake, List.take_append_drop]⟩

theorem refDecode_take_header {m : Tag} {n : BitVec 32} {r : BitVec 64} {payload : List Byte} {j : Nat}
    (hm : m ∈ tags) (hj : j < 16) :
    refDecode tags maxOut ((encode (.hdr m n r) ++ payload).take j) = .err .truncatedInput j := by
  have hlength : ((encode (.hdr m n r) ++ payload).take j).length = j := by
    rw [List.length_take, List.length_append, encode_hdr_length]
    omega
  rcases Nat.lt_or_ge j 4 with htag | htag
  · rw [refDecode_without_tag (by omega), hlength]
  · obtain ⟨i, rfl⟩ := Nat.exists_eq_add_of_le' htag
    rw [encode_hdr_append] at hlength ⊢
    have htl : ((bytes32 n ++ bytes64 r ++ payload).take i).length = i := Nat.add_right_cancel (m := 4) hlength
    exact (refDecode_cut_header hm (by omega)).trans (by rw [htl])

end Decode

/-- Settles O50: the header is read first, then the loop. -/
theorem trailingInputNeverMatters : Obligations.TrailingInputNeverMatters := by
  unfold Obligations.TrailingInputNeverMatters
  intro tags maxOut inp out k hdecode
  obtain ⟨m, n, r, payload, rfl, hm, hn, hloop⟩ := refDecode_ok_cases hdecode
  obtain ⟨hk, hkle⟩ := refLoop_pos_le hloop
  constructor
  · intro inp' _ htake
    obtain ⟨payload', rfl⟩ := exists_payload_of_take_eq hk htake
    rw [refDecode_hdr tags maxOut m n r payload' hm hn]
    exact refLoop_of_agree hloop ((agreeOn_of_take_eq htake).mono (Nat.zero_le _) (Nat.le_refl _))
  · intro j hj
    rcases Nat.lt_or_ge j 16 with hshort | hlong
    · exact refDecode_take_header hm hshort
    · have hlength : ((encode (.hdr m n r) ++ payload).take j).length = j :=
        List.length_take_of_le (hj.le.trans (hkle (le_length_hdr_append m n r payload)))
      obtain ⟨payload', hinp'⟩ := exists_payload_of_take_eq (inp' := (encode (.hdr m n r) ++ payload).take j) hlong
        (by rw [List.take_take, Nat.min_self])
      have hcut := refLoop_of_cut hloop (by rw [hlength]; exact agreeOn_take _ j) (by rw [hlength]; exact hlong)
        (by rw [hlength]; exact hj)
      rw [hlength] at hcut
      rw [← hcut, hinp']
      exact refDecode_hdr tags maxOut m n r payload' hm hn

end Sys2Proof.Proofs
end

section
/-! PROOF. The five sites of a missing byte (60_exceptions.md R212) and the range check of a back-reference (R213), on the
item that the fetch runs, whatever bytes it found. -/

namespace Sys2Proof.Proofs

open Sys2Proof Sys2Proof.Machine Sys2Proof.Safety Sys2Proof.Laws

section Fetch

variable {s : State} {b0 b1 : Byte} {more : List Byte}

/-! ### What the fetch runs in each context -/

theorem execFetched_header_eq (s : State) : ∃ m n r, execFetched .header s = execHdr m n r s := by
  obtain ⟨i, hcontext, -, hfetch⟩ := execFetched_exec .header s
  cases i with
  | hdr m n r => exact ⟨m, n, r, hfetch⟩
  | ctrl | lit | brefLong | brefShort | endDecode => cases hcontext

theorem execFetched_control_eq (s : State) : ∃ c, execFetched .control s = execCtrl c s := by
  obtain ⟨i, hcontext, -, hfetch⟩ := execFetched_exec .control s
  cases i with
  | ctrl c => exact ⟨c, hfetch⟩
  | hdr | lit | brefLong | brefShort | endDecode => cases hcontext

theorem execFetched_literal_eq (s : State) : ∃ v, execFetched .literal s = execLit v s := by
  obtain ⟨i, hcontext, -, hfetch⟩ := execFetched_exec .literal s
  cases i with
  | lit v => exact ⟨v, hfetch⟩
  | hdr | ctrl | brefLong | brefShort | endDecode => cases hcontext

theorem execFetched_backRef_eq (s : State) :
    ∃ d x len, x ≤ 1 ∧ execFetched .backRef s = (backReference d x len s).outcome := by
  obtain ⟨i, hcontext, -, hfetch⟩ := execFetched_exec .backRef s
  cases i with
  | brefShort n d => exact ⟨d, 0, shortCopyLength n, Nat.zero_le 1, hfetch⟩
  | brefLong d e => exact ⟨d, 1, longCopyLength e, Nat.le_refl 1, hfetch⟩
  | hdr | ctrl | lit | endDecode => cases hcontext

/-- With both descriptor bytes there the distance is known, whether or not an extended length byte is. -/
theorem execFetched_backRef_of_descriptor (hrest : rest s = b0 :: b1 :: more) :
    ∃ x len, x ≤ 1 ∧ (b0.toNat >>> 4 = 0 → x = 1) ∧
      execFetched .backRef s = (backReference (distanceField b0 b1) x len s).outcome := by
  obtain ⟨hshort, hfetch⟩ | ⟨-, e, hfetch, -⟩ := execFetched_backRef hrest
  · exact ⟨0, _, Nat.zero_le 1, fun hlong => absurd hlong hshort, hfetch⟩
  · exact ⟨1, _, Nat.le_refl 1, fun _ => rfl, hfetch⟩

theorem avail_of_descriptor (hrest : rest s = b0 :: b1 :: more) : s.avail = more.length + 2 := by
  rw [← rest_length, hrest]
  rfl

/-! ### The sites -/

/-- R112, R113: an accepted tag and no whole header. -/
theorem execHdr_of_cut_header {m : Tag} {n : BitVec 32} {r : BitVec 64} (hpos : s.inPos.toNat + 16 < 2 ^ 64)
    (hm : m ∈ s.cfg.magicSet) (hshort : s.avail < 16) :
    ∃ size, execHdr m n r s = .next (((atEnd s).setDeclaredSize size).errorEntry .truncatedInput) := by
  rw [execHdr_eq m n r s hpos, if_neg (not_not_intro hm), if_pos hshort]
  by_cases htag : s.avail < 4
  · exact ⟨s.declaredSize, if_pos htag⟩
  · rw [if_neg htag]
    by_cases hsize : s.avail < 8
    · exact ⟨s.declaredSize, if_pos hsize⟩
    · exact ⟨n, if_neg hsize⟩

/-- R213: the distance is checked before anything after the descriptor is read. -/
theorem execFetched_backRef_of_bad_distance (hrest : rest s = b0 :: b1 :: more) (hpos : s.inPos.toNat + 3 < 2 ^ 64)
    (hd : s.outLen.toNat ≤ (distanceField b0 b1).toNat) :
    execFetched .backRef s = .next ((advance 2 s).errorEntry .invalidBackReference) := by
  have havail := avail_of_descriptor hrest
  obtain ⟨x, len, hx, -, hfetch⟩ := execFetched_backRef_of_descriptor hrest
  rw [hfetch, backReference_of_bad_distance (by omega) (by omega) hd, outcome_raised]

theorem execFetched_backRef_of_length_missing (hrest : rest s = [b0, b1]) (hpos : s.inPos.toNat + 3 < 2 ^ 64)
    (hlong : b0.toNat >>> 4 = 0) (hd : (distanceField b0 b1).toNat < s.outLen.toNat) :
    execFetched .backRef s = .next ((atEnd s).errorEntry .truncatedInput) := by
  have havail : s.avail = 2 := avail_of_descriptor hrest
  obtain ⟨x, len, -, hform, hfetch⟩ := execFetched_backRef_of_descriptor hrest
  obtain rfl := hform hlong
  rw [hfetch, backReference_of_length_missing hpos (by omega) (by omega) hd, outcome_raised]

end Fetch

/-- Settles O29: the range check does not depend on the form; distance 0 is already too far at out_len 0. -/
theorem firstBackReferenceIsInvalid : Obligations.FirstBackReferenceIsInvalid := by
  unfold Obligations.FirstBackReferenceIsInvalid
  intro b0 b1 more s hrest hpos
  refine ⟨fun hd => execFetched_backRef_of_bad_distance hrest hpos hd, fun hempty => ?_⟩
  have hd : s.outLen.toNat ≤ (distanceField b0 b1).toNat := by simp [hempty]
  exact execFetched_backRef_of_bad_distance hrest hpos hd

/-- Settles O37: one site after the other; at each, the bytes that are there decide the item that runs, and it reads past
them. -/
theorem missingByteRaisesTruncated : Obligations.MissingByteRaisesTruncated := by
  unfold Obligations.MissingByteRaisesTruncated
  intro s hpos truncated
  refine ⟨fun havail => ?_, fun m0 m1 m2 m3 tl hrest hm htl => ?_, fun havail => ?_, fun havail => ?_, fun havail => ?_,
    fun b0 b1 hrest hlong hd => execFetched_backRef_of_length_missing hrest (by omega) hlong hd⟩
  · obtain ⟨m, n, r, hfetch⟩ := execFetched_header_eq s
    rw [hfetch, execHdr_eq m n r s hpos, if_pos havail]
    rfl
  · obtain ⟨n, r, hfetch, -⟩ := execFetched_header hrest
    have hshort : s.avail < 16 := by
      rw [← rest_length, hrest]
      simp only [List.length_cons]
      omega
    obtain ⟨size, hexec⟩ := execHdr_of_cut_header (n := n) (r := r) hpos hm hshort
    exact ⟨_, hfetch.trans hexec, rfl, rfl, rfl⟩
  · obtain ⟨c, hfetch⟩ := execFetched_control_eq s
    exact hfetch.trans (execCtrl_of_no_avail c havail)
  · obtain ⟨v, hfetch⟩ := execFetched_literal_eq s
    exact hfetch.trans (execLit_of_no_avail havail)
  · obtain ⟨d, x, len, hx, hfetch⟩ := execFetched_backRef_eq s
    rw [hfetch, backReference_of_short_descriptor (by omega) havail]
    rfl

end Sys2Proof.Proofs
end

section
/-! PROOF. Error entry (60_exceptions.md R215): what a step that ends in ERROR changes, first in HEADER, then in RUN from the
state in which the iteration runs its operation. -/

namespace Sys2Proof.Proofs

open Sys2Proof Sys2Proof.Machine Sys2Proof.Safety Sys2Proof.Laws

/-- What every error of kind `k` leaves, the cursor at `p`: the registers that may differ are listed in `regs`, and the
cursor is where R210 says. -/
structure ErrorLeft (s t : State) (k : ErrorKind) (p : Nat) : Prop where
  regs : t = { s with
    phase := .error, err := some k, inPos := t.inPos,
    declaredSize := t.declaredSize, controlByte := t.controlByte, bitsRemaining := t.bitsRemaining }
  pos_eq : t.inPos.toNat = p
  pos_ge : s.inPos.toNat ≤ p
  pos_le : p ≤ s.inp.length
  mismatch : k = .formatMismatch → p = 4
  truncated : k = .truncatedInput → p = s.inp.length

/-- R137: the iteration begins with a control byte, and it is there. -/
def FetchesControl (s : State) : Prop := s.phase = .run ∧ s.bitsRemaining = 0#4 ∧ 1 ≤ s.avail

/-- No CTRL wrote before the error. -/
structure ControlKept (s t : State) (k : ErrorKind) (p : Nat) : Prop where
  unfetched : ¬ FetchesControl s
  controlByte : t.controlByte = s.controlByte
  bits : t.bitsRemaining = s.bitsRemaining
  distance : k = .invalidBackReference → p = s.inPos.toNat + 2

/-- The CTRL of the same iteration wrote before the error. -/
structure ControlLoaded (s t : State) (k : ErrorKind) (p : Nat) : Prop where
  fetched : FetchesControl s
  controlByte : s.inp[s.inPos.toNat]? = some t.controlByte
  bits : t.bitsRemaining = 8#4
  distance : k = .invalidBackReference → p = s.inPos.toNat + 3

section Errors

variable {s u t : State} {k : ErrorKind} {p : Nat}

theorem select_ne_nothing (hphase : s.phase = .header ∨ s.phase = .run) : select s ≠ .nothing := by
  obtain hphase | hphase := hphase
  · simp [select, hphase]
  · by_cases hfull : s.outLen = s.declaredSize
    · simp [select, hphase, hfull]
    · by_cases hbits : s.bitsRemaining = 0#4
      · simp [select, hphase, hfull, hbits]
      · simp only [select, hphase, hfull, hbits, if_false, selectOp]
        split <;> simp

/-- R63: a step of a decode that goes on is not one of an overlapping platform. -/
theorem inOutOverlap_of_step (hphase : s.phase = .header ∨ s.phase = .run) (hstep : step s = .next t) :
    s.cfg.inOutOverlap = false := by
  obtain ⟨hnothing, -⟩ | ⟨-, -, hoverlap, -⟩ := step_phase_cases hstep
  · exact absurd hnothing (select_ne_nothing hphase)
  · exact hoverlap

theorem step_of_error (hphase : t.phase = .error) : step t = .next t := by
  rw [step_eq]
  simp [select, hphase]

/-! ### The errors one by one -/

theorem errorLeft_atEnd (size : BitVec 32) (hpos : s.inPos.toNat ≤ s.inp.length) (hlen : s.inp.length < 2 ^ 64) :
    ErrorLeft s (((atEnd s).setDeclaredSize size).errorEntry .truncatedInput) .truncatedInput s.inp.length where
  regs := rfl
  pos_eq := Nat.mod_eq_of_lt hlen
  pos_ge := hpos
  pos_le := Nat.le_refl _
  mismatch := nofun
  truncated _ := rfl

theorem errorLeft_foreign_tag (hpos : s.inPos = 0#64) (hlen : 4 ≤ s.inp.length) :
    ErrorLeft s ((advance 4 s).errorEntry .formatMismatch) .formatMismatch 4 where
  regs := rfl
  pos_eq := by simp [advance, hpos]
  pos_ge := by simp [hpos]
  pos_le := hlen
  mismatch _ := rfl
  truncated := nofun

/-- R215: an operation's error, seen from the state in which its iteration began. -/
theorem Fetched.errorLeft (h : Fetched s u) (herror : OpError u t k p) : ErrorLeft s t k p where
  regs := by
    rw [herror.regs, h.regs]
    rfl
  pos_eq := by
    have hle := herror.pos_le
    have hwrap := h.ready.noWrap
    rw [herror.regs]
    exact Nat.mod_eq_of_lt (by omega)
  pos_ge := h.pos_ge.trans herror.pos_ge
  pos_le := by
    have hinp : u.inp = s.inp := by rw [h.regs]
    exact hinp ▸ herror.pos_in
  mismatch hk := by
    obtain ⟨hk', -⟩ | ⟨hk', -⟩ := herror.cause <;> cases hk.symm.trans hk'
  truncated hk := by
    have hinp : u.inp = s.inp := by rw [h.regs]
    obtain ⟨-, hp⟩ | ⟨hk', -⟩ := herror.cause
    · rw [hp, hinp]
    · cases hk.symm.trans hk'

theorem opError_distance (herror : OpError u t k p) (hk : k = .invalidBackReference) : p = u.inPos.toNat + 2 := by
  obtain ⟨hk', -⟩ | ⟨-, hp, -⟩ := herror.cause
  · cases hk.symm.trans hk'
  · exact hp

theorem opError_declaredSize (herror : OpError u t k p) : t.declaredSize = u.declaredSize := by
  rw [herror.regs]
  rfl

theorem bits_ne_zero_of_opReady (hready : OpReady s) : s.bitsRemaining ≠ 0#4 := by
  intro hzero
  have hleft := hready.bits1
  simp [hzero] at hleft

/-- An error of the operation of a flag bit that was left. -/
theorem controlKept_of_opError (hready : OpReady s) (herror : OpError s t k p) : ControlKept s t k p where
  unfetched := fun ⟨_, hbits, _⟩ => bits_ne_zero_of_opReady hready hbits
  controlByte := by
    rw [herror.regs]
    rfl
  bits := by
    rw [herror.regs]
    rfl
  distance := opError_distance herror

/-- An error of the operation that follows a CTRL in the same iteration. -/
theorem controlLoaded_of_opError {c : Byte} (hinv : Inv s) (hphase : s.phase = .run) (hbits : s.bitsRemaining = 0#4)
    (hc : s.inp[s.inPos.toNat]? = some c) (herror : OpError (afterControl c s) t k p) : ControlLoaded s t k p where
  fetched := by
    obtain ⟨hlt, -⟩ := List.getElem?_eq_some_iff.mp hc
    exact ⟨hphase, hbits, Nat.sub_pos_of_lt hlt⟩
  controlByte := by
    rw [hc, herror.regs]
    rfl
  bits := by
    rw [herror.regs]
    rfl
  distance hk := by
    have hbound := hinv.inPosBound
    have hcursor : (afterControl c s).inPos.toNat = s.inPos.toNat + 1 := advance_toNat (by omega)
    rw [opError_distance herror hk, hcursor]

/-! ### A step that ends in ERROR -/

theorem header_error (hinv : Inv s) (hphase : s.phase = .header) (hstep : step s = .next t) (ht : t.phase = .error) :
    ∃ k p, ErrorLeft s t k p ∧ ControlKept s t k p := by
  have hoverlap := inOutOverlap_of_step (.inl hphase) hstep
  obtain ⟨-, -, -, hpos, -, -⟩ := hinv.atStart (.inr hphase)
  have hzero : s.inPos.toNat = 0 := by simp [hpos]
  have hunfetched : ¬ FetchesControl s := by simp [FetchesControl, hphase]
  obtain hshort | ⟨m, tl, hinp, hm⟩ | ⟨m, tl, hinp, hm, htl⟩ | ⟨m, n, r, payload, hinp, hm⟩ :=
    container_cases s.cfg.magicSet s.inp
  · rw [step_without_tag hphase hoverlap hpos hshort] at hstep
    cases hstep
    exact ⟨_, _, errorLeft_atEnd s.declaredSize (by omega) (by omega), hunfetched, rfl, rfl, nofun⟩
  · rw [step_foreign_tag hphase hoverlap hpos hinp hm] at hstep
    cases hstep
    exact ⟨_, _, errorLeft_foreign_tag hpos (by simp [hinp]), hunfetched, rfl, rfl, nofun⟩
  · obtain ⟨size, hcut⟩ := step_cut_header hphase hoverlap hpos hinp hm htl
    have hlen : s.inp.length = tl.length + 4 := by simp [hinp]
    rw [hcut] at hstep
    cases hstep
    exact ⟨_, _, errorLeft_atEnd size (by omega) (by omega), hunfetched, rfl, rfl, nofun⟩
  · by_cases hlarge : s.cfg.maxOut < n
    · rw [step_too_large hphase hoverlap hpos hinp hm hlarge] at hstep
      cases hstep
    · rw [step_accepted_header hphase hoverlap hpos hinp hm (BitVec.not_lt.mp hlarge)] at hstep
      cases hstep
      cases ht

theorem outLen_ne_declaredSize_of_error (hphase : s.phase = .run) (hstep : step s = .next t) (ht : t.phase = .error) :
    s.outLen ≠ s.declaredSize := by
  intro hfull
  rw [step_of_select_finish ((select_eq_finish s).mpr ⟨hphase, hfull⟩) (inOutOverlap_of_step (.inr hphase) hstep)] at hstep
  cases hstep
  cases ht

theorem run_error (hinv : Inv s) (hphase : s.phase = .run) (hstep : step s = .next t) (ht : t.phase = .error) :
    ∃ k p, ErrorLeft s t k p ∧ t.declaredSize = s.declaredSize ∧ (ControlKept s t k p ∨ ControlLoaded s t k p) := by
  have hfull := outLen_ne_declaredSize_of_error hphase hstep ht
  obtain ⟨rfl, havail, hbits⟩ | ⟨u, hu, hready, -, hop⟩ := run_step_summary hinv hphase hfull hstep
  · have hpos := hinv.inPosLe hphase
    have hbound := hinv.inPosBound
    have hlen : s.inp.length - s.inPos.toNat = 0 := havail
    have hunfetched : ¬ FetchesControl s := fun ⟨_, _, hbyte⟩ => by omega
    exact ⟨_, _, errorLeft_atEnd s.declaredSize hpos (by omega), rfl, .inl ⟨hunfetched, rfl, rfl, nofun⟩⟩
  · obtain ⟨pos, out, hdone⟩ | ⟨k, p, herror⟩ := hop
    · have hrun : t.phase = .run := by rw [hdone.regs, hready.run]
      cases hrun.symm.trans ht
    · have hsize := opError_declaredSize herror
      obtain hself | ⟨hbits, c, hc, rfl⟩ := hu
      · rw [hself] at hready herror hsize
        exact ⟨k, p, (fetched_self hinv hready (bits_ne_zero_of_opReady hready)).errorLeft herror, hsize,
          .inl (controlKept_of_opError hready herror)⟩
      · exact ⟨k, p, (fetched_afterControl hinv hphase hbits hc hready).errorLeft herror, hsize,
          .inr (controlLoaded_of_opError hinv hphase hbits hc herror)⟩

theorem step_error (hinv : Inv s) (hphase : s.phase = .header ∨ s.phase = .run) (hstep : step s = .next t)
    (ht : t.phase = .error) :
    ∃ k p, ErrorLeft s t k p ∧ (s.phase = .run → t.declaredSize = s.declaredSize) ∧
      (ControlKept s t k p ∨ ControlLoaded s t k p) := by
  obtain hphase | hphase := hphase
  · obtain ⟨k, p, hleft, hkept⟩ := header_error hinv hphase hstep ht
    exact ⟨k, p, hleft, by simp [hphase], .inl hkept⟩
  · obtain ⟨k, p, hleft, hsize, hcontrol⟩ := run_error hinv hphase hstep ht
    exact ⟨k, p, hleft, fun _ => hsize, hcontrol⟩

end Errors

/-- Settles O35: what an error leaves is said once for every kind; the control byte and the count of bits depend on whether a
CTRL wrote them in the same iteration. -/
theorem errorEntryIsPrecise : Obligations.ErrorEntryIsPrecise := by
  unfold Obligations.ErrorEntryIsPrecise
  intro s t hinv hphase hstep ht
  obtain ⟨k, p, hleft, hsize, hcontrol⟩ := step_error hinv hphase hstep ht
  obtain ⟨hregs, rfl, hge, hle, hmismatch, htruncated⟩ := hleft
  have herr : t.err = some k := by rw [hregs]
  have hkind {k' : ErrorKind} (h : t.err = some k') : k = k' := Option.some.inj (herr.symm.trans h)
  have houtLen : t.outLen = s.outLen := by rw [hregs]
  have hout : t.out = s.out := by rw [hregs]
  have hinp : t.inp = s.inp := by rw [hregs]
  have hcfg : t.cfg = s.cfg := by rw [hregs]
  have hdraws : t.draws = s.draws := by rw [hregs]
  refine ⟨by rw [herr]; rfl, houtLen, fun a => by rw [hout], hinp, hcfg, hdraws, hge, hle,
    fun h => BitVec.eq_of_toNat_eq (hmismatch (hkind h)), fun h => htruncated (hkind h), hsize, ?_, ?_, ?_⟩
  · intro hfetches
    obtain hkept | hloaded := hcontrol
    · exact absurd hfetches hkept.unfetched
    · exact ⟨hloaded.controlByte, hloaded.bits, fun h => hloaded.distance (hkind h)⟩
  · intro hunfetched
    obtain hkept | hloaded := hcontrol
    · exact ⟨hkept.controlByte, hkept.bits, fun h => hkept.distance (hkind h)⟩
    · exact absurd hloaded.fetched hunfetched
  · intro t' hnext
    rw [step_of_error ht] at hnext
    cases hnext
    exact ⟨rfl, rfl, rfl⟩

end Sys2Proof.Proofs
end

section
/-! PROOF. Writes of CTRL.START by phase (70_reset_and_hazards.md R241, R242): which of them begin a decode, and which
leave the state as it is. -/

namespace Sys2Proof.Proofs

open Sys2Proof Sys2Proof.Machine Sys2Proof.Laws

section Start

variable {s : State}

/-- The three phases in which a START is taken (R241) are those that are not BUSY (R29). -/
theorem busy_eq_false_of_resting (hphase : s.phase = .idle ∨ s.phase = .done ∨ s.phase = .error) : s.busy = false := by
  obtain hphase | hphase | hphase := hphase <;> simp [State.busy, hphase]

theorem select_of_header (hphase : s.phase = .header) : select s = .item .header := by
  simp [select, hphase]

end Start

/-- Settles O3: outside HEADER and RUN the write is `State.start`, whose phase HEADER selects HDR. -/
theorem startWriteBeginsDecode : Obligations.StartWriteBeginsDecode := by
  unfold Obligations.StartWriteBeginsDecode
  intro s v hset hphase
  have hstart : writeReg 0#3 v s = s.start := writeReg_ctrl_start hset (busy_eq_false_of_resting hphase)
  rw [hstart]
  exact ⟨rfl, select_of_header (start_phase s)⟩

/-- Settles O4: the write starts nothing because the block is BUSY, or because its bit 0 is clear. -/
theorem startIgnoredWhileBusyOrZero : Obligations.StartIgnoredWhileBusyOrZero := by
  unfold Obligations.StartIgnoredWhileBusyOrZero
  rintro s v (hphase | hclear)
  · exact writeReg_ctrl_of_busy ((busy_eq_true_iff s).mpr hphase)
  · exact writeReg_ctrl_of_bit_clear hclear

end Sys2Proof.Proofs
end

section
/-! PROOF. The decoder and the encoder (30_encoding.md R80 to R92): each undoes the other, the decoder rejects a byte list
only for its length, and the assembler's back-reference lines are the encoder's formulas. -/

namespace Sys2Proof.Proofs

open Sys2Proof Sys2Proof.Machine Sys2Proof.Laws

/-! ### The decoder after the encoder -/

section Encode

variable (d : BitVec 12) (e : Byte) (more : List Byte)

theorem decode_encode_brefLong :
    decode .backRef (encode (.brefLong d e) ++ more) = .ok (.brefLong d e, more) := by
  have hlong : highNibble (0#4 ++ d.extractLsb' 8 4) = 0#4 := highNibble_append _ _
  simp only [encode, List.cons_append, List.nil_append]
  rw [decode_backRef_long hlong, distance_bytes]

theorem decode_encode_brefShort {n : BitVec 4} (hn : n ≠ 0#4) :
    decode .backRef (encode (.brefShort n d) ++ more) = .ok (.brefShort n d, more) := by
  have hnibble : highNibble (n ++ d.extractLsb' 8 4) = n := highNibble_append _ _
  simp only [encode, List.cons_append, List.nil_append]
  rw [decode_backRef_short (by rwa [hnibble]), hnibble, distance_bytes]

end Encode

/-- Settles O10: the fields of each format are put together again from the bytes they were cut into. -/
theorem decodeOfEncode : Obligations.DecodeOfEncode := by
  unfold Obligations.DecodeOfEncode
  intro i more hwf
  cases i with
  | hdr m size r => exact decodeHeader_encode m size r more
  | ctrl | lit | endDecode => rfl
  | brefLong d e => exact decode_encode_brefLong d e more
  | brefShort n d => exact decode_encode_brefShort d more (bne_iff_ne.mp hwf)

/-! ### The encoder after the decoder -/

/-- R80: the table's length is that of the encoding. -/
theorem encode_length (i : Instr) : (encode i).length = i.length := by
  cases i with
  | hdr m n r => exact (EncodeLength.hdr m n r).1
  | ctrl | lit | brefLong | brefShort | endDecode => rfl

/-- The bytes of a well-formed instruction of context `c`, and the bytes after it. -/
structure Encodes (c : Context) (bs : List Byte) (i : Instr) (more : List Byte) : Prop where
  wf : i.wf = true
  context : i.context = c
  bytes : bs = encode i ++ more

section Decode

variable {bs more : List Byte} {i : Instr}

theorem encodes_of_decodeHeader (h : decodeHeader bs = .ok (i, more)) : Encodes .header bs i more := by
  unfold decodeHeader at h
  split at h
  · cases h
    exact ⟨rfl, rfl, by simp [encode, bytes32_be32, bytes64_be64]⟩
  · cases h

theorem encode_brefLong_distanceField {b0 : Byte} (b1 b2 : Byte) (hlong : highNibble b0 = 0#4) :
    encode (.brefLong (distanceField b0 b1) b2) = [b0, b1, b2] := by
  rw [encode, distanceField_high, distanceField_low, ← hlong, append_nibbles]

theorem encode_brefShort_distanceField (b0 b1 : Byte) :
    encode (.brefShort (highNibble b0) (distanceField b0 b1)) = [b0, b1] := by
  rw [encode, distanceField_high, distanceField_low, append_nibbles]

theorem encodes_of_decode_backRef (h : decode .backRef bs = .ok (i, more)) : Encodes .backRef bs i more := by
  match bs, h with
  | [], h => cases h
  | [_], h => cases h
  | b0 :: b1 :: bytes, h =>
    by_cases hlong : highNibble b0 = 0#4
    · cases bytes with
      | nil => simp [decode, decodeBackRef, hlong] at h
      | cons b2 tl =>
        rw [decode_backRef_long hlong] at h
        cases h
        exact ⟨rfl, rfl, by rw [encode_brefLong_distanceField b1 b2 hlong]; rfl⟩
    · rw [decode_backRef_short hlong] at h
      cases h
      exact ⟨bne_iff_ne.mpr hlong, rfl, by rw [encode_brefShort_distanceField]; rfl⟩

theorem encodes_of_decode {c : Context} (h : decode c bs = .ok (i, more)) : Encodes c bs i more := by
  cases c with
  | header => exact encodes_of_decodeHeader h
  | backRef => exact encodes_of_decode_backRef h
  | finish =>
    cases h
    exact ⟨rfl, rfl, rfl⟩
  | control | literal =>
    cases bs with
    | nil => cases h
    | cons b tl =>
      cases h
      exact ⟨rfl, rfl, rfl⟩

end Decode

/-- Settles O11: one format after the other, by the bytes the decoder looks at. -/
theorem encodeOfDecode : Obligations.EncodeOfDecode := by
  unfold Obligations.EncodeOfDecode
  intro c bs more i h
  obtain ⟨hwf, hcontext, hbytes⟩ := encodes_of_decode h
  exact ⟨hwf, hcontext, hbytes, encode_length i⟩

/-! ### What the decoder rejects -/

section Reject

variable {bs : List Byte}

theorem decodeHeader_rejects_iff : (∃ e, decodeHeader bs = .error e) ↔ bs.length < 16 := by
  unfold decodeHeader
  split
  · simp
  · next hshort =>
    refine iff_of_true ⟨_, rfl⟩ (Nat.lt_of_not_le fun hlong => ?_)
    match bs, hlong with
    | m0 :: m1 :: m2 :: m3 :: s0 :: s1 :: s2 :: s3 :: r0 :: r1 :: r2 :: r3 :: r4 :: r5 :: r6 :: r7 :: tl, _ =>
      exact hshort m0 m1 m2 m3 s0 s1 s2 s3 r0 r1 r2 r3 r4 r5 r6 r7 tl rfl

theorem decodeBackRef_rejects_iff : (∃ e, decodeBackRef bs = .error e) ↔
    bs.length < 2 ∨ (bs.length < 3 ∧ ∀ b0 ∈ bs.head?, b0 &&& 0xF0#8 = 0#8) := by
  match bs with
  | [] | [_] => simp [decodeBackRef]
  | [b0, b1] =>
    simp only [decodeBackRef, List.length_cons, List.length_nil, List.head?_cons, Option.mem_some_iff, forall_eq',
      and_F0_eq_zero]
    by_cases hlong : highNibble b0 = 0#4 <;> simp [hlong]
  | b0 :: b1 :: b2 :: tl =>
    by_cases hlong : highNibble b0 = 0#4 <;> simp [decodeBackRef, hlong]

end Reject

/-- Settles O13: the decoder's own tests of the length; the mask of R88 is its test of `b0[7:4]`. -/
theorem onlyShortInputIsRejected : Obligations.OnlyShortInputIsRejected := by
  unfold Obligations.OnlyShortInputIsRejected
  intro c bs
  cases c with
  | header => exact decodeHeader_rejects_iff
  | finish => simp [decode]
  | control | literal => cases bs <;> simp [decode]
  | backRef => exact decodeBackRef_rejects_iff

/-- Settles O12: the decoder run on each word. -/
theorem wordsDecode : Obligations.WordsDecode := ⟨rfl, rfl, rfl, rfl, rfl, rfl⟩

/-! ### The assembler's back-reference lines (R92, R93) -/

section Assembler

variable {d n : Nat}

theorem asmBref_short (hd : d ≤ 4095) (hlow : 3 ≤ n) (hhigh : n ≤ 17) :
    asmBref d n = some (.brefShort (BitVec.ofNat 4 (n - 2)) (BitVec.ofNat 12 d)) := by
  rw [asmBref, if_neg (by omega), if_pos ⟨hlow, hhigh⟩]

theorem asmBref_long (hd : d ≤ 4095) (hlow : 18 ≤ n) (hhigh : n ≤ 273) :
    asmBref d n = some (.brefLong (BitVec.ofNat 12 d) (BitVec.ofNat 8 (n - 18))) := by
  rw [asmBref, if_neg (by omega), if_neg (by omega), if_pos ⟨hlow, hhigh⟩]

theorem asmBref_eq_none_iff : asmBref d n = none ↔ ¬(d ≤ 4095 ∧ 3 ≤ n ∧ n ≤ 273) := by
  unfold asmBref
  split
  · exact iff_of_true rfl (by omega)
  · split
    · exact iff_of_false nofun (by omega)
    · split
      · exact iff_of_false nofun (by omega)
      · exact iff_of_true rfl (by omega)

theorem brefS_code (d n : Nat) : (AsmLine.brefS d n).code = (if n ≤ 17 then asmBref d n else none).map encode := rfl

theorem brefL_code (d n : Nat) : (AsmLine.brefL d n).code = (if 18 ≤ n then asmBref d n else none).map encode := rfl

theorem bref_code (d n : Nat) : (AsmLine.bref d n).code = (asmBref d n).map encode := rfl

theorem brefS_code_eq_none_iff : (AsmLine.brefS d n).code = none ↔ ¬(d ≤ 4095 ∧ 3 ≤ n ∧ n ≤ 17) := by
  rw [brefS_code, Option.map_eq_none_iff]
  split
  · rw [asmBref_eq_none_iff]
    omega
  · exact iff_of_true rfl (by omega)

theorem brefL_code_eq_none_iff : (AsmLine.brefL d n).code = none ↔ ¬(d ≤ 4095 ∧ 18 ≤ n ∧ n ≤ 273) := by
  rw [brefL_code, Option.map_eq_none_iff]
  split
  · rw [asmBref_eq_none_iff]
    omega
  · exact iff_of_true rfl (by omega)

theorem copy_code (hlow : 1 ≤ d) (hhigh : d ≤ 4096) :
    (AsmLine.copy d n).code = (AsmLine.bref (d - 1) n).code := by
  change (asmCopy d n).map encode = (asmBref (d - 1) n).map encode
  rw [asmCopy, if_pos ⟨hlow, hhigh⟩]

/-! The bytes of the two formats as numbers. -/

theorem extractLsb'_high_of_ofNat (hd : d ≤ 4095) : ((BitVec.ofNat 12 d).extractLsb' 8 4).toNat = d >>> 8 := by
  simp only [BitVec.extractLsb'_toNat, BitVec.toNat_ofNat, Nat.shiftRight_eq_div_pow]
  omega

theorem distance_low_byte (d : Nat) : (BitVec.ofNat 12 d).extractLsb' 0 8 = BitVec.ofNat 8 (d &&& 0xFF) := by
  have hmask : d &&& 0xFF = d % 256 := Nat.and_two_pow_sub_one_eq_mod d 8
  apply BitVec.eq_of_toNat_eq
  rw [hmask]
  simp only [BitVec.extractLsb'_toNat, BitVec.toNat_ofNat, Nat.shiftRight_zero]
  omega

theorem descriptor_high_byte {k : Nat} (hk : k < 16) (hd : d ≤ 4095) :
    BitVec.ofNat 4 k ++ (BitVec.ofNat 12 d).extractLsb' 8 4 = BitVec.ofNat 8 ((k <<< 4) ||| (d >>> 8)) := by
  have hnibble : (BitVec.ofNat 4 k).toNat = k := by
    rw [BitVec.toNat_ofNat]
    omega
  have hbyte : (k <<< 4) ||| (d >>> 8) < 2 ^ 8 := by
    refine Nat.or_lt_two_pow ?_ ?_
    · rw [Nat.shiftLeft_eq]
      omega
    · rw [Nat.shiftRight_eq_div_pow]
      omega
  apply BitVec.eq_of_toNat_eq
  rw [BitVec.toNat_append, hnibble, extractLsb'_high_of_ofNat hd, BitVec.toNat_ofNat, Nat.mod_eq_of_lt hbyte]

theorem brefS_bytes (hd : d ≤ 4095) (hlow : 3 ≤ n) (hhigh : n ≤ 17) : (AsmLine.brefS d n).code =
    some [BitVec.ofNat 8 (((n - 2) <<< 4) ||| (d >>> 8)), BitVec.ofNat 8 (d &&& 0xFF)] := by
  rw [brefS_code, if_pos hhigh, asmBref_short hd hlow hhigh, Option.map_some, encode,
    descriptor_high_byte (by omega) hd, distance_low_byte]

theorem brefL_bytes (hd : d ≤ 4095) (hlow : 18 ≤ n) (hhigh : n ≤ 273) : (AsmLine.brefL d n).code =
    some [BitVec.ofNat 8 (d >>> 8), BitVec.ofNat 8 (d &&& 0xFF), BitVec.ofNat 8 (n - 18)] := by
  have hhighByte : 0#4 ++ (BitVec.ofNat 12 d).extractLsb' 8 4 = BitVec.ofNat 8 (d >>> 8) := by
    rw [descriptor_high_byte (k := 0) (by decide) hd, Nat.zero_shiftLeft, Nat.zero_or]
  rw [brefL_code, if_pos hlow, asmBref_long hd hlow hhigh, Option.map_some, encode, hhighByte, distance_low_byte]

end Assembler

/-- Settles O53: the line laws above, one per clause. -/
theorem assemblerFormulas : Obligations.AssemblerFormulas := by
  unfold Obligations.AssemblerFormulas
  intro d n
  refine ⟨brefS_bytes, brefL_bytes, brefS_code_eq_none_iff, brefL_code_eq_none_iff, fun _ _ hhigh => ?_,
    fun _ hlow _ => ?_, fun hn => ?_, copy_code⟩
  · rw [bref_code, brefS_code, if_pos hhigh]
  · rw [bref_code, brefL_code, if_pos hlow]
  · rw [bref_code, asmBref_eq_none_iff.mpr (by omega), Option.map_none]

end Sys2Proof.Proofs
end

section
/-! PROOF. The invariant (10_state.md R22 to R34) along every step and every move of the host. What a step can end in is
said once, by `StepEnds`; each statement about a step is a case analysis of it. -/

namespace Sys2Proof.Proofs

open Sys2Proof Sys2Proof.Machine Sys2Proof.Safety Sys2Proof.Laws

/-- What a step from a state that meets the invariant can end in, and when. There is no case of a fault. -/
inductive StepEnds (s : State) : Host.Outcome State Fault Refusal → Prop where
  /-- R136, R225. -/
  | rests (hphase : s.phase = .idle ∨ s.phase = .done ∨ s.phase = .error) : StepEnds s (.next s)
  /-- R63. -/
  | overlap (hphase : s.phase = .header ∨ s.phase = .run) (hoverlap : s.cfg.inOutOverlap = true) :
      StepEnds s (.refused .inOutOverlap)
  /-- R117. -/
  | tooLarge (hphase : s.phase = .header) : StepEnds s (.refused .outputTooLarge)
  /-- R112: a whole tag that is not in `MAGIC_SET`. -/
  | foreignTag {m : Tag} {tl : List Byte} (hphase : s.phase = .header)
      (hinp : s.inp = m.c0 :: m.c1 :: m.c2 :: m.c3 :: tl) (hm : m ∉ s.cfg.magicSet) :
      StepEnds s (.next ((advance 4 s).errorEntry .formatMismatch))
  /-- R111, R113, R114: IN ends within the 16 header bytes. -/
  | cutHeader {size : BitVec 32} (hphase : s.phase = .header) (hlen : s.inp.length < 16) :
      StepEnds s (.next (((atEnd s).setDeclaredSize size).errorEntry .truncatedInput))
  /-- R115. -/
  | accepted {n : BitVec 32} (hphase : s.phase = .header) (hlen : 16 ≤ s.inp.length) (hn : n ≤ s.cfg.maxOut) :
      StepEnds s (.next (afterHeader n s))
  /-- R131. -/
  | finished (hphase : s.phase = .run) (hfull : s.outLen = s.declaredSize) : StepEnds s (.next (s.setPhase .done))
  /-- R132: a control byte is due and IN has ended. -/
  | controlMissing (hphase : s.phase = .run) (havail : s.avail = 0) :
      StepEnds s (.next ((atEnd s).errorEntry .truncatedInput))
  /-- R137: an iteration that completes. -/
  | completed {u t : State} {pos : Nat} {out : List Byte} (hphase : s.phase = .run) (hfetched : Fetched s u)
      (hdone : OpDone u t pos out) : StepEnds s (.next t)
  /-- R137, R215: an iteration whose operation raises an error. -/
  | failed {u t : State} {k : ErrorKind} {p : Nat} (hphase : s.phase = .run) (hfetched : Fetched s u)
      (herror : OpError u t k p) : StepEnds s (.next t)

section Step

variable {s t u : State}

/-! ### A step ends in one of these -/

theorem select_of_resting (hphase : s.phase = .idle ∨ s.phase = .done ∨ s.phase = .error) : select s = .nothing := by
  obtain hphase | hphase | hphase := hphase <;> simp [select, hphase]

theorem step_of_resting (hphase : s.phase = .idle ∨ s.phase = .done ∨ s.phase = .error) : step s = .next s := by
  rw [step_eq, select_of_resting hphase]

/-- R27: with at most 8 flag bits the selection never falls outside the rows of R88. -/
theorem exists_select_item (hbits : s.bitsRemaining.toNat ≤ 8) (hphase : s.phase = .header ∨ s.phase = .run) :
    ∃ c, select s = .item c := by
  obtain hphase | hphase := hphase
  · exact ⟨_, select_of_header hphase⟩
  · by_cases hfull : s.outLen = s.declaredSize
    · exact ⟨_, (select_eq_finish s).mpr ⟨hphase, hfull⟩⟩
    · by_cases hzero : s.bitsRemaining = 0#4
      · exact ⟨_, (select_eq_control s).mpr ⟨hphase, hfull, hzero⟩⟩
      · have hleft : 1 ≤ s.bitsRemaining.toNat := Nat.pos_of_ne_zero (bitsRemaining_toNat_ne_zero hzero)
        simp only [select, hphase, hfull, hzero, if_false, selectOp, flagBit_some hleft hbits]
        cases s.controlByte.getLsbD (s.bitsRemaining.toNat - 1)
        · exact ⟨_, rfl⟩
        · exact ⟨_, rfl⟩

theorem step_of_overlap (hbits : s.bitsRemaining.toNat ≤ 8) (hphase : s.phase = .header ∨ s.phase = .run)
    (hoverlap : s.cfg.inOutOverlap = true) : step s = .refused .inOutOverlap := by
  obtain ⟨c, hsel⟩ := exists_select_item hbits hphase
  rw [step_eq, hsel]
  exact if_pos hoverlap

theorem header_stepEnds (hinv : Inv s) (hphase : s.phase = .header) (hoverlap : s.cfg.inOutOverlap = false) :
    StepEnds s (step s) := by
  obtain ⟨-, -, -, hpos, -, -⟩ := hinv.atStart (.inr hphase)
  obtain hshort | ⟨m, tl, hinp, hm⟩ | ⟨m, tl, hinp, hm, htl⟩ | ⟨m, n, r, payload, hinp, hm⟩ :=
    container_cases s.cfg.magicSet s.inp
  · rw [step_without_tag hphase hoverlap hpos hshort]
    exact .cutHeader (size := s.declaredSize) hphase (by omega)
  · rw [step_foreign_tag hphase hoverlap hpos hinp hm]
    exact .foreignTag hphase hinp hm
  · obtain ⟨size, hcut⟩ := step_cut_header hphase hoverlap hpos hinp hm htl
    have hlen : s.inp.length = tl.length + 4 := by simp [hinp]
    rw [hcut]
    exact .cutHeader hphase (by omega)
  · by_cases hlarge : s.cfg.maxOut < n
    · rw [step_too_large hphase hoverlap hpos hinp hm hlarge]
      exact .tooLarge hphase
    · have hlen : 16 ≤ s.inp.length := by
        rw [hinp]
        exact le_length_hdr_append m n r payload
      rw [step_accepted_header hphase hoverlap hpos hinp hm (BitVec.not_lt.mp hlarge)]
      exact .accepted hphase hlen (BitVec.not_lt.mp hlarge)

theorem run_stepEnds (hinv : Inv s) (hphase : s.phase = .run) (hoverlap : s.cfg.inOutOverlap = false) :
    StepEnds s (step s) := by
  by_cases hfull : s.outLen = s.declaredSize
  · rw [step_of_select_finish ((select_eq_finish s).mpr ⟨hphase, hfull⟩) hoverlap]
    exact .finished hphase hfull
  · obtain ⟨u, hfetched, hstep⟩ | ⟨-, havail, hstep⟩ := step_fetches hinv hphase hfull hoverlap
    · obtain ⟨t, hrun, ⟨pos, out, hdone⟩ | ⟨k, p, herror⟩⟩ := runOp_cases hfetched.ready
      · rw [hstep, hrun]
        exact .completed hphase hfetched hdone
      · rw [hstep, hrun]
        exact .failed hphase hfetched herror
    · rw [hstep]
      exact .controlMissing hphase havail

theorem busy_stepEnds (hinv : Inv s) (hphase : s.phase = .header ∨ s.phase = .run) : StepEnds s (step s) := by
  by_cases hoverlap : s.cfg.inOutOverlap = true
  · rw [step_of_overlap hinv.bitsLe hphase hoverlap]
    exact .overlap hphase hoverlap
  · have happart : s.cfg.inOutOverlap = false := Bool.eq_false_of_not_eq_true hoverlap
    obtain hphase | hphase := hphase
    · exact header_stepEnds hinv hphase happart
    · exact run_stepEnds hinv hphase happart

theorem stepEnds (hinv : Inv s) : StepEnds s (step s) := by
  cases hphase : s.phase with
  | idle | done | error =>
    rw [step_of_resting (by simp [hphase])]
    exact .rests (by simp [hphase])
  | header | run => exact busy_stepEnds hinv (by simp [hphase])

theorem stepEnds_next (hinv : Inv s) (hstep : step s = .next t) : StepEnds s (.next t) := hstep ▸ stepEnds hinv

/-! ### The invariant in the states a step leaves -/

/-- R215: an error asks of the state only what does not depend on the phase. -/
theorem inv_errorEntry (k : ErrorKind) (hdense : OutDense s) (hlen : s.outLen.toNat ≤ s.declaredSize.toNat)
    (hbits : s.bitsRemaining.toNat ≤ 8) (hpos : s.inPos.toNat < 2 ^ 34) (hcfg : s.cfg.wf) : Inv (s.errorEntry k) where
  outDense := hdense
  outLenLe := hlen
  errIff := by simp
  atStart := by simp
  bitsLe := hbits
  bitsLt := by simp
  pastHeader := by simp
  inPosLe := by simp
  consumed := by simp
  inPosBound := hpos
  fits := by simp
  full := by simp
  cfgWf := hcfg

/-- An error of HDR: the output is still empty, so any `declared_size` that HDR has written is enough. -/
theorem inv_header_error (k : ErrorKind) {pos : BitVec 64} {size : BitVec 32} (hinv : Inv s) (hphase : s.phase = .header)
    (hpos : pos.toNat < 2 ^ 34) : Inv (((s.setInPos pos).setDeclaredSize size).errorEntry k) := by
  obtain ⟨-, -, hlen, -, -, -⟩ := hinv.atStart (.inr hphase)
  have hempty : s.outLen.toNat = 0 := by simp [hlen]
  exact inv_errorEntry k hinv.outDense (hempty.trans_le (Nat.zero_le _)) hinv.bitsLe hpos hinv.cfgWf

theorem inv_done (hinv : Inv s) (hphase : s.phase = .run) (hfull : s.outLen = s.declaredSize) :
    Inv (s.setPhase .done) :=
  { hinv with
    errIff := by simpa [hphase] using hinv.errIff
    atStart := by simp
    bitsLt := fun _ => hinv.bitsLt (.inl hphase)
    pastHeader := by simp
    inPosLe := by simp
    consumed := by simp
    fits := by simp
    full := fun _ => hfull }

/-- R25: an operation that fails has read at most 3 bytes past the cursor, which the bytes of the output still pay for. -/
theorem Fetched.inv_failed {k : ErrorKind} {p : Nat} (hinv : Inv s) (h : Fetched s u) (herror : OpError u t k p) :
    Inv t := by
  have hready := h.ready
  have hcursor : (u.setInPos (BitVec.ofNat 64 p)).inPos.toNat < 2 ^ 34 := by
    have hconsumed := h.consumed
    have hroom := hready.room
    have hsize := u.declaredSize.isLt
    have hbits := hready.bits8
    have hle := herror.pos_le
    rw [setInPos_inPos, BitVec.toNat_ofNat, Nat.mod_eq_of_lt (by omega)]
    omega
  have hcfg : u.cfg = s.cfg := by rw [h.regs]
  rw [herror.regs]
  exact inv_errorEntry k hready.dense hready.room.le hready.bits8 hcursor (by rw [setInPos_cfg, hcfg]; exact hinv.cfgWf)

theorem inv_of_stepEnds (hinv : Inv s) (h : StepEnds s (.next t)) : Inv t := by
  cases h with
  | rests => exact hinv
  | foreignTag hphase hinp hm =>
    obtain ⟨-, -, -, hpos, -, -⟩ := hinv.atStart (.inr hphase)
    have hcursor : (advance 4 s).inPos.toNat < 2 ^ 34 := by simp [advance, hpos]
    exact inv_header_error (size := s.declaredSize) .formatMismatch hinv hphase hcursor
  | cutHeader hphase hlen =>
    refine inv_header_error .truncatedInput hinv hphase ?_
    rw [BitVec.toNat_ofNat]
    omega
  | accepted hphase hlen hn => exact inv_afterHeader hinv hphase hlen hn
  | finished hphase hfull => exact inv_done hinv hphase hfull
  | controlMissing hphase havail =>
    have hcursor : (atEnd s).inPos.toNat < 2 ^ 34 := by
      have hbound := hinv.inPosBound
      unfold State.avail at havail
      rw [atEnd, setInPos_inPos, BitVec.toNat_ofNat]
      omega
    exact inv_errorEntry .truncatedInput hinv.outDense hinv.outLenLe hinv.bitsLe hcursor hinv.cfgWf
  | completed hphase hfetched hdone => exact hfetched.inv_done hinv hphase hdone
  | failed _ hfetched herror => exact hfetched.inv_failed hinv herror

end Step

/-- Settles O41: each state a step can leave meets the invariant. -/
theorem stepKeepsInvariant : Obligations.StepKeepsInvariant := by
  unfold Obligations.StepKeepsInvariant
  intro s t hinv hstep
  exact inv_of_stepEnds hinv (stepEnds_next hinv hstep)

/-- Settles O43: a fault is not among the ends of a step. -/
theorem stepNeverFaults : Obligations.StepNeverFaults := by
  unfold Obligations.StepNeverFaults
  intro s f hinv hfault
  have hends := stepEnds hinv
  rw [hfault] at hends
  cases hends

end Sys2Proof.Proofs
end

section
/-! PROOF. What follows of one step from the cases of `StepEnds`: the result at DONE (20_memory.md R61), the errors and their
sites (60_exceptions.md R210), append only (10_state.md R23, R24), and the byte that every iteration appends
(41_control_bit_iterator.md R138). -/

namespace Sys2Proof.Proofs

open Sys2Proof Sys2Proof.Machine Sys2Proof.Safety Sys2Proof.Laws

section Step

variable {s t u : State} {k : ErrorKind} {p : Nat}

/-! ### The result -/

/-- R61: in DONE the host reads what is written. -/
theorem hostReadOut_of_done {a : BitVec 32} {v : Byte} (hphase : t.phase = .done) (hread : outRead a.toNat t = some v) :
    hostReadOut a t = (v, t) := by
  rw [hostReadOut, hphase, hread]

theorem exists_outRead (hdense : OutDense t) {a : Nat} (ha : a < t.outLen.toNat) :
    ∃ v, Memory.read t.out a = some v ∧ outRead a t = some v := by
  have hlen : a < t.outBytes.length := by rwa [outBytes_length hdense]
  have hbyte : t.outBytes[a]? = some t.outBytes[a] := List.getElem?_eq_getElem hlen
  exact ⟨_, (read_outBytes hdense a).trans hbyte, (outRead_dense hdense a).trans hbyte⟩

theorem result_of_done (hinv : Inv t) (hphase : t.phase = .done) (a : BitVec 32) (ha : a.toNat < t.declaredSize.toNat) :
    ∃ v, Memory.read t.out a.toNat = some v ∧ hostReadOut a t = (v, t) := by
  rw [← hinv.full hphase] at ha
  obtain ⟨v, hread, hout⟩ := exists_outRead hinv.outDense ha
  exact ⟨v, hread, hostReadOut_of_done hphase hout⟩

/-! ### The errors -/

/-- R210: the three kinds, each with its phase, its cursor and its cause. -/
inductive ErrorSite (s t : State) : Prop where
  | formatMismatch {m : Tag} {tl : List Byte} (herr : t.err = some .formatMismatch) (hphase : s.phase = .header)
      (hpos : t.inPos = 4#64) (hinp : s.inp = m.c0 :: m.c1 :: m.c2 :: m.c3 :: tl) (hm : m ∉ s.cfg.magicSet)
  | truncatedInput (herr : t.err = some .truncatedInput) (hphase : s.phase = .header ∨ s.phase = .run)
      (hpos : t.inPos.toNat = s.inp.length)
  | invalidBackReference {b0 b1 : Byte} (herr : t.err = some .invalidBackReference) (hphase : s.phase = .run)
      (hlen : t.outLen = s.outLen) (hpos : 2 ≤ t.inPos.toNat) (hb0 : s.inp[t.inPos.toNat - 2]? = some b0)
      (hb1 : s.inp[t.inPos.toNat - 1]? = some b1) (hd : s.outLen.toNat ≤ (distanceField b0 b1).toNat)

theorem ErrorLeft.err_eq (h : ErrorLeft s t k p) : t.err = some k := by rw [h.regs]

theorem ErrorLeft.outLen_eq (h : ErrorLeft s t k p) : t.outLen = s.outLen := by rw [h.regs]

theorem ErrorLeft.site_of_truncated (h : ErrorLeft s t .truncatedInput p)
    (hphase : s.phase = .header ∨ s.phase = .run) : ErrorSite s t :=
  .truncatedInput h.err_eq hphase (h.pos_eq.trans (h.truncated rfl))

theorem Fetched.errorSite (h : Fetched s u) (hphase : s.phase = .run) (herror : OpError u t k p) : ErrorSite s t := by
  have hleft := h.errorLeft herror
  have hinp : u.inp = s.inp := by rw [h.regs]
  have hlen : u.outLen = s.outLen := by rw [h.regs]
  obtain ⟨rfl, -⟩ | ⟨rfl, hp, b0, b1, hb0, hb1, hd⟩ := herror.cause
  · exact hleft.site_of_truncated (.inr hphase)
  · have hpos : t.inPos.toNat = u.inPos.toNat + 2 := hleft.pos_eq.trans hp
    rw [hinp] at hb0 hb1
    rw [hlen] at hd
    exact .invalidBackReference hleft.err_eq hphase hleft.outLen_eq (by omega) (by rw [hpos]; exact hb0)
      (by rw [hpos]; exact hb1) hd

theorem errorLeft_controlMissing (hinv : Inv s) (hphase : s.phase = .run) (havail : s.avail = 0) :
    ErrorLeft s ((atEnd s).errorEntry .truncatedInput) .truncatedInput s.inp.length := by
  have hpos := hinv.inPosLe hphase
  have hbound := hinv.inPosBound
  unfold State.avail at havail
  exact errorLeft_atEnd s.declaredSize hpos (by omega)

theorem errorLeft_cutHeader {size : BitVec 32} (hinv : Inv s) (hphase : s.phase = .header) (hlen : s.inp.length < 16) :
    ErrorLeft s (((atEnd s).setDeclaredSize size).errorEntry .truncatedInput) .truncatedInput s.inp.length := by
  obtain ⟨-, -, -, hpos, -, -⟩ := hinv.atStart (.inr hphase)
  exact errorLeft_atEnd size (by simp [hpos]) (by omega)

theorem step_errorSite (hinv : Inv s) (hstep : step s = .next t) (hs : s.phase ≠ .error) (ht : t.phase = .error) :
    ErrorSite s t := by
  cases stepEnds_next hinv hstep with
  | rests => exact absurd ht hs
  | foreignTag hphase hinp hm =>
    obtain ⟨-, -, -, hpos, -, -⟩ := hinv.atStart (.inr hphase)
    exact .formatMismatch rfl hphase (by simp [advance, hpos]) hinp hm
  | cutHeader hphase hlen => exact (errorLeft_cutHeader hinv hphase hlen).site_of_truncated (.inl hphase)
  | accepted => cases ht
  | finished => cases ht
  | controlMissing hphase havail => exact (errorLeft_controlMissing hinv hphase havail).site_of_truncated (.inr hphase)
  | completed hphase hfetched hdone =>
    obtain ⟨hkept, -⟩ := hfetched.kept_done hdone
    cases (hkept.trans hphase).symm.trans ht
  | failed hphase hfetched herror => exact hfetched.errorSite hphase herror

/-! ### Append only -/

/-- R23, R24, R51: what no step takes back. -/
structure AppendOnly (s t : State) : Prop where
  cfg : t.cfg = s.cfg
  draws : t.draws = s.draws
  inPos : s.inPos.toNat ≤ t.inPos.toNat
  outLen : s.outLen.toNat ≤ t.outLen.toNat
  declaredSize : s.phase ≠ .header → t.declaredSize = s.declaredSize
  kept : ∀ a < s.outLen.toNat, Memory.read t.out a = Memory.read s.out a

theorem appendOnly_of_error (hinv : Inv s) (hphase : s.phase = .header ∨ s.phase = .run) (hstep : step s = .next t)
    (ht : t.phase = .error) : AppendOnly s t := by
  obtain ⟨k, p, hleft, hsize, -⟩ := step_error hinv hphase hstep ht
  obtain ⟨hregs, hpos, hge, -⟩ := hleft
  have hlen : t.outLen = s.outLen := by rw [hregs]
  have hout : t.out = s.out := by rw [hregs]
  exact {
    cfg := by rw [hregs]
    draws := by rw [hregs]
    inPos := hge.trans_eq hpos.symm
    outLen := by rw [hlen]
    declaredSize := fun hne => hsize (hphase.resolve_left hne)
    kept := fun a _ => by rw [hout] }

theorem Fetched.appendOnly {pos : Nat} {out : List Byte} (h : Fetched s u) (hdone : OpDone u t pos out) :
    AppendOnly s t := by
  obtain ⟨-, -, hsize, -, hcfg, hgrows⟩ := h.kept_done hdone
  have hge := h.pos_ge
  have hgt := hdone.pos_gt
  have hpos := hdone.pos_eq
  have hlen : u.outLen = s.outLen := by rw [h.regs]
  have hout : u.out = s.out := by rw [h.regs]
  exact {
    cfg := hcfg
    draws := by rw [hdone.regs, h.regs]
    inPos := by omega
    outLen := hgrows.le
    declaredSize := fun _ => hsize
    kept := fun a ha => by rw [hdone.kept a (by rwa [hlen]), hout] }

theorem step_appendOnly (hinv : Inv s) (hstep : step s = .next t) : AppendOnly s t := by
  cases stepEnds_next hinv hstep with
  | rests => exact ⟨rfl, rfl, Nat.le_refl _, Nat.le_refl _, fun _ => rfl, fun _ _ => rfl⟩
  | foreignTag hphase => exact appendOnly_of_error hinv (.inl hphase) hstep rfl
  | cutHeader hphase => exact appendOnly_of_error hinv (.inl hphase) hstep rfl
  | accepted hphase =>
    obtain ⟨-, -, -, hpos, -, -⟩ := hinv.atStart (.inr hphase)
    exact ⟨rfl, rfl, by simp [hpos], Nat.le_refl _, fun hne => absurd hphase hne, fun _ _ => rfl⟩
  | finished => exact ⟨rfl, rfl, Nat.le_refl _, Nat.le_refl _, fun _ => rfl, fun _ _ => rfl⟩
  | controlMissing hphase => exact appendOnly_of_error hinv (.inr hphase) hstep rfl
  | completed _ hfetched hdone => exact hfetched.appendOnly hdone
  | failed hphase _ herror => exact appendOnly_of_error hinv (.inr hphase) hstep (by rw [herror.regs]; rfl)

/-! ### The steps of RUN -/

/-- A step in RUN raises an error, ends the decode, or is an iteration that completes. -/
theorem run_step_cases (hinv : Inv s) (hphase : s.phase = .run) (hstep : step s = .next t) :
    t.phase = .error ∨ (t.phase = .done ∧ s.outLen = s.declaredSize) ∨
      ∃ u pos out, Fetched s u ∧ OpDone u t pos out := by
  cases stepEnds_next hinv hstep with
  | rests hrests => simp [hphase] at hrests
  | foreignTag => exact .inl rfl
  | cutHeader => exact .inl rfl
  | accepted hheader => cases hphase.symm.trans hheader
  | finished _ hfull => exact .inr (.inl ⟨rfl, hfull⟩)
  | controlMissing => exact .inl rfl
  | completed _ hfetched hdone => exact .inr (.inr ⟨_, _, _, hfetched, hdone⟩)
  | failed _ _ herror => exact .inl (by rw [herror.regs]; rfl)

theorem Fetched.outLen_le {pos : Nat} {out : List Byte} (h : Fetched s u) (hdone : OpDone u t pos out) :
    t.outLen.toNat ≤ s.declaredSize.toNat := by
  have hsize : u.declaredSize = s.declaredSize := by rw [h.regs]
  exact hsize ▸ hdone.fits

end Step

/-- Settles O8: the state in DONE meets the invariant, so the output is dense and full. -/
theorem resultCompleteAtDone : Obligations.ResultCompleteAtDone := by
  unfold Obligations.ResultCompleteAtDone
  intro s t hinv hstep hphase
  exact result_of_done (stepKeepsInvariant s t hinv hstep) hphase

/-- Settles O36: the sites are those of the ends of a step that are errors. -/
theorem errorKindsAndSites : Obligations.ErrorKindsAndSites := by
  unfold Obligations.ErrorKindsAndSites
  refine ⟨fun s t hinv hstep hs ht => ?_, rfl, rfl, rfl, rfl⟩
  cases step_errorSite hinv hstep hs ht with
  | @formatMismatch m tl herr hphase hpos hinp hm =>
    exact .inl ⟨herr, hphase, hpos, m.c0, m.c1, m.c2, m.c3, tl, hinp, hm⟩
  | truncatedInput herr hphase hpos => exact .inr (.inl ⟨herr, hphase, hpos⟩)
  | invalidBackReference herr hphase hlen hpos hb0 hb1 hd =>
    exact .inr (.inr ⟨herr, hphase, hlen, hpos, _, _, hb0, hb1, hd⟩)

/-- Settles O44: every end of a step extends what was there. -/
theorem stepIsAppendOnly : Obligations.StepIsAppendOnly := by
  unfold Obligations.StepIsAppendOnly
  intro s t hinv hstep
  obtain ⟨hcfg, hdraws, hpos, hlen, hsize, hkept⟩ := step_appendOnly hinv hstep
  exact ⟨hcfg, hdraws, hpos, hlen, hsize, hkept⟩

/-- Settles O45: with no error and the output not full, the step is an iteration that completes. -/
theorem iterationAppends : Obligations.IterationAppends := by
  unfold Obligations.IterationAppends
  intro s t hinv hphase hroom hstep ht
  obtain herror | ⟨-, hfull⟩ | ⟨u, pos, out, hfetched, hdone⟩ := run_step_cases hinv hphase hstep
  · exact absurd herror ht
  · exact absurd hfull hroom
  · obtain ⟨hkept, -, -, -, -, hgrows⟩ := hfetched.kept_done hdone
    exact ⟨hkept.trans hphase, hgrows, hfetched.outLen_le hdone⟩

end Sys2Proof.Proofs
end

section
/-! PROOF. Runs from RUN (41_control_bit_iterator.md R138): the control bytes a run of completed iterations reads, and that a
run ends. -/

namespace Sys2Proof.Proofs

open Sys2Proof Sys2Proof.Machine Sys2Proof.Safety Sys2Proof.Laws

section Run

variable {s t u : State}

/-! ### Control bytes -/

/-- R132, R135: eight flag bits are loaded where none is left, and the iteration uses one. -/
theorem Fetched.bits_done {pos : Nat} {out : List Byte} (h : Fetched s u) (hdone : OpDone u t pos out) :
    t.bitsRemaining.toNat = if s.bitsRemaining.toNat = 0 then 7 else s.bitsRemaining.toNat - 1 := by
  have hflags := h.flags
  rw [bitsRemaining_of_opDone h.ready hdone]
  by_cases hzero : s.bitsRemaining.toNat = 0
  · rw [fetchFlags, if_pos hzero] at hflags
    obtain ⟨c, -, hnext⟩ := Option.map_eq_some_iff.mp hflags
    obtain ⟨-, -, hbits⟩ : _ ∧ _ ∧ 8 = u.bitsRemaining.toNat := by simpa using hnext
    rw [if_pos hzero, ← hbits]
  · rw [fetchFlags, if_neg hzero] at hflags
    obtain ⟨-, -, hbits⟩ : _ ∧ _ ∧ s.bitsRemaining.toNat = u.bitsRemaining.toNat := by simpa using hflags
    rw [if_neg hzero, hbits]

theorem Fetched.select_control_iff (h : Fetched s u) (hphase : s.phase = .run) :
    select s = .item .control ↔ s.bitsRemaining.toNat = 0 := by
  have hroom : s.outLen ≠ s.declaredSize := by
    intro hfull
    have hlt := h.ready.room
    rw [h.regs] at hlt
    exact absurd (congrArg BitVec.toNat hfull) hlt.ne
  rw [select_eq_control, BitVec.toNat_eq]
  simp [hphase, hroom]

/-- A step of a run that is still in RUN at its end is an iteration that completes: DONE and ERROR are never left. -/
theorem iteration_of_run {k : Nat} (hinv : Inv s) (hphase : s.phase = .run)
    (hrun : Sys2Proof.core.run (k + 1) s = .next t) (ht : t.phase = .run) :
    ∃ s' u pos out, step s = .next s' ∧ Fetched s u ∧ OpDone u s' pos out ∧ Sys2Proof.core.run k s' = .next t := by
  cases hstep : step s with
  | fault f =>
    rw [core_run_fault hstep] at hrun
    cases hrun
  | refused r =>
    rw [core_run_refused hstep] at hrun
    cases hrun
  | next s' =>
    rw [core_run_next hstep] at hrun
    have hnotEnded (hended : s'.phase = .done ∨ s'.phase = .error) : False := by
      rw [run_stable hended] at hrun
      cases hrun
      simp [ht] at hended
    obtain herror | ⟨hdone, -⟩ | ⟨u, pos, out, hfetched, hdone⟩ := run_step_cases hinv hphase hstep
    · exact absurd (.inr herror) hnotEnded
    · exact absurd (.inl hdone) hnotEnded
    · exact ⟨s', u, pos, out, rfl, hfetched, hdone, hrun⟩

/-- With `b` flag bits left, the first `b` iterations read no control byte, and then one is read for every eight. -/
theorem controlReads_of_run {k : Nat} (hinv : Inv s) (hphase : s.phase = .run)
    (hrun : Sys2Proof.core.run k s = .next t) (ht : t.phase = .run) :
    controlReads k s = (k - s.bitsRemaining.toNat + 7) / 8 := by
  induction k generalizing s with
  | zero => simp [controlReads]
  | succ k ih =>
    obtain ⟨s', u, pos, out, hstep, hfetched, hdone, hrest⟩ := iteration_of_run hinv hphase hrun ht
    obtain ⟨hphase', -⟩ := hfetched.kept_done hdone
    have hrec := ih (hfetched.inv_done hinv hphase hdone) (hphase'.trans hphase) hrest
    simp only [controlReads, hstep, hfetched.select_control_iff hphase, hrec, hfetched.bits_done hdone]
    split <;> omega

/-! ### Termination -/

theorem exists_step_of_run (hinv : Inv s) (hphase : s.phase = .run) (hoverlap : s.cfg.inOutOverlap = false) :
    ∃ t, step s = .next t := by
  have hends := stepEnds hinv
  generalize step s = o at hends ⊢
  cases hends with
  | overlap _ h => cases hoverlap.symm.trans h
  | tooLarge hheader => cases hphase.symm.trans hheader
  | rests | foreignTag | cutHeader | accepted | finished | controlMissing | completed | failed => exact ⟨_, rfl⟩

theorem run_ends {n : Nat} (hinv : Inv s) (hphase : s.phase = .run) (hoverlap : s.cfg.inOutOverlap = false)
    (hn : s.declaredSize.toNat ≤ s.outLen.toNat + n) :
    ∃ t, Sys2Proof.core.run (n + 1) s = .next t ∧ (t.phase = .done ∨ t.phase = .error) := by
  induction n generalizing s with
  | zero =>
    have hfull : s.outLen = s.declaredSize := BitVec.eq_of_toNat_eq (Nat.le_antisymm hinv.outLenLe hn)
    have hstep := step_of_select_finish ((select_eq_finish s).mpr ⟨hphase, hfull⟩) hoverlap
    exact ⟨_, core_run_next hstep, .inl rfl⟩
  | succ n ih =>
    obtain ⟨s', hstep⟩ := exists_step_of_run hinv hphase hoverlap
    rw [core_run_next hstep]
    obtain herror | ⟨hdone, -⟩ | ⟨u, pos, out, hfetched, hdone⟩ := run_step_cases hinv hphase hstep
    · exact ⟨s', run_stable (.inr herror) _, .inr herror⟩
    · exact ⟨s', run_stable (.inl hdone) _, .inl hdone⟩
    · obtain ⟨hphase', -, hsize, -, hcfg, hgrows⟩ := hfetched.kept_done hdone
      exact ih (hfetched.inv_done hinv hphase hdone) (hphase'.trans hphase) (by rw [hcfg, hoverlap])
        (by rw [hsize]; omega)

end Run

/-- Settles O46: the count for a run that starts with no flag bit left. -/
theorem controlByteCount : Obligations.ControlByteCount := by
  unfold Obligations.ControlByteCount
  intro k s t hinv hphase hbits hrun ht
  have hreads := controlReads_of_run hinv hphase hrun ht
  rwa [hbits] at hreads

/-- Settles O47: every iteration brings the end nearer, and DONE and ERROR are kept. -/
theorem decodeTerminates : Obligations.DecodeTerminates := by
  unfold Obligations.DecodeTerminates
  intro s hinv hphase hoverlap
  exact run_ends hinv hphase hoverlap (by omega)

end Sys2Proof.Proofs
end

section
/-! PROOF. The step from any state, met the invariant or not: the selection (30_encoding.md R88), the item it runs
(41_control_bit_iterator.md R137), HDR (40_header.md R110 to R117), and what each item leaves unchanged. -/

namespace Sys2Proof.Proofs

open Sys2Proof Sys2Proof.Machine Sys2Proof.Safety Sys2Proof.Laws

section Selection

variable {s t : State} {c : Context} {i : Instr} {more : List Byte}

/-! ### The rows of the opcode map -/

/-- Rows 4 to 6 of R88. -/
theorem selectOp_of_bits (hlow : 1 ≤ s.bitsRemaining.toNat) (hhigh : s.bitsRemaining.toNat ≤ 8) :
    selectOp s =
      if s.controlByte.getLsbD (s.bitsRemaining.toNat - 1) then .item .literal else .item .backRef := by
  rw [selectOp, flagBit_some hlow hhigh]
  cases s.controlByte.getLsbD (s.bitsRemaining.toNat - 1) <;> rfl

theorem select_of_bits_left (hphase : s.phase = .run) (hroom : s.outLen ≠ s.declaredSize)
    (hbits : s.bitsRemaining ≠ 0#4) : select s = selectOp s := by
  simp [select, hphase, hroom, hbits]

/-- R88 rows 5 and 6, by the mask. -/
theorem decode_backRef_eq (b0 b1 b2 : Byte) (more : List Byte) : decode .backRef (b0 :: b1 :: b2 :: more) =
    if b0 &&& 0xF0#8 = 0#8 then .ok (.brefLong (distanceField b0 b1) b2, more)
    else .ok (.brefShort (highNibble b0) (distanceField b0 b1), b2 :: more) := by
  split
  · next hmask => exact decode_backRef_long ((and_F0_eq_zero b0).mp hmask) more
  · next hmask => exact decode_backRef_short (mt (and_F0_eq_zero b0).mpr hmask) (b2 :: more)

/-! ### The item that runs -/

theorem step_of_select_item (hsel : select s = .item c) (hoverlap : s.cfg.inOutOverlap = false) :
    step s = runItem c s := by
  rw [step_eq, hsel]
  simp [hoverlap]

theorem step_of_decode (hsel : select s = .item c) (hoverlap : s.cfg.inOutOverlap = false) (hc : c ≠ .control)
    (hdecode : decode c (rest s) = .ok (i, more)) : step s = exec i s := by
  rw [step_of_select_item hsel hoverlap, runItem_of_ne_control s hc, execFetched_of_decode hdecode]

/-- R137: CTRL with its byte there, then the operation in the same step. -/
theorem step_of_control {b : Byte} (hsel : select s = .item .control) (hoverlap : s.cfg.inOutOverlap = false)
    (hrest : rest s = b :: more) : step s = runOp (afterControl b s) := by
  obtain ⟨hphase, -, -⟩ := (select_eq_control s).mp hsel
  have hgoes : ¬ (afterControl b s).phase = .error := by
    change ¬ s.phase = .error
    simp [hphase]
  rw [step_of_select_item hsel hoverlap, runItem, execFetched_control hrest]
  exact if_neg hgoes

theorem runOp_of_decode (hsel : selectOp t = .item c) (hdecode : decode c (rest t) = .ok (i, more)) :
    runOp t = exec i t := by
  rw [runOp, hsel]
  exact execFetched_of_decode hdecode

theorem exists_rest_cons (havail : 1 ≤ s.avail) : ∃ b tl, rest s = b :: tl :=
  List.exists_cons_of_length_pos (by rwa [rest_length])

end Selection

/-- Settles O17: the rows in their order; the decoder's test is the mask of rows 5 and 6. -/
theorem selectionFollowsTable : Obligations.SelectionFollowsTable := by
  unfold Obligations.SelectionFollowsTable
  intro s
  refine ⟨select_of_header, fun hphase hfull => (select_eq_finish s).mpr ⟨hphase, hfull⟩,
    fun hphase hroom hbits => (select_eq_control s).mpr ⟨hphase, hroom, hbits⟩, fun hphase hroom hlow hhigh => ?_,
    select_of_resting, decode_backRef_eq⟩
  have hbits : s.bitsRemaining ≠ 0#4 := by
    rintro hzero
    simp [hzero] at hlow
  rw [select_of_bits_left hphase hroom hbits, selectOp_of_bits hlow hhigh]

/-- Settles O18: the fetch runs what the bytes decode to, once for CTRL and once for the operation after it. -/
theorem stepRunsDecodedInstruction : Obligations.StepRunsDecodedInstruction := by
  unfold Obligations.StepRunsDecodedInstruction
  intro s c i more hoverlap hsel hdecode
  refine ⟨fun hc => step_of_decode hsel hoverlap hc hdecode, ?_⟩
  rintro rfl
  obtain ⟨-, hcontext, hbytes⟩ := encodes_of_decode hdecode
  cases i with
  | hdr | lit | brefLong | brefShort | endDecode => cases hcontext
  | ctrl b =>
    have havail : 1 ≤ s.avail := by simp [← rest_length, hbytes, encode]
    refine ⟨afterControl b s, execCtrl_of_avail b havail, fun c' j more' hop hdecode' => ?_⟩
    rw [step_of_control hsel hoverlap hbytes, runOp_of_decode hop hdecode']

/-- Settles O20: the state after the CTRL is the same, whatever the control byte was before. -/
theorem staleControlByteNeverRead : Obligations.StaleControlByteNeverRead := by
  unfold Obligations.StaleControlByteNeverRead
  intro s c hphase hroom hbits havail
  have hsel : select s = .item .control := (select_eq_control s).mpr ⟨hphase, hroom, hbits⟩
  have hsel' : select { s with controlByte := c } = .item .control := (select_eq_control _).mpr ⟨hphase, hroom, hbits⟩
  obtain ⟨b, tl, hrest⟩ := exists_rest_cons havail
  cases hoverlap : s.cfg.inOutOverlap with
  | true => simp [step_eq, hsel, hsel', hoverlap]
  | false => exact (step_of_control hsel' hoverlap hrest).trans (step_of_control hsel hoverlap hrest).symm

/-! ### HDR -/

section Header

variable {s : State} {m : Tag} {n : BitVec 32} {r : BitVec 64}

theorem avail_advance_of_le {m n : Nat} (h : m + n ≤ s.avail) : n ≤ (advance m s).avail := by
  have hle : (advance m s).inPos.toNat ≤ s.inPos.toNat + m := by
    rw [advance, setInPos_inPos, BitVec.toNat_add, BitVec.toNat_ofNat]
    exact (Nat.mod_le _ _).trans (Nat.add_le_add_left (Nat.mod_le _ _) _)
  unfold State.avail at h ⊢
  change n ≤ s.inp.length - _
  omega

/-- R110, R115, with no bound on the cursor: where it wraps, it wraps in every read alike. -/
theorem execHdr_of_avail (r : BitVec 64) (havail : 16 ≤ s.avail) (hm : m ∈ s.cfg.magicSet) (hn : n ≤ s.cfg.maxOut) :
    execHdr m n r s = .next (afterHeader n s) := by
  have htag : takeBytes 4 s = .ok (advance 4 s) := takeBytes_ok (by omega)
  have hsize : takeBytes 4 (advance 4 s) = .ok (advance 8 s) :=
    (takeBytes_ok (avail_advance_of_le (by omega))).trans (congrArg Res.ok (advance_advance 4 4 s))
  have hreserved : takeBytes 8 ((advance 8 s).setDeclaredSize n) = .ok ((advance 16 s).setDeclaredSize n) := by
    have havail8 : 8 ≤ ((advance 8 s).setDeclaredSize n).avail := avail_advance_of_le (s := s) (by omega)
    rw [takeBytes_ok havail8, ← advance_advance 8 8 s]
    rfl
  have hmagic : checkMagic m (advance 4 s) = .ok (advance 4 s) := if_pos hm
  have hcapacity : checkCapacity ((advance 16 s).setDeclaredSize n) = .ok ((advance 16 s).setDeclaredSize n) :=
    if_neg (BitVec.not_lt.mpr hn)
  rw [execHdr, htag, andThen_ok, hmagic, andThen_ok, hsize, andThen_ok, hreserved, andThen_ok, hcapacity, andThen_ok,
    outcome_ok, afterHeader]

/-- R113: with the size bytes there, HDR runs with the big-endian size. -/
theorem step_with_size {s0 s1 s2 s3 : Byte} {reserved : List Byte} (hphase : s.phase = .header)
    (hoverlap : s.cfg.inOutOverlap = false) (hpos : s.inPos = 0#64)
    (hinp : s.inp = m.c0 :: m.c1 :: m.c2 :: m.c3 :: s0 :: s1 :: s2 :: s3 :: reserved) :
    ∃ r, step s = execHdr m (be32 s0 s1 s2 s3) r s := by
  have hrest : rest s = m.c0 :: m.c1 :: m.c2 :: m.c3 :: s0 :: s1 :: s2 :: s3 :: reserved := by
    rw [rest_of_inPos_eq_zero hpos, hinp]
  obtain ⟨n, r, hfetch, hsize⟩ := execFetched_header hrest
  exact ⟨r, by rw [step_in_header hphase hoverlap, hfetch, hsize _ _ _ _ _ rfl]⟩

/-- R114: the size is written before the reserved bytes are read. -/
theorem execHdr_of_reserved_missing (hwrap : s.inPos.toNat + 16 < 2 ^ 64) (hm : m ∈ s.cfg.magicSet)
    (hsize : 8 ≤ s.avail) (hshort : s.avail < 16) :
    execHdr m n r s = .next (((atEnd s).setDeclaredSize n).errorEntry .truncatedInput) := by
  rw [execHdr_eq m n r s hwrap, if_neg (by omega), if_neg (not_not_intro hm), if_neg (by omega), if_pos hshort]

theorem execHdr_of_size_missing (hwrap : s.inPos.toNat + 16 < 2 ^ 64) (hm : m ∈ s.cfg.magicSet)
    (hshort : s.avail < 8) : execHdr m n r s = .next ((atEnd s).errorEntry .truncatedInput) := by
  rw [execHdr_eq m n r s hwrap, if_neg (not_not_intro hm), if_pos hshort]
  exact ite_self _

theorem execHdr_too_large (hwrap : s.inPos.toNat + 16 < 2 ^ 64) (hm : m ∈ s.cfg.magicSet) (havail : 16 ≤ s.avail)
    (hn : s.cfg.maxOut < n) : execHdr m n r s = .refused .outputTooLarge := by
  rw [execHdr_eq m n r s hwrap, if_neg (by omega), if_neg (not_not_intro hm), if_neg (by omega), if_neg (by omega),
    if_pos hn]

end Header

/-- Settles O21: the three reads find their bytes, and both checks pass. -/
theorem hdrCompletes : Obligations.HdrCompletes := by
  unfold Obligations.HdrCompletes
  intro m n r s havail hm hn
  exact execHdr_of_avail r havail hm hn

/-- Settles O22: the branches of HDR in their order, by the bytes that IN holds from offset 0. -/
theorem headerStep : Obligations.HeaderStep := by
  unfold Obligations.HeaderStep
  intro s hphase hpos hoverlap
  have hwrap : s.inPos.toNat + 16 < 2 ^ 64 := by simp [hpos]
  refine ⟨step_without_tag hphase hoverlap hpos, fun m0 m1 m2 m3 tl hinp => ⟨fun hm => ?_, fun hm => ⟨fun htl => ?_, ?_⟩⟩⟩
  · have hforeign := step_foreign_tag (m := ⟨m0, m1, m2, m3⟩) hphase hoverlap hpos hinp hm
    rw [hforeign, advance, hpos]
    rfl
  · obtain ⟨n, r, hstep⟩ := step_with_tag (m := ⟨m0, m1, m2, m3⟩) hphase hoverlap hpos hinp
    have hshort : s.avail < 8 := by
      rw [avail_of_inPos_eq_zero hpos, hinp]
      simp only [List.length_cons]
      omega
    exact hstep.trans (execHdr_of_size_missing hwrap hm hshort)
  · rintro s0 s1 s2 s3 reserved rfl
    obtain ⟨r, hstep⟩ := step_with_size (m := ⟨m0, m1, m2, m3⟩) hphase hoverlap hpos hinp
    have havail : s.avail = reserved.length + 8 := by simp [avail_of_inPos_eq_zero hpos, hinp]
    rw [hstep]
    refine ⟨be32 s0 s1 s2 s3, be32_toNat s0 s1 s2 s3, fun hshort => ?_, fun hlong hn => ?_, fun hlong hn => ?_⟩
    · exact execHdr_of_reserved_missing hwrap hm (by omega) (by omega)
    · exact execHdr_too_large hwrap hm (by omega) hn
    · rw [execHdr_completes hwrap (by omega) hm hn, afterHeader, advance, hpos]
      rfl

end Sys2Proof.Proofs
end

section
/-! PROOF. What each item leaves unchanged, from any state (20_memory.md section 1, 43_back_reference.md R166, R170), and what
follows for a whole step: IN is fixed (20_memory.md R63), and a step is refused for two reasons alone (00_scope.md R11). -/

namespace Sys2Proof.Proofs

open Sys2Proof Sys2Proof.Machine Sys2Proof.Safety Sys2Proof.Laws

section Frames

variable {s t u : State}

/-! ### HDR, CTRL and END store nothing -/

theorem execHdr_frame {m : Tag} {n : BitVec 32} {r : BitVec 64} (h : execHdr m n r s = .next t) :
    NoStore s t ∧ t.controlByte = s.controlByte ∧ t.bitsRemaining = s.bitsRemaining ∧
      (t.declaredSize = n ∨ t.declaredSize = s.declaredSize) ∧
      ((t.phase = .run ∧ t.err = s.err) ∨ (t.phase = .error ∧ t.err.isSome = true)) := by
  obtain ⟨size, hsize, rfl⟩ | ⟨-, rfl⟩ | ⟨-, -, rfl⟩ := execHdr_next h
  · exact ⟨⟨rfl, rfl, rfl, rfl, fun _ => rfl⟩, rfl, rfl, hsize, .inr ⟨rfl, rfl⟩⟩
  · exact ⟨⟨rfl, rfl, rfl, rfl, fun _ => rfl⟩, rfl, rfl, .inr rfl, .inr ⟨rfl, rfl⟩⟩
  · exact ⟨⟨rfl, rfl, rfl, rfl, fun _ => rfl⟩, rfl, rfl, .inl rfl, .inl ⟨rfl, rfl⟩⟩

theorem execCtrl_frame {c : Byte} (h : execCtrl c s = .next t) :
    NoStore s t ∧ t.declaredSize = s.declaredSize ∧
      ((t.phase = s.phase ∧ t.err = s.err) ∨
        (t.phase = .error ∧ t.err.isSome = true ∧ t.controlByte = s.controlByte ∧
          t.bitsRemaining = s.bitsRemaining)) := by
  rw [execCtrl_eq] at h
  split at h
  · cases h
    exact ⟨⟨rfl, rfl, rfl, rfl, fun _ => rfl⟩, rfl, .inr ⟨rfl, rfl, rfl, rfl⟩⟩
  · cases h
    exact ⟨⟨rfl, rfl, rfl, rfl, fun _ => rfl⟩, rfl, .inl ⟨rfl, rfl⟩⟩

/-! ### LIT and the back-references store from out_len on -/

theorem opFrame_of_error (n : Nat) (k : ErrorKind) (p : BitVec 64) (s : State) :
    OpFrame n s ((s.setInPos p).errorEntry k) :=
  ⟨rfl, rfl, rfl, rfl, rfl, .inr ⟨rfl, rfl, rfl, rfl, fun _ => rfl⟩⟩

theorem execLit_frame {v : Byte} (h : execLit v s = .next t) : OpFrame 1 s t := by
  obtain rfl | ⟨hroom, -, rfl⟩ := execLit_next h
  · exact opFrame_of_error 1 .truncatedInput _ s
  · have hlen : ((advance 1 s).append v).outLen.toNat = s.outLen.toNat + 1 :=
      append_outLen_toNat (s := advance 1 s) hroom
    exact ⟨rfl, rfl, rfl, rfl, rfl, .inl ⟨rfl, rfl, rfl, hlen, fun a ha => read_afterLit_of_ne (by omega)⟩⟩

theorem backReference_frame {d : BitVec 12} {x len : Nat} (h : (backReference d x len s).outcome = .next t) :
    OpFrame (copyCount len s) s t := by
  obtain rfl | ⟨-, rfl⟩ | ⟨u, -, hcopy, -, rfl⟩ := backReference_next h
  · exact opFrame_of_error _ .truncatedInput _ s
  · exact opFrame_of_error _ .invalidBackReference _ s
  · obtain ⟨hregs, hlen, -, hkept⟩ := copyBytes_ok hcopy
    rw [hregs]
    exact ⟨rfl, rfl, rfl, rfl, rfl, .inl ⟨rfl, rfl, rfl, hlen, hkept⟩⟩

/-- R63: no item changes IN. -/
theorem exec_inp {i : Instr} (h : exec i s = .next t) : t.inp = s.inp := by
  cases i with
  | hdr m n r =>
    obtain ⟨⟨-, hinp, -⟩, -⟩ := execHdr_frame (r := r) h
    exact hinp
  | ctrl =>
    obtain ⟨⟨-, hinp, -⟩, -⟩ := execCtrl_frame h
    exact hinp
  | lit =>
    obtain ⟨-, -, hinp, -⟩ := execLit_frame h
    exact hinp
  | brefLong | brefShort =>
    obtain ⟨-, -, hinp, -⟩ := backReference_frame h
    exact hinp
  | endDecode =>
    cases h
    rfl

/-! ### The copy engine in closed form (R170) -/

theorem copyBytes_closed_form {n a : Nat} (hdense : OutDense s) (ha : a < s.outLen.toNat)
    (hn : n ≤ s.declaredSize.toNat - s.outLen.toNat) :
    ∃ t, copyBytes n a s = .ok t ∧ OutDense t ∧ t.outLen.toNat = s.outLen.toNat + n ∧
      (∀ b < s.outLen.toNat, Memory.read t.out b = Memory.read s.out b) ∧
      ∀ i < n, Memory.read t.out (s.outLen.toNat + i) = Memory.read s.out (a + i % (s.outLen.toNat - a)) := by
  obtain ⟨t, hcopy, htdense, hbytes⟩ := copyBytes_dense hdense ha hn
  obtain ⟨-, hlen, -, hkept⟩ := copyBytes_ok hcopy
  have hlength := outBytes_length hdense
  obtain ⟨-, -, hcopied⟩ := refCopy_spec (n := n) (src := a) (out := s.outBytes) (by omega)
  rw [hlength, ← hbytes] at hcopied
  refine ⟨t, hcopy, htdense, hlen, fun b hb => hkept b (.inl hb), fun i hi => ?_⟩
  rw [read_outBytes htdense, read_outBytes hdense, hcopied i hi]

/-- A copy reads a byte of its own exactly when it is longer than its backward offset. -/
theorem reads_own_byte_iff {n a len : Nat} : (∃ i < n, len ≤ a + i) ↔ len - a < n := by
  constructor
  · rintro ⟨i, hi, hle⟩
    omega
  · intro hlt
    exact ⟨len - a, hlt, by omega⟩

end Frames

/-- Settles O33: the ends of HDR and CTRL, and the one write of END. -/
theorem nonStoringFrame : Obligations.NonStoringFrame := by
  unfold Obligations.NonStoringFrame
  refine ⟨fun m n r s t h => execHdr_frame (r := r) h, fun c s t h => execCtrl_frame h, fun s t h => ?_⟩
  cases h
  exact ⟨⟨rfl, rfl, rfl, rfl, fun _ => rfl⟩, rfl, rfl, rfl, rfl, rfl⟩

/-- Settles O34: the two forms of the back-reference share one frame. -/
theorem storingFrame : Obligations.StoringFrame := by
  unfold Obligations.StoringFrame
  exact ⟨fun v s t h => execLit_frame h, fun n d s t h => backReference_frame (len := shortCopyLength n) h,
    fun d e s t h => backReference_frame (len := longCopyLength e) h⟩

/-- Settles O30: the copy engine against the reference copy, whose closed form is known. -/
theorem copyEngineClosedForm : Obligations.CopyEngineClosedForm := by
  unfold Obligations.CopyEngineClosedForm
  intro n a s hdense ha hn
  exact ⟨copyBytes_closed_form hdense ha hn, reads_own_byte_iff⟩

/-! ### Which items a step runs -/

/-- What a step from any state comes to: nothing, a stop before any item, one item, or CTRL and its first operation. -/
inductive StepRuns (s : State) : Host.Outcome State Fault Refusal → Prop where
  | nothing : StepRuns s (.next s)
  | noFlagBit : StepRuns s (.fault .bitCountOutOfRange)
  | overlap (hoverlap : s.cfg.inOutOverlap = true) : StepRuns s (.refused .inOutOverlap)
  | item {i : Instr} (hsel : select s = .item i.context) : StepRuns s (exec i s)
  | controlMissing : StepRuns s (.next ((atEnd s).errorEntry .truncatedInput))
  | operation {b : Byte} {i : Instr} (hop : isPayloadOp i = true) : StepRuns s (exec i (afterControl b s))

section Runs

variable {s t : State}

/-- Rows 4 to 6 of R88: what a flag bit governs is a payload operation. -/
theorem exists_payloadOp_of_runOp (hlow : 1 ≤ s.bitsRemaining.toNat) (hhigh : s.bitsRemaining.toNat ≤ 8) :
    ∃ i, isPayloadOp i = true ∧ runOp s = exec i s := by
  rw [runOp_eq hlow hhigh]
  split
  · obtain ⟨v, hfetch⟩ := execFetched_literal_eq s
    exact ⟨.lit v, rfl, hfetch⟩
  · obtain ⟨i, hcontext, -, hfetch⟩ := execFetched_exec .backRef s
    refine ⟨i, ?_, hfetch⟩
    cases i with
    | brefLong | brefShort => rfl
    | hdr | ctrl | lit | endDecode => cases hcontext

theorem runItem_control_runs (hphase : s.phase = .run) : StepRuns s (runItem .control s) := by
  obtain ⟨c, hfetch⟩ := execFetched_control_eq s
  rw [runItem, hfetch]
  by_cases havail : s.avail = 0
  · rw [execCtrl_of_no_avail c havail]
    exact .controlMissing
  · have hgoes : (afterControl c s).phase ≠ .error := by
      change s.phase ≠ .error
      simp [hphase]
    have hbits : (afterControl c s).bitsRemaining.toNat = 8 := rfl
    obtain ⟨i, hop, hrun⟩ := exists_payloadOp_of_runOp (s := afterControl c s) (by omega) (by omega)
    rw [execCtrl_of_avail c (Nat.pos_of_ne_zero havail), continueIteration, if_neg hgoes, hrun]
    exact .operation hop

theorem stepRuns (s : State) : StepRuns s (step s) := by
  rw [step_eq]
  cases hsel : select s with
  | nothing => exact .nothing
  | noFlagBit => exact .noFlagBit
  | item c =>
    simp only []
    split
    · next hoverlap => exact .overlap hoverlap
    · by_cases hc : c = .control
      · rw [hc] at hsel ⊢
        obtain ⟨hphase, -, -⟩ := (select_eq_control s).mp hsel
        exact runItem_control_runs hphase
      · obtain ⟨i, hcontext, -, hfetch⟩ := execFetched_exec c s
        rw [runItem_of_ne_control s hc, hfetch]
        exact .item (by rw [hsel, hcontext])

theorem step_inp (h : step s = .next t) : t.inp = s.inp := by
  have hruns := stepRuns s
  generalize step s = o at h hruns
  cases hruns with
  | nothing =>
    cases h
    rfl
  | noFlagBit | overlap => cases h
  | controlMissing =>
    cases h
    rfl
  | item => exact exec_inp h
  | operation => exact (exec_inp h).trans rfl

/-! ### Which items refuse -/

/-- The result is refused for a reason in `P` if at all. -/
def RefusesOnly (P : Refusal → Prop) (r : Res) : Prop := ∀ e, r = .refused e → P e

variable {P : Refusal → Prop} {r : Res}

theorem RefusesOnly.andThen {f : State → Res} (hr : RefusesOnly P r) (hf : ∀ s, RefusesOnly P (f s)) :
    RefusesOnly P (r.andThen f) := by
  intro e he
  cases r with
  | ok s => exact hf s e he
  | raised | fault => cases he
  | refused e' =>
    cases he
    exact hr e rfl

theorem RefusesOnly.outcome {e : Refusal} (hr : RefusesOnly P r) (he : r.outcome = .refused e) : P e := by
  cases r with
  | ok | raised | fault => cases he
  | refused e' =>
    cases he
    exact hr e rfl

theorem takeBytes_refusesOnly (n : Nat) (s : State) : RefusesOnly P (takeBytes n s) := by
  intro e he
  obtain h | h := takeBytes_cases n s <;> cases h.symm.trans he

theorem takeByte_refusesOnly (s : State) : RefusesOnly P (takeByte s) := by
  unfold takeByte
  split <;> exact nofun

theorem outAppend_refusesOnly (v : Byte) (s : State) : RefusesOnly P (outAppend v s) := by
  unfold outAppend
  split <;> exact nofun

theorem completeOp_refusesOnly (s : State) : RefusesOnly P (completeOp s) := by
  unfold completeOp
  split <;> exact nofun

theorem copyBytes_refusesOnly (n a : Nat) (s : State) : RefusesOnly P (copyBytes n a s) := by
  intro e he
  obtain ⟨t, h⟩ | ⟨f, h⟩ := copyBytes_not_raised n a s <;> cases h.symm.trans he

theorem checkMagic_refusesOnly (m : Tag) (s : State) : RefusesOnly P (checkMagic m s) := by
  unfold checkMagic
  split <;> exact nofun

theorem checkCapacity_refusesOnly (s : State) : RefusesOnly (· = .outputTooLarge) (checkCapacity s) := by
  intro e he
  unfold checkCapacity at he
  split at he
  · exact (Res.refused.inj he).symm
  · cases he

theorem backReference_refusesOnly (d : BitVec 12) (x len : Nat) (s : State) :
    RefusesOnly P (backReference d x len s) := by
  refine (takeBytes_refusesOnly 2 s).andThen fun s1 => ?_
  split
  · exact nofun
  · exact (takeBytes_refusesOnly x s1).andThen fun s2 =>
      (copyBytes_refusesOnly _ _ s2).andThen completeOp_refusesOnly

theorem payloadOp_never_refused {i : Instr} {e : Refusal} (hop : isPayloadOp i = true) : exec i s ≠ .refused e := by
  intro he
  cases i with
  | hdr | ctrl | endDecode => cases hop
  | lit v =>
    have hlit : RefusesOnly (fun _ => False) ((takeByte s).andThen fun s1 => (outAppend v s1).andThen completeOp) :=
      (takeByte_refusesOnly s).andThen fun s1 => (outAppend_refusesOnly v s1).andThen completeOp_refusesOnly
    exact hlit.outcome he
  | brefLong d b => exact (backReference_refusesOnly (P := fun _ => False) d 1 (longCopyLength b) s).outcome he
  | brefShort n d => exact (backReference_refusesOnly (P := fun _ => False) d 0 (shortCopyLength n) s).outcome he

theorem execHdr_refused {m : Tag} {n : BitVec 32} {r : BitVec 64} {e : Refusal} (he : execHdr m n r s = .refused e) :
    e = .outputTooLarge := by
  refine RefusesOnly.outcome (P := (· = .outputTooLarge)) ?_ he
  exact (takeBytes_refusesOnly 4 s).andThen fun s1 => (checkMagic_refusesOnly m s1).andThen fun s2 =>
    (takeBytes_refusesOnly 4 s2).andThen fun s3 => (takeBytes_refusesOnly 8 _).andThen fun s4 =>
      (checkCapacity_refusesOnly s4).andThen fun s5 => nofun

/-- R11, R117: HDR alone refuses. -/
theorem exec_refused {i : Instr} {e : Refusal} (he : exec i s = .refused e) :
    i.context = .header ∧ e = .outputTooLarge := by
  cases i with
  | hdr m n r => exact ⟨rfl, execHdr_refused (r := r) he⟩
  | ctrl c =>
    change execCtrl c s = _ at he
    rw [execCtrl_eq] at he
    split at he <;> cases he
  | lit | brefLong | brefShort => exact absurd he (payloadOp_never_refused rfl)
  | endDecode => cases he

theorem selectOp_ne_header (s : State) : selectOp s ≠ .item .header := by
  unfold selectOp
  split <;> simp

theorem phase_of_select_header (hsel : select s = .item .header) : s.phase = .header := by
  cases hphase : s.phase with
  | header => rfl
  | idle | done | error => simp [select, hphase] at hsel
  | run =>
    simp only [select, hphase] at hsel
    split at hsel
    · cases hsel
    · split at hsel
      · cases hsel
      · exact absurd hsel (selectOp_ne_header s)

end Runs

/-- Settles O39: a refusal is the platform's, or that of the one item that refuses. -/
theorem onlyTwoRefusals : Obligations.OnlyTwoRefusals := by
  unfold Obligations.OnlyTwoRefusals
  intro s e he
  have hruns := stepRuns s
  generalize step s = o at he hruns
  cases hruns with
  | nothing | noFlagBit | controlMissing => cases he
  | overlap hoverlap =>
    cases he
    exact .inl ⟨rfl, hoverlap⟩
  | item hsel =>
    obtain ⟨hcontext, htoo⟩ := exec_refused he
    rw [hcontext] at hsel
    exact .inr ⟨htoo, phase_of_select_header hsel⟩
  | operation hop => exact absurd he (payloadOp_never_refused hop)

/-- Settles O38: the platform is tested before the item runs, and no item writes IN. -/
theorem overlapRefusedAndInFixed : Obligations.OverlapRefusedAndInFixed := by
  unfold Obligations.OverlapRefusedAndInFixed
  exact ⟨fun s hinv hphase hoverlap => step_of_overlap hinv.bitsLe hphase hoverlap, fun s t hstep => step_inp hstep⟩

end Sys2Proof.Proofs
end

section
/-! PROOF. The host's moves between steps (20_memory.md R61, R66; 70_reset_and_hazards.md R240): what each may do in each
phase, and that each keeps the invariant. -/

namespace Sys2Proof.Proofs

open Sys2Proof Sys2Proof.Machine Sys2Proof.Safety Sys2Proof.Laws

section Host

variable {s t : State}

/-! ### Reading OUT -/

/-- R216: outside DONE the answer is a free value and depends on no byte of OUT. -/
theorem hostReadOut_of_not_done (a : BitVec 32) (hphase : s.phase ≠ .done) :
    hostReadOut a s = (Config.freeOutByte s.draws, { s with draws := s.draws + 1 }) := by
  unfold hostReadOut
  split
  · next hdone _ => exact absurd hdone hphase
  · rfl

theorem hostReadOut_state (a : BitVec 32) (s : State) :
    (hostReadOut a s).2 = s ∨ (hostReadOut a s).2 = { s with draws := s.draws + 1 } := by
  unfold hostReadOut
  split
  · exact .inl rfl
  · exact .inr rfl

/-! ### The invariant along the moves -/

theorem inv_resetEvent (hcfg : s.cfg.wf) : Inv s.resetEvent where
  outDense := rfl
  outLenLe := Nat.le_refl _
  errIff := by simp
  atStart _ := ⟨rfl, rfl, rfl, rfl, rfl, rfl⟩
  bitsLe := by simp
  bitsLt := by simp
  pastHeader := by simp
  inPosLe := by simp
  consumed := by simp
  inPosBound := by simp
  fits := by simp
  full := by simp
  cfgWf := hcfg

/-- The invariant ties IN and the configuration to the other registers in RUN alone. -/
theorem inv_of_host_change (hinv : Inv s) (hphase : s.phase ≠ .run) (bs : List Byte) {c : Config} (hcfg : c.wf) :
    Inv { s with inp := bs, cfg := c } :=
  { hinv with
    inPosLe := fun hrun => absurd hrun hphase
    fits := fun hrun => absurd hrun hphase
    cfgWf := hcfg }

/-- The invariant does not speak of the counter of free values. -/
theorem inv_of_draws (hinv : Inv s) (n : Nat) : Inv { s with draws := n } := { hinv with }

theorem phase_ne_run_of_not_busy (hbusy : ¬ s.busy = true) : s.phase ≠ .run :=
  fun hphase => hbusy ((busy_eq_true_iff s).mpr (.inr hphase))

theorem inv_writeReg (hinv : Inv s) (idx : BitVec 3) (v : BitVec 32) : Inv (writeReg idx v s) := by
  unfold writeReg
  split
  · exact inv_start hinv.cfgWf
  · exact hinv

theorem inv_presentInput {bs : List Byte} (hinv : Inv s) (h : presentInput bs s = .next t) : Inv t := by
  unfold presentInput at h
  split at h
  · cases h
  · next hbusy =>
    cases h
    exact inv_of_host_change hinv (phase_ne_run_of_not_busy hbusy) bs hinv.cfgWf

theorem inv_configure {tags : List Tag} {n : BitVec 32} (hinv : Inv s) (h : configure tags n s = .next t) : Inv t := by
  simp only [configure] at h
  split at h
  · cases h
  · next hbusy =>
    split at h
    · next hcfg =>
      cases h
      exact inv_of_host_change hinv (phase_ne_run_of_not_busy hbusy) s.inp hcfg
    · cases h

theorem inv_hostReadOut (hinv : Inv s) (a : BitVec 32) : Inv (hostReadOut a s).2 := by
  obtain h | h := hostReadOut_state a s
  · rw [h]
    exact hinv
  · rw [h]
    exact inv_of_draws hinv _

end Host

/-- Settles O42: one move after the other. -/
theorem hostMovesKeepInvariant : Obligations.HostMovesKeepInvariant := by
  unfold Obligations.HostMovesKeepInvariant
  intro m s t hinv hmove
  cases m with
  | resetPin =>
    cases hmove
    exact inv_resetEvent hinv.cfgWf
  | regWrite idx v =>
    cases hmove
    exact inv_writeReg hinv idx v
  | regRead =>
    cases hmove
    exact hinv
  | present => exact inv_presentInput hinv hmove
  | config => exact inv_configure hinv hmove
  | outRead a =>
    cases hmove
    exact inv_hostReadOut hinv a
  | outWrite => cases hmove

/-- Settles O40: the reset state is that of a reset event, and its tags are a set. -/
theorem resetMeetsInvariant : Obligations.ResetMeetsInvariant := inv_resetEvent (s := State.reset) (by decide)

/-- Settles O2: a reset leaves IDLE, which rests, and START writes every register that a reset writes. -/
theorem resetAbandonsDecode : Obligations.ResetAbandonsDecode := by
  unfold Obligations.ResetAbandonsDecode
  intro s
  exact ⟨rfl, resetEvent_err s, step_of_resting (.inl (resetEvent_phase s)), rfl⟩

/-- Settles O6: nothing is selected in the three phases. -/
theorem idlePhasesRetainState : Obligations.IdlePhasesRetainState := by
  unfold Obligations.IdlePhasesRetainState
  intro s hphase
  exact step_of_resting hphase

/-- Settles O7: the block is BUSY in both phases. -/
theorem hostCannotDisturbDecode : Obligations.HostCannotDisturbDecode := by
  unfold Obligations.HostCannotDisturbDecode
  intro s hphase
  have hbusy : s.busy = true := (busy_eq_true_iff s).mpr hphase
  refine ⟨fun bs => if_pos hbusy, fun tags n => if_pos hbusy, fun a v => rfl, fun idx v => ?_, fun idx => rfl⟩
  have hwrite : writeReg idx v s = s := by
    by_cases hidx : idx = 0#3
    · rw [hidx]
      exact writeReg_ctrl_of_busy hbusy
    · exact writeReg_of_ne_ctrl s v hidx
  exact congrArg Host.Outcome.next hwrite

/-- Settles O9: in ERROR a read of OUT answers a free value, and no register shows OUT. -/
theorem errorOutputUnobservable : Obligations.ErrorOutputUnobservable := by
  unfold Obligations.ErrorOutputUnobservable
  intro s out hphase
  have hnotDone : s.phase ≠ .done := by simp [hphase]
  refine ⟨fun a => ?_, fun idx => readReg_congr idx rfl rfl rfl rfl rfl⟩
  rw [hostReadOut_of_not_done a hnotDone, hostReadOut_of_not_done a (s := { s with out := out }) hnotDone]

end Sys2Proof.Proofs
end

section
/-! PROOF. The payload that `.ops` assembles (30_encoding.md R84, R93) under the reference decode (44_reference_decoder.md
R200): by induction on the operations, with the flag bits left of their group. -/

namespace Sys2Proof.Proofs

open Sys2Proof Sys2Proof.Machine Sys2Proof.Laws

/-! ### Groups and their flags -/

/-- The payload bytes of the operations with `k` flag bits of their group left, so no control byte before the first `k`. -/
def payloadFrom (k groups : Nat) (ops : List Instr) : List Byte :=
  (ops.take k).flatMap encode ++ asmGroups groups (ops.drop k)

/-- The low `k` bits of the control byte are the flags of the next `k` operations. -/
def HoldsFlags (k : Nat) (ops : List Instr) (c : Byte) : Prop := ∀ b < k, c.getLsbD b = (flagsFrom k ops).getLsbD b

section Groups

variable {k groups : Nat} {op : Instr} {ops : List Instr} {c : Byte}

theorem payloadFrom_nil (k groups : Nat) : payloadFrom k groups [] = [] := by
  cases groups <;> simp [payloadFrom, asmGroups]

theorem payloadFrom_succ_cons (k groups : Nat) (op : Instr) (ops : List Instr) :
    payloadFrom (k + 1) groups (op :: ops) = encode op ++ payloadFrom k groups ops := by
  simp [payloadFrom]

/-- R84: a group is its control byte and then its operations. -/
theorem payloadFrom_zero_cons (groups : Nat) (op : Instr) (ops : List Instr) :
    payloadFrom 0 (groups + 1) (op :: ops) =
      controlFor ((op :: ops).take 8) :: payloadFrom 8 groups (op :: ops) := by
  simp [payloadFrom, asmGroups]

theorem asmOps_eq_payloadFrom (ops : List Instr) : asmOps ops = payloadFrom 0 ops.length ops := by
  simp [payloadFrom, asmOps]

theorem flagsFrom_take (k : Nat) (ops : List Instr) : flagsFrom k (ops.take k) = flagsFrom k ops := by
  induction k generalizing ops with
  | zero => rfl
  | succ k ih =>
    cases ops with
    | nil => rfl
    | cons op ops => simp only [List.take_succ_cons, flagsFrom, ih ops]

theorem holdsFlags_controlFor (ops : List Instr) : HoldsFlags 8 ops (controlFor (ops.take 8)) := by
  intro b _
  rw [controlFor, flagsFrom_take]

theorem HoldsFlags.top (h : HoldsFlags (k + 1) (op :: ops) c) (hk : k < 8) : c.getLsbD k = isLit op :=
  (h k (Nat.lt_succ_self k)).trans (flagsFrom_top hk op ops)

theorem HoldsFlags.tail (h : HoldsFlags (k + 1) (op :: ops) c) : HoldsFlags k ops c :=
  fun b hb => (h b (Nat.lt_succ_of_lt hb)).trans (flagsFrom_low hb op ops)

end Groups

/-! ### The loop -/

section Loop

variable {inp more out final : List Byte} {stop pos size fuel k groups : Nat} {cb c : Byte} {op : Instr} {ops : List Instr}

/-- From the cursor on, IN holds the payload of `ops` up to `stop` and then `more`; the loop holds their flags. -/
structure PayloadAt (inp more : List Byte) (stop pos : Nat) (cb : Byte) (k groups : Nat) (ops : List Instr) : Prop where
  flags : HoldsFlags k ops cb
  bits : k ≤ 8
  groups_le : ops.length ≤ k + groups
  bytes : inp.drop pos = payloadFrom k groups ops ++ more
  stop_eq : pos + (payloadFrom k groups ops).length = stop

/-- R132: where no flag bit is left, the next payload byte is the control byte of the next group. -/
theorem PayloadAt.fetch (h : PayloadAt inp more stop pos cb k groups (op :: ops)) :
    ∃ p c j g, fetchFlags inp pos cb k = some (p, c, j + 1) ∧ PayloadAt inp more stop p c (j + 1) g (op :: ops) := by
  obtain ⟨hflags, hbits, hgroups, hbytes, hstop⟩ := h
  cases k with
  | succ j => exact ⟨pos, cb, j, groups, rfl, hflags, hbits, hgroups, hbytes, hstop⟩
  | zero =>
    obtain ⟨g, rfl⟩ : ∃ g, groups = g + 1 := by
      simp only [List.length_cons] at hgroups
      exact ⟨groups - 1, by omega⟩
    rw [payloadFrom_zero_cons] at hbytes hstop
    have hcontrol : inp[pos]? = some (controlFor ((op :: ops).take 8)) := by
      rw [← Nat.add_zero pos, ← List.getElem?_drop, hbytes]
      rfl
    refine ⟨pos + 1, _, 7, g, ?_, holdsFlags_controlFor _, Nat.le_refl 8, by omega, ?_, ?_⟩
    · rw [fetchFlags, if_pos rfl, hcontrol]
      rfl
    · rw [← List.drop_drop, hbytes]
      rfl
    · change pos + 1 + (payloadFrom 8 g (op :: ops)).length = stop
      rw [← hstop, List.length_cons]
      omega

/-- The operation read and its flag bit used. -/
theorem PayloadAt.tail (h : PayloadAt inp more stop pos c (k + 1) groups (op :: ops)) :
    PayloadAt inp more stop (pos + (encode op).length) c k groups ops := by
  obtain ⟨hflags, hbits, hgroups, hbytes, hstop⟩ := h
  rw [payloadFrom_succ_cons] at hbytes hstop
  refine ⟨hflags.tail, by omega, by simp only [List.length_cons] at hgroups; omega, ?_, ?_⟩
  · rw [← List.drop_drop, hbytes, List.append_assoc, List.drop_left]
  · rw [← hstop, List.length_append, Nat.add_assoc]

/-- An operation of a list that expands does so itself, and the rest after it. -/
theorem expandOps_cons (h : expandOps out (op :: ops) = some final) :
    ∃ out', expandOp out op = some out' ∧ expandOps out' ops = some final := by
  simp only [expandOps] at h
  split at h
  · next out' hop => exact ⟨out', hop, h⟩
  · cases h

/-- Each operation brings at least one byte, so `fuel` iterations are enough. -/
theorem refLoop_payload (h : PayloadAt inp more stop pos cb k groups ops)
    (hops : ∀ op ∈ ops, isPayloadOp op = true ∧ op.wf = true) (hexpand : expandOps out ops = some final)
    (hfuel : final.length ≤ out.length + fuel) :
    refLoop inp final.length fuel pos out cb k = .ok final stop := by
  induction ops generalizing pos cb k groups out fuel with
  | nil =>
    cases hexpand
    have hstop := h.stop_eq
    rw [payloadFrom_nil, List.length_nil, Nat.add_zero] at hstop
    rw [refLoop_full rfl, hstop]
  | cons op ops ih =>
    obtain ⟨-, hgrows⟩ := expandOps_len hexpand
    have hlt : out.length < final.length := hgrows (List.cons_ne_nil op ops)
    obtain ⟨fuel, rfl⟩ : ∃ n, fuel = n + 1 := ⟨fuel - 1, by omega⟩
    obtain ⟨out', hop, hrest⟩ := expandOps_cons hexpand
    obtain ⟨hle, -⟩ := expandOps_len hrest
    have hlonger := expandOp_len hop
    obtain ⟨p, c, j, g, hfetch, hat⟩ := h.fetch
    obtain ⟨hpayload, hwf⟩ := hops op List.mem_cons_self
    have hbytes := hat.bytes
    rw [payloadFrom_succ_cons, List.append_assoc] at hbytes
    rw [refLoop_of_fetch_some hlt.ne hfetch, Nat.add_sub_cancel, hat.flags.top hat.bits,
      refOp_encode hpayload hwf hbytes hop hle, afterOp]
    exact ih hat.tail (fun op' hmem => hops op' (List.mem_cons_of_mem op hmem)) hrest (by omega)

end Loop

/-- Settles O52: after the header the loop stands at the payload, with no flag bit left. -/
theorem assembledPayloadDecodes : Obligations.AssembledPayloadDecodes := by
  unfold Obligations.AssembledPayloadDecodes
  intro tags maxOut m reserved ops out more hm hops hexpand hmax hsize
  have hlength : (BitVec.ofNat 32 out.length).toNat = out.length := by
    rw [BitVec.toNat_ofNat, Nat.mod_eq_of_lt hsize]
  have hat : PayloadAt (encode (.hdr m (BitVec.ofNat 32 out.length) reserved) ++ (asmOps ops ++ more)) more
      (16 + (asmOps ops).length) 16 0#8 0 ops.length ops := by
    refine ⟨nofun, Nat.zero_le 8, Nat.le_add_left _ 0, ?_, ?_⟩
    · rw [← asmOps_eq_payloadFrom, List.drop_left' (encode_hdr_length m _ reserved)]
    · rw [← asmOps_eq_payloadFrom]
  rw [List.append_assoc, refDecode_hdr tags maxOut m _ reserved _ hm (hlength.trans_le hmax), hlength]
  exact refLoop_payload hat hops hexpand (Nat.le_add_left _ _)

end Sys2Proof.Proofs
end

section
/-! PROOF. A decode depends on the container and the configuration alone (44_reference_decoder.md R202): START writes every
other register but the model's own counter of free values, and a step commutes with a change of that counter. -/

namespace Sys2Proof.Proofs

open Sys2Proof Sys2Proof.Machine Sys2Proof.Safety Sys2Proof.Laws

/-! ### A change of the counter -/

/-- The state with another count of free values drawn. -/
def withDraws (n : Nat) (s : State) : State := { s with draws := n }

/-- The change made in the state a result carries. -/
def resWithDraws (n : Nat) : Res → Res
  | .ok s => .ok (withDraws n s)
  | .raised k s => .raised k (withDraws n s)
  | .fault e => .fault e
  | .refused e => .refused e

/-- The change made in the next state, if there is one. -/
def outcomeWithDraws (n : Nat) : Host.Outcome State Fault Refusal → Host.Outcome State Fault Refusal
  | .next s => .next (withDraws n s)
  | .fault e => .fault e
  | .refused e => .refused e

/-- An operation that commutes with the change: it neither reads nor writes the counter. -/
def ResIgnoresDraws (f : State → Res) : Prop := ∀ n s, f (withDraws n s) = resWithDraws n (f s)

/-- The same of a function that answers an outcome. -/
def IgnoresDraws (f : State → Host.Outcome State Fault Refusal) : Prop :=
  ∀ n s, f (withDraws n s) = outcomeWithDraws n (f s)

section Draws

variable {f g : State → Res}

theorem ResIgnoresDraws.andThen (hf : ResIgnoresDraws f) (hg : ResIgnoresDraws g) :
    ResIgnoresDraws fun s => (f s).andThen g := by
  intro n s
  change (f (withDraws n s)).andThen g = resWithDraws n ((f s).andThen g)
  rw [hf n s]
  cases f s with
  | ok t => exact hg n t
  | raised | fault | refused => rfl

theorem ResIgnoresDraws.outcome (hf : ResIgnoresDraws f) : IgnoresDraws fun s => (f s).outcome := by
  intro n s
  change (f (withDraws n s)).outcome = outcomeWithDraws n (f s).outcome
  rw [hf n s]
  cases f s <;> rfl

/-! ### The shared operations -/

/-- A test that does not read the counter, and two branches that commute with the change. -/
theorem ite_ignoresDraws {p : State → Prop} [DecidablePred p] (hp : ∀ n s, p (withDraws n s) ↔ p s)
    (hf : ResIgnoresDraws f) (hg : ResIgnoresDraws g) : ResIgnoresDraws fun s => if p s then f s else g s := by
  intro n s
  by_cases h : p s
  · simp only [hp n s, h, if_true]
    exact hf n s
  · simp only [hp n s, h, if_false]
    exact hg n s

theorem takeByte_ignoresDraws : ResIgnoresDraws takeByte :=
  ite_ignoresDraws (fun _ _ => Iff.rfl) (fun _ _ => rfl) (fun _ _ => rfl)

theorem outAppend_ignoresDraws (v : Byte) : ResIgnoresDraws (outAppend v) :=
  ite_ignoresDraws (fun _ _ => Iff.rfl) (fun _ _ => rfl) (fun _ _ => rfl)

theorem completeOp_ignoresDraws : ResIgnoresDraws completeOp :=
  ite_ignoresDraws (fun _ _ => Iff.rfl) (fun _ _ => rfl) (fun _ _ => rfl)

theorem checkMagic_ignoresDraws (m : Tag) : ResIgnoresDraws (checkMagic m) :=
  ite_ignoresDraws (fun _ _ => Iff.rfl) (fun _ _ => rfl) (fun _ _ => rfl)

theorem checkCapacity_ignoresDraws : ResIgnoresDraws checkCapacity :=
  ite_ignoresDraws (fun _ _ => Iff.rfl) (fun _ _ => rfl) (fun _ _ => rfl)

theorem takeBytes_ignoresDraws (k : Nat) : ResIgnoresDraws (takeBytes k) := by
  induction k with
  | zero => exact fun _ _ => rfl
  | succ k ih => exact takeByte_ignoresDraws.andThen ih

theorem copyBytes_ignoresDraws (k a : Nat) : ResIgnoresDraws (copyBytes k a) := by
  induction k generalizing a with
  | zero => exact fun _ _ => rfl
  | succ k ih =>
    intro n s
    have hread : outRead a (withDraws n s) = outRead a s := rfl
    rw [copyBytes, copyBytes, hread]
    cases outRead a s with
    | none => rfl
    | some v => exact (outAppend_ignoresDraws v).andThen (ih (a + 1)) n s

/-! ### The items -/

theorem backReference_ignoresDraws (d : BitVec 12) (x len : Nat) : ResIgnoresDraws (backReference d x len) := by
  refine (takeBytes_ignoresDraws 2).andThen fun n s => ?_
  have hstart : sourceStart d (withDraws n s) = sourceStart d s := rfl
  rw [hstart]
  cases sourceStart d s with
  | none => rfl
  | some a =>
    refine (takeBytes_ignoresDraws x).andThen (fun n s => ?_) n s
    exact (copyBytes_ignoresDraws (copyCount len s) a).andThen completeOp_ignoresDraws n s

theorem execHdr_ignoresDraws (m : Tag) (size : BitVec 32) (r : BitVec 64) : IgnoresDraws (execHdr m size r) := by
  have hreserved : ResIgnoresDraws fun s => takeBytes 8 (s.setDeclaredSize size) :=
    fun n s => takeBytes_ignoresDraws 8 n (s.setDeclaredSize size)
  have hrun : ResIgnoresDraws fun s => .ok (s.setPhase .run) := fun _ _ => rfl
  exact ((takeBytes_ignoresDraws 4).andThen ((checkMagic_ignoresDraws m).andThen ((takeBytes_ignoresDraws 4).andThen
    (hreserved.andThen (checkCapacity_ignoresDraws.andThen hrun))))).outcome

theorem exec_ignoresDraws (i : Instr) : IgnoresDraws (exec i) := by
  cases i with
  | hdr m size r => exact execHdr_ignoresDraws m size r
  | ctrl c =>
    have hload : ResIgnoresDraws fun s => .ok (s.loadControl c) := fun _ _ => rfl
    exact (takeByte_ignoresDraws.andThen hload).outcome
  | lit v => exact (takeByte_ignoresDraws.andThen ((outAppend_ignoresDraws v).andThen completeOp_ignoresDraws)).outcome
  | brefLong d e => exact (backReference_ignoresDraws d 1 (longCopyLength e)).outcome
  | brefShort k d => exact (backReference_ignoresDraws d 0 (shortCopyLength k)).outcome
  | endDecode => exact fun _ _ => rfl

/-! ### The step -/

theorem execFetched_ignoresDraws (c : Context) : IgnoresDraws (execFetched c) := by
  intro n s
  have hwindow : fetchWindow (withDraws n s) = fetchWindow s := rfl
  rw [execFetched, execFetched, hwindow]
  cases decode c (fetchWindow s) with
  | ok next => exact exec_ignoresDraws next.1 n s
  | error e => rfl

theorem runOp_ignoresDraws : IgnoresDraws runOp := by
  intro n s
  have hsel : selectOp (withDraws n s) = selectOp s := rfl
  rw [runOp, runOp, hsel]
  cases selectOp s with
  | item c => exact execFetched_ignoresDraws c n s
  | nothing | noFlagBit => rfl

theorem continueIteration_ignoresDraws (n : Nat) (o : Host.Outcome State Fault Refusal) :
    continueIteration (outcomeWithDraws n o) = outcomeWithDraws n (continueIteration o) := by
  cases o with
  | fault | refused => rfl
  | next t =>
    have hphase : (withDraws n t).phase = t.phase := rfl
    rw [outcomeWithDraws, continueIteration, continueIteration, hphase, apply_ite (outcomeWithDraws n),
      runOp_ignoresDraws n t]
    rfl

theorem runItem_ignoresDraws (c : Context) : IgnoresDraws (runItem c) := by
  intro n s
  by_cases hc : c = .control
  · rw [hc, runItem, runItem, execFetched_ignoresDraws .control n s, continueIteration_ignoresDraws]
  · rw [runItem_of_ne_control _ hc, runItem_of_ne_control _ hc, execFetched_ignoresDraws c n s]

theorem step_ignoresDraws : IgnoresDraws step := by
  intro n s
  have hsel : select (withDraws n s) = select s := rfl
  have hcfg : (withDraws n s).cfg = s.cfg := rfl
  rw [step_eq, step_eq, hsel, hcfg]
  cases select s with
  | nothing | noFlagBit => rfl
  | item c =>
    simp only []
    rw [runItem_ignoresDraws c n s, apply_ite (outcomeWithDraws n)]
    rfl

theorem run_ignoresDraws (k : Nat) : IgnoresDraws (Sys2Proof.core.run k) := by
  induction k with
  | zero => exact fun _ _ => rfl
  | succ k ih =>
    intro n s
    have hcommutes := step_ignoresDraws n s
    cases hstep : step s with
    | next t =>
      rw [hstep] at hcommutes
      rw [core_run_next hcommutes, core_run_next hstep]
      exact ih n t
    | fault e =>
      rw [hstep] at hcommutes
      rw [core_run_fault hcommutes, core_run_fault hstep]
      rfl
    | refused e =>
      rw [hstep] at hcommutes
      rw [core_run_refused hcommutes, core_run_refused hstep]
      rfl

theorem sameUpToDraws_withDraws (n : Nat) (o : Host.Outcome State Fault Refusal) :
    SameUpToDraws (outcomeWithDraws n o) o := by
  cases o <;> rfl

theorem start_eq_withDraws {s1 s2 : State} (hinp : s1.inp = s2.inp) (hcfg : s1.cfg = s2.cfg) :
    s1.start = withDraws s1.draws s2.start := by
  simp only [State.start, withDraws, hinp, hcfg]

end Draws

/-- Settles O49: the two states after START differ in the counter alone. -/
theorem resultDependsOnInputAndConfig : Obligations.ResultDependsOnInputAndConfig := by
  unfold Obligations.ResultDependsOnInputAndConfig
  intro n s1 s2 hinp hcfg
  rw [start_eq_withDraws hinp hcfg, run_ignoresDraws n]
  exact sameUpToDraws_withDraws _ _

end Sys2Proof.Proofs
end
